-- ==== Sys2Proof/Word.lean ====
section
/-! DEFINITION. The widths the spec names (00_scope.md R7, R9) and the bit-string type (R10). -/

namespace Sys2Proof

/-- A register value: every register is one 32-bit word (00_scope.md R7, row WORD). -/
abbrev Word := BitVec 32

/-- A byte: a symbol, or one byte of a packed stream (00_scope.md R7, row NSYM). -/
abbrev Byte := BitVec 8

/-- A symbol, one of the 256 byte values (00_scope.md R7, row NSYM). -/
abbrev Symbol := BitVec 8

/-- A byte offset within the 64 KiB window (20_memory.md R60). -/
abbrev Offset := BitVec 16

/-- A 9-bit node index: 0..511 can be encoded, 0..510 are entries (00_scope.md R7, row IDX_WIDTH). -/
abbrev NodeIdx := BitVec 9

/-- A bit string, first bit first (00_scope.md R10). -/
abbrev Bits := List Bool

end Sys2Proof
end

