-- ==== Sys2Proof/Syntax.lean ====
section
/-! DEFINITION. The instructions: one constructor per row of spec/opcode_table.json. The block fetches no
instructions (10_state.md R21); its instructions are the host's accesses. Also the access a host sends, and the turn
of one transition (20_memory.md R70). -/

namespace Sys2Proof

/-- What an access of an unmapped offset does: the table's one row UNMAPPED stands for reads and for writes
(41_register_access.md R141; log entry 18). -/
inductive UnmappedUse
  | read
  | write (v : Word)
deriving DecidableEq, Repr

/-- The instructions, in the table's order. `v` is the written word, `w` the command word. -/
inductive Instr
  /-- 40_commands.md R101. -/
  | nop
  /-- 40_commands.md R102. -/
  | clear
  /-- 40_commands.md R103. -/
  | startPack
  /-- 40_commands.md R104. -/
  | startUnpack
  /-- 40_commands.md R105. -/
  | flush
  /-- 40_commands.md R106. -/
  | clrAerr
  /-- 40_commands.md R107: any word of 30_encoding.md R83. -/
  | reserved (w : Word)
  /-- 41_register_access.md R121. -/
  | rdId
  /-- 41_register_access.md R122. -/
  | rdCtrl
  /-- 40_commands.md R100: performs the command the word decodes to. -/
  | wrCtrl (w : Word)
  /-- 41_register_access.md R123. -/
  | rdStatus
  /-- 41_register_access.md R124. -/
  | rdIe
  /-- 41_register_access.md R124. -/
  | wrIe (v : Word)
  /-- 41_register_access.md R125. -/
  | wrSymcount (v : Word)
  /-- 41_register_access.md R126. -/
  | rdSymcount
  /-- 41_register_access.md R127. -/
  | rdRoot
  /-- 41_register_access.md R127. -/
  | wrRoot (v : Word)
  /-- 41_register_access.md R128. -/
  | wrDin (v : Word)
  /-- 41_register_access.md R129. -/
  | rdDin
  /-- 41_register_access.md R130. -/
  | rdDout
  /-- 41_register_access.md R131. -/
  | rdInCount
  /-- 41_register_access.md R131. -/
  | rdOutCount
  /-- 41_register_access.md R132. -/
  | rdFaultInfo
  /-- 41_register_access.md R133. -/
  | rdDbgPack
  /-- 41_register_access.md R133. -/
  | rdDbgUnpack
  /-- 41_register_access.md R134. -/
  | rdParam
  /-- 41_register_access.md R140. -/
  | wrId (v : Word)
  /-- 41_register_access.md R140. -/
  | wrStatus (v : Word)
  /-- 41_register_access.md R140. -/
  | wrDout (v : Word)
  /-- 41_register_access.md R140. -/
  | wrInCount (v : Word)
  /-- 41_register_access.md R140. -/
  | wrOutCount (v : Word)
  /-- 41_register_access.md R140. -/
  | wrFaultInfo (v : Word)
  /-- 41_register_access.md R140. -/
  | wrDbgPack (v : Word)
  /-- 41_register_access.md R140. -/
  | wrDbgUnpack (v : Word)
  /-- 41_register_access.md R140. -/
  | wrParam (v : Word)
  /-- 41_register_access.md R135: the LEN word of symbol `y`. -/
  | wrCodeLen (y : Symbol) (v : Word)
  /-- 41_register_access.md R136: word `k` of symbol `y`. -/
  | wrCodeW (y : Symbol) (k : Fin 8) (v : Word)
  /-- 41_register_access.md R137: word `j` of symbol `y`'s entry, 0 the LEN word and 1..8 the words W0..W7. -/
  | rdCode (y : Symbol) (j : Fin 9)
  /-- 41_register_access.md R138: entry `n`. -/
  | wrNode (n : Fin 511) (v : Word)
  /-- 41_register_access.md R139: entry `n`. -/
  | rdNode (n : Fin 511)
  /-- 41_register_access.md R141. -/
  | unmapped (off : Offset) (use : UnmappedUse)
deriving DecidableEq, Repr

/-- A host access, in the three formats of the opcode table. `rd` and `wr` are `MemRead(off, size)` and
`MemWrite(off, size, v)` (00_scope.md R11), whatever size and alignment the host sends; `cmd` is the CMD format, a
word written at CTRL (30_encoding.md R80), the same access as `wr 0x004 4 w` (log entry 12). -/
inductive Access
  | cmd (w : Word)
  | rd (off : Offset) (size : Nat)
  | wr (off : Offset) (size : Nat) (v : Word)
deriving DecidableEq, Repr

/-- One transition of the total order (20_memory.md R70): a host access, an engine step, or the platform's reset
(70_reset_and_hazards.md R270). -/
inductive Turn
  | access (a : Access)
  | engine
  | reset
deriving DecidableEq, Repr

end Sys2Proof
end

