-- ==== Sys2Proof/Machine/State.lean ====
section
/-! DEFINITION. The state of the block (10_state.md), the reasons a step stops, and the state after reset
(10_state.md R51). -/

namespace Sys2Proof.Machine

/-- `STATE` (10_state.md R22): the values 5 to 7 are never held, so the type has five. -/
inductive Mode
  | idle
  | pack
  | unpack
  | done
  | fault
deriving DecidableEq, Repr

/-- The access-error causes (60_exceptions.md R246): the reserved codes 7 to 15 are never recorded. -/
inductive AerrCause
  | none
  | cmdReserved
  | cmdState
  | dinOverflow
  | dinState
  | cfgBusy
  | badAddr
deriving DecidableEq, Repr

/-- The engine-fault causes (60_exceptions.md R241): the reserved codes 4 to 15 are never recorded. -/
inductive FaultCause
  | none
  | noCode
  | badNode
  | badCode
deriving DecidableEq, Repr

/-- A NODE entry: 19 stored bits (10_state.md R46). -/
structure NodeEntry where
  leaf : Bool
  hi : NodeIdx
  lo : NodeIdx
deriving DecidableEq, Repr

/-- Why the machine stops with a fault. The engine faults of 60_exceptions.md R241 are not here: they are next
states with STATE = FAULT. -/
inductive Fault
  /-- `UNINIT`, the model-only fault of 10_state.md R47: an engine step read the table word at this window offset,
  which no write has reached since reset. Raised by P_TAKE, P_SHIFT and U_BIT. Safe: the hardware goes on in some
  unspecified way, and no claim about that can be proved. -/
  | uninit (off : Nat)
deriving DecidableEq, Repr

/-- Why a step gives no meaning. -/
inductive Refusal
  /-- An instruction that has no meaning yet. Raised by `exec` alone. Safe. -/
  | notModelled (mnemonic : String)
  /-- A host access that is not a 4-byte word access (20_memory.md R63). Raised by the decoder in `step`. Safe. -/
  | notAWord (size : Nat)
  /-- A host access at an offset that is not a multiple of 4 (20_memory.md R63). Raised by the decoder in `step`.
  Safe. -/
  | misaligned (off : Offset)
deriving DecidableEq, Repr

/-- The memory behind the CODE and NODE windows: cells of a window offset and a byte. -/
abbrev Memory := List Host.Cell

/-- The state: every element of 10_state.md R22 to R29, R34, R36, R45, R46, then the model's own fields. -/
structure State where
  /-- `STATE` (R22). -/
  mode : Mode
  /-- `FLUSH_REQ` (R23). -/
  flushReq : Bool
  /-- `DIN_VALID` (R24). -/
  dinValid : Bool
  /-- `DIN_DATA` (R24). -/
  dinData : Byte
  /-- `DOUT_VALID` (R25). -/
  doutValid : Bool
  /-- `DOUT_DATA` (R25). -/
  doutData : Byte
  /-- `ACC` (R26). -/
  acc : BitVec 7
  /-- `ACC_N` (R26). -/
  accN : BitVec 3
  /-- `CODE_ACTIVE` (R26). -/
  codeActive : Bool
  /-- `CUR_SYM` (R26). -/
  curSym : Symbol
  /-- `CUR_IDX` (R26). -/
  curIdx : BitVec 8
  /-- `SR` (R27). -/
  sr : Byte
  /-- `SR_N` (R27). -/
  srN : BitVec 4
  /-- `CUR` (R27). -/
  cur : NodeIdx
  /-- `SYMCOUNT` (R28). -/
  symCount : Word
  /-- `IN_COUNT` (R28). -/
  inCount : Word
  /-- `OUT_COUNT` (R28). -/
  outCount : Word
  /-- `ROOT` (R36). -/
  root : NodeIdx
  /-- `IE` (R34). -/
  ie : BitVec 5
  /-- `AERR` (R29). -/
  aerr : Bool
  /-- `AERR_CAUSE` (R29). -/
  aerrCause : AerrCause
  /-- `FAULT_CAUSE` (R29). -/
  faultCause : FaultCause
  /-- `FAULT_INFO` (R29). -/
  faultInfo : BitVec 9
  /-- The storage behind the CODE and NODE windows (R45, R46). An unlisted offset has not been written since reset
  (R47). -/
  mem : Memory
  /-- The model's own: how many resets there have been, the key of the free value of unwritten words (log entry 6). -/
  epoch : Nat
  /-- The model's own: the turns the outside brings next (20_memory.md R70; log entry 1). -/
  turns : List Turn
  /-- The model's own: the values `MemRead` has returned to the host, oldest first (log entry 3). -/
  replies : List Word
deriving DecidableEq, Repr

/-- The state after reset (10_state.md R51): every register 0, STATE IDLE, every table entry unwritten. The model's
own fields start empty and 0 (log entries 1, 3, 6). -/
def State.reset : State where
  mode := .idle
  flushReq := false
  dinValid := false
  dinData := 0
  doutValid := false
  doutData := 0
  acc := 0
  accN := 0
  codeActive := false
  curSym := 0
  curIdx := 0
  sr := 0
  srN := 0
  cur := 0
  symCount := 0
  inCount := 0
  outCount := 0
  root := 0
  ie := 0
  aerr := false
  aerrCause := .none
  faultCause := .none
  faultInfo := 0
  mem := []
  epoch := 0
  turns := []
  replies := []

end Sys2Proof.Machine
end

