-- ==== Sys2Proof/Machine/Flags.lean ====
section
/-! DEFINITION. Every flag and every view of the state: the codes of the enumerations, busy, DIN_READY, irq, and the
words of STATUS, DOUT, DBG_PACK and DBG_UNPACK. -/

namespace Sys2Proof.Machine

/-- The 3-bit code of STATE (10_state.md R22). -/
def Mode.code : Mode → BitVec 3
  | .idle => 0
  | .pack => 1
  | .unpack => 2
  | .done => 3
  | .fault => 4

/-- The 4-bit code of AERR_CAUSE (60_exceptions.md R246). -/
def AerrCause.code : AerrCause → BitVec 4
  | .none => 0
  | .cmdReserved => 1
  | .cmdState => 2
  | .dinOverflow => 3
  | .dinState => 4
  | .cfgBusy => 5
  | .badAddr => 6

/-- The 4-bit code of FAULT_CAUSE (60_exceptions.md R241). -/
def FaultCause.code : FaultCause → BitVec 4
  | .none => 0
  | .noCode => 1
  | .badNode => 2
  | .badCode => 3

/-- `busy()` (41_register_access.md R120). -/
def State.busy (s : State) : Bool := decide (s.mode = .pack ∨ s.mode = .unpack)

/-- The states in which DIN takes a byte when it is empty (41_register_access.md R128). -/
def State.accepting (s : State) : Bool :=
  decide (s.mode = .unpack) || (decide (s.mode = .pack) && !s.flushReq)

/-- `DIN_READY` (10_state.md R33, 41_register_access.md R123). -/
def State.dinReady (s : State) : Bool := !s.dinValid && s.accepting

/-- The irq level (10_state.md R48). -/
def State.irq (s : State) : Bool :=
  (s.ie.getLsbD 0 && decide (s.mode = .done))
    || (s.ie.getLsbD 1 && decide (s.mode = .fault))
    || (s.ie.getLsbD 2 && s.aerr)
    || (s.ie.getLsbD 3 && s.doutValid)
    || (s.ie.getLsbD 4 && s.dinReady)

/-- A one-bit field of a register word. -/
def flagWord (b : Bool) : Word := BitVec.zeroExtend 32 (BitVec.ofBool b)

/-- The word STATUS reads as (41_register_access.md R123, 10_state.md R33). -/
def State.statusWord (s : State) : Word :=
  BitVec.zeroExtend 32 s.mode.code
    ||| (flagWord s.flushReq <<< 3) ||| (flagWord s.dinValid <<< 4) ||| (flagWord s.doutValid <<< 5)
    ||| (flagWord s.aerr <<< 6) ||| (flagWord s.irq <<< 7)
    ||| (BitVec.zeroExtend 32 s.aerrCause.code <<< 8) ||| (BitVec.zeroExtend 32 s.faultCause.code <<< 12)
    ||| (flagWord s.dinReady <<< 16)

/-- The word a read of DOUT returns (41_register_access.md R130, 10_state.md R38). -/
def State.doutWord (s : State) : Word :=
  if s.doutValid then 0x100 ||| BitVec.zeroExtend 32 s.doutData else 0

/-- The word DBG_PACK reads as (41_register_access.md R133, 10_state.md R42). -/
def State.dbgPackWord (s : State) : Word :=
  BitVec.zeroExtend 32 s.accN ||| (flagWord s.codeActive <<< 3) ||| (BitVec.zeroExtend 32 s.acc <<< 4)
    ||| (BitVec.zeroExtend 32 s.curSym <<< 16) ||| (BitVec.zeroExtend 32 s.curIdx <<< 24)

/-- The word DBG_UNPACK reads as (41_register_access.md R133, 10_state.md R43). -/
def State.dbgUnpackWord (s : State) : Word :=
  BitVec.zeroExtend 32 s.sr ||| (BitVec.zeroExtend 32 s.srN <<< 8) ||| (BitVec.zeroExtend 32 s.cur <<< 16)

/-- The constant ID (10_state.md R30). -/
def idWord : Word := 0x48425055

/-- The constant PARAM (10_state.md R44). -/
def paramWord : Word := 0x01FF00FF

end Sys2Proof.Machine
end

