-- ==== Sys2Proof/Config.lean ====
section
/-! DEFINITION. The implementation parameters of 00_scope.md R7, the parameters the spec leaves open, and the free
value that stands for the unspecified content of the tables. -/

namespace Sys2Proof

/-- `NSYM` (00_scope.md R7). -/
def Config.symbolCount : Nat := 256

/-- `NODE_COUNT` (00_scope.md R7). -/
def Config.nodeCount : Nat := 511

/-- `MAX_CODE_LEN` (00_scope.md R7). -/
def Config.maxCodeLen : Nat := 255

/-- `WINDOW`, the size of the host address window in bytes (00_scope.md R7, 20_memory.md R60). -/
def Config.windowSize : Nat := 0x10000

/-- The open parameter behind `BASE_ADDR`: the number of the 64 KiB block the window occupies (20_memory.md R60,
92_eei_decisions.md D2). No value is chosen (log entry 10). -/
opaque Config.baseBlock : Nat

/-- `BASE_ADDR`, a multiple of 0x10000 (20_memory.md R60). -/
def Config.baseAddr : Nat := Config.baseBlock * Config.windowSize

/-- Which bus byte lane carries each byte of a word, byte 0 being bits 7:0: each lane carries one (20_memory.md R64). -/
abbrev ByteLanes := Equiv.Perm (Fin 4)

/-- `HOST_BYTE_LANES`, which the spec leaves open to the platform (00_scope.md R7, 20_memory.md R64,
93_implementation_defined.md I4). No value is chosen (log entry 11). -/
opaque Config.hostByteLanes : ByteLanes

/-- The free value of a table word that no write has reached since reset (10_state.md R47,
93_implementation_defined.md I1): a draw for each reset epoch and each window offset (log entry 5). Nothing
constrains it. -/
opaque Config.tableDraw : Nat → Nat → Word

end Sys2Proof
end

