-- ==== Sys2Proof/WellFormed.lean ====
section
/-! DEFINITION. Which instruction terms stand for an access of the table: the checks that the types of the operands
do not already make. -/

namespace Sys2Proof

/-- The unmapped offsets of 20_memory.md R69. -/
def unmappedOffset (off : Offset) : Bool :=
  let n := off.toNat
  (decide (0x0038 ≤ n) && decide (n ≤ 0x0FFC))
    || (decide (0x1000 ≤ n) && decide (n ≤ 0x4FFC) && decide (0x24 ≤ n % 0x40))
    || (decide (0x5000 ≤ n) && decide (n ≤ 0x7FFC))
    || decide (0x87FC ≤ n)

/-- The command words of 30_encoding.md R83 that no command is assigned to: a nonzero RSVD field, or an OP of
0x06..0xFF. -/
def reservedWord (w : Word) : Bool :=
  decide (w.extractLsb' 8 24 ≠ 0) || decide (6 ≤ (w.extractLsb' 0 8).toNat)

/-- An instruction is well formed when its operands are ones its row admits: a RESERVED word is not an assigned
command, and an UNMAPPED offset is an aligned offset of 20_memory.md R69. -/
def Instr.wellFormed : Instr → Bool
  | .reserved w => reservedWord w
  | .unmapped off _ => decide (off.toNat % 4 = 0) && unmappedOffset off
  | .nop | .clear | .startPack | .startUnpack | .flush | .clrAerr => true
  | .rdId | .rdCtrl | .rdStatus | .rdIe | .rdSymcount | .rdRoot | .rdDin | .rdDout => true
  | .rdInCount | .rdOutCount | .rdFaultInfo | .rdDbgPack | .rdDbgUnpack | .rdParam => true
  | .wrCtrl _ | .wrIe _ | .wrSymcount _ | .wrRoot _ | .wrDin _ => true
  | .wrId _ | .wrStatus _ | .wrDout _ | .wrInCount _ | .wrOutCount _ => true
  | .wrFaultInfo _ | .wrDbgPack _ | .wrDbgUnpack _ | .wrParam _ => true
  | .wrCodeLen _ _ | .wrCodeW _ _ _ | .rdCode _ _ | .wrNode _ _ | .rdNode _ => true

end Sys2Proof
end

