-- ==== Sys2Proof/Decode.lean ====
section
/-! DEFINITION. The decoder, total on every access (30_encoding.md R80 to R82, 10_state.md R31), its refusals by name
(20_memory.md R63), and the encoder. -/

namespace Sys2Proof

/-! ## Commands -/

/-- The commands of 30_encoding.md R81. -/
inductive Command
  | nop
  | clear
  | startPack
  | startUnpack
  | flush
  | clrAerr
  | reserved (w : Word)
deriving DecidableEq, Repr

/-- `decode_cmd` (30_encoding.md R82), total on every word. -/
def decodeCmd (w : Word) : Command :=
  if w.extractLsb' 8 24 ≠ 0 then .reserved w
  else
    let op := w.extractLsb' 0 8
    if op = 0x00 then .nop
    else if op = 0x01 then .clear
    else if op = 0x02 then .startPack
    else if op = 0x03 then .startUnpack
    else if op = 0x04 then .flush
    else if op = 0x05 then .clrAerr
    else .reserved w

/-- The row of the opcode table a command is. -/
def Command.toInstr : Command → Instr
  | .nop => .nop
  | .clear => .clear
  | .startPack => .startPack
  | .startUnpack => .startUnpack
  | .flush => .flush
  | .clrAerr => .clrAerr
  | .reserved w => .reserved w

/-! ## The register map -/

/-- The registers of 10_state.md R31. -/
inductive Reg
  | id
  | ctrl
  | status
  | ie
  | symcount
  | root
  | din
  | dout
  | inCount
  | outCount
  | faultInfo
  | dbgPack
  | dbgUnpack
  | param
deriving DecidableEq, Repr

/-- The offset of each register (10_state.md R31). -/
def Reg.offset : Reg → Offset
  | .id => 0x000
  | .ctrl => 0x004
  | .status => 0x008
  | .ie => 0x00C
  | .symcount => 0x010
  | .root => 0x014
  | .din => 0x018
  | .dout => 0x01C
  | .inCount => 0x020
  | .outCount => 0x024
  | .faultInfo => 0x028
  | .dbgPack => 0x02C
  | .dbgUnpack => 0x030
  | .param => 0x034

/-- What an aligned offset names (10_state.md R31). -/
inductive Target
  | reg (r : Reg)
  /-- Word `j` of symbol `y`'s CODE entry: 0 is LEN, 1..8 are W0..W7 (10_state.md R45). -/
  | code (y : Symbol) (j : Fin 9)
  /-- NODE entry `n` (10_state.md R46). -/
  | node (n : Fin 511)
  | unmapped
deriving DecidableEq, Repr

/-- The window offset of word `j` of symbol `y`'s entry: E(s) + 4 j with E(s) = 0x1000 + 0x40 s (10_state.md R45). -/
def codeOffset (y : Symbol) (j : Nat) : Nat := 0x1000 + 0x40 * y.toNat + 4 * j

/-- The window offset of NODE entry `n` (10_state.md R46). -/
def nodeOffset (n : Nat) : Nat := 0x8000 + 4 * n

/-- The register at word number `i` of the window, if there is one (10_state.md R31). -/
def regAt (i : Nat) : Option Reg :=
  match i with
  | 0 => some .id
  | 1 => some .ctrl
  | 2 => some .status
  | 3 => some .ie
  | 4 => some .symcount
  | 5 => some .root
  | 6 => some .din
  | 7 => some .dout
  | 8 => some .inCount
  | 9 => some .outCount
  | 10 => some .faultInfo
  | 11 => some .dbgPack
  | 12 => some .dbgUnpack
  | 13 => some .param
  | _ => none

/-- The register map (10_state.md R31), for an aligned offset. -/
def locate (off : Offset) : Target :=
  let a := off.toNat
  if a < 0x1000 then
    match regAt (a / 4) with
    | some r => .reg r
    | none => .unmapped
  else if a < 0x5000 then
    let j := a % 0x40 / 4
    if h : j < 9 then .code (BitVec.ofNat 8 ((a - 0x1000) / 0x40)) ⟨j, h⟩ else .unmapped
  else if a < 0x8000 then .unmapped
  else
    let n := (a - 0x8000) / 4
    if h : n < 511 then .node ⟨n, h⟩ else .unmapped

/-! ## Accesses -/

/-- Why the decoder refuses an access: it is not an aligned 32-bit word access (20_memory.md R63). -/
inductive DecodeError
  /-- A byte or halfword access, or a burst: the size is not 4 bytes. -/
  | notAWord (size : Nat)
  /-- `off mod 4` is not 0. -/
  | misaligned (off : Offset)
deriving DecidableEq, Repr

/-- The instruction an aligned word read of an offset is. -/
def decodeRead (off : Offset) : Instr :=
  match locate off with
  | .reg .id => .rdId
  | .reg .ctrl => .rdCtrl
  | .reg .status => .rdStatus
  | .reg .ie => .rdIe
  | .reg .symcount => .rdSymcount
  | .reg .root => .rdRoot
  | .reg .din => .rdDin
  | .reg .dout => .rdDout
  | .reg .inCount => .rdInCount
  | .reg .outCount => .rdOutCount
  | .reg .faultInfo => .rdFaultInfo
  | .reg .dbgPack => .rdDbgPack
  | .reg .dbgUnpack => .rdDbgUnpack
  | .reg .param => .rdParam
  | .code y j => .rdCode y j
  | .node n => .rdNode n
  | .unmapped => .unmapped off .read

/-- The instruction an aligned word write to an offset is. -/
def decodeWrite (off : Offset) (v : Word) : Instr :=
  match locate off with
  | .reg .id => .wrId v
  | .reg .ctrl => .wrCtrl v
  | .reg .status => .wrStatus v
  | .reg .ie => .wrIe v
  | .reg .symcount => .wrSymcount v
  | .reg .root => .wrRoot v
  | .reg .din => .wrDin v
  | .reg .dout => .wrDout v
  | .reg .inCount => .wrInCount v
  | .reg .outCount => .wrOutCount v
  | .reg .faultInfo => .wrFaultInfo v
  | .reg .dbgPack => .wrDbgPack v
  | .reg .dbgUnpack => .wrDbgUnpack v
  | .reg .param => .wrParam v
  | .code y ⟨0, _⟩ => .wrCodeLen y v
  | .code y ⟨k + 1, h⟩ => .wrCodeW y ⟨k, Nat.lt_of_succ_lt_succ h⟩ v
  | .node n => .wrNode n v
  | .unmapped => .unmapped off (.write v)

/-- The decoder: an aligned 32-bit access decodes by its direction and offset, every other access is refused by name
(20_memory.md R63); a CMD word decodes by 30_encoding.md R82. -/
def decode : Access → Except DecodeError Instr
  | .cmd w => .ok (decodeCmd w).toInstr
  | .rd off size =>
    if size ≠ 4 then .error (.notAWord size)
    else if off.toNat % 4 ≠ 0 then .error (.misaligned off)
    else .ok (decodeRead off)
  | .wr off size v =>
    if size ≠ 4 then .error (.notAWord size)
    else if off.toNat % 4 ≠ 0 then .error (.misaligned off)
    else .ok (decodeWrite off v)

/-! ## The encoder -/

/-- An aligned word read of a register. -/
def Reg.read (r : Reg) : Access := .rd r.offset 4

/-- An aligned word write of a register. -/
def Reg.write (r : Reg) (v : Word) : Access := .wr r.offset 4 v

/-- The access of an instruction, from the match words of 30_encoding.md R81 and the offsets of 10_state.md R31, R45
and R46. -/
def encode : Instr → Access
  | .nop => .cmd 0x00000000
  | .clear => .cmd 0x00000001
  | .startPack => .cmd 0x00000002
  | .startUnpack => .cmd 0x00000003
  | .flush => .cmd 0x00000004
  | .clrAerr => .cmd 0x00000005
  | .reserved w => .cmd w
  | .rdId => Reg.id.read
  | .rdCtrl => Reg.ctrl.read
  | .wrCtrl w => Reg.ctrl.write w
  | .rdStatus => Reg.status.read
  | .rdIe => Reg.ie.read
  | .wrIe v => Reg.ie.write v
  | .wrSymcount v => Reg.symcount.write v
  | .rdSymcount => Reg.symcount.read
  | .rdRoot => Reg.root.read
  | .wrRoot v => Reg.root.write v
  | .wrDin v => Reg.din.write v
  | .rdDin => Reg.din.read
  | .rdDout => Reg.dout.read
  | .rdInCount => Reg.inCount.read
  | .rdOutCount => Reg.outCount.read
  | .rdFaultInfo => Reg.faultInfo.read
  | .rdDbgPack => Reg.dbgPack.read
  | .rdDbgUnpack => Reg.dbgUnpack.read
  | .rdParam => Reg.param.read
  | .wrId v => Reg.id.write v
  | .wrStatus v => Reg.status.write v
  | .wrDout v => Reg.dout.write v
  | .wrInCount v => Reg.inCount.write v
  | .wrOutCount v => Reg.outCount.write v
  | .wrFaultInfo v => Reg.faultInfo.write v
  | .wrDbgPack v => Reg.dbgPack.write v
  | .wrDbgUnpack v => Reg.dbgUnpack.write v
  | .wrParam v => Reg.param.write v
  | .wrCodeLen y v => .wr (BitVec.ofNat 16 (codeOffset y 0)) 4 v
  | .wrCodeW y k v => .wr (BitVec.ofNat 16 (codeOffset y (k.val + 1))) 4 v
  | .rdCode y j => .rd (BitVec.ofNat 16 (codeOffset y j.val)) 4
  | .wrNode n v => .wr (BitVec.ofNat 16 (nodeOffset n.val)) 4 v
  | .rdNode n => .rd (BitVec.ofNat 16 (nodeOffset n.val)) 4
  | .unmapped off .read => .rd off 4
  | .unmapped off (.write v) => .wr off 4 v

/-! ## The opcode table's numbering -/

/-- The access a word of spec/opcode_table.json stands for: a 32-bit row is a CMD word written to CTRL; a row of fewer
bits gives the 16-bit offset of an access and no direction, and stands for the read (log entry 13). -/
def tableAccess (nbits w : Nat) : Access :=
  if nbits ≤ 16 then .rd (BitVec.ofNat 16 w) 4 else .cmd (BitVec.ofNat 32 w)

/-- The instruction the decoder reads from a word of spec/opcode_table.json. -/
def decodeTableWord (nbits w : Nat) : Option Instr :=
  match decode (tableAccess nbits w) with
  | .ok i => some i
  | .error _ => none

end Sys2Proof
end

