-- ==== Sys2Proof/Machine/Memory.lean ====
section
/-! DEFINITION. The memory behind the CODE and NODE windows: cells of bytes in one canonical form, words of four
bytes, and the table entries of 10_state.md R45 and R46. -/

namespace Sys2Proof.Machine

/-- Every address is at least `lo`, and the addresses rise strictly. -/
def Memory.risesFrom (lo : Nat) : Memory → Bool
  | [] => true
  | c :: m => decide (lo ≤ c.1) && Memory.risesFrom (c.1 + 1) m

/-- The canonical form: addresses strictly rising. An unlisted address has no value, so no listed cell repeats it. -/
def Memory.wf (m : Memory) : Bool := Memory.risesFrom 0 m

/-- One byte, or none where no write has reached since reset (10_state.md R47). -/
def Memory.readByte : Memory → Nat → Option Byte
  | [], _ => none
  | c :: m, a => if c.1 = a then some c.2 else Memory.readByte m a

/-- Write one byte, keeping the addresses rising. -/
def Memory.writeByte : Memory → Nat → Byte → Memory
  | [], a, b => [(a, b)]
  | c :: m, a, b =>
    if a < c.1 then (a, b) :: c :: m
    else if a = c.1 then (a, b) :: m
    else c :: Memory.writeByte m a b

/-- The word at `a`: byte `a + j` holds bits 8 j + 7 down to 8 j (log entry 4). -/
def Memory.readWord (m : Memory) (a : Nat) : Option Word :=
  match m.readByte a, m.readByte (a + 1), m.readByte (a + 2), m.readByte (a + 3) with
  | some b0, some b1, some b2, some b3 => some (b3 ++ b2 ++ b1 ++ b0)
  | _, _, _, _ => none

/-- Write the word at `a`, in the byte order of `Memory.readWord`. -/
def Memory.writeWord (m : Memory) (a : Nat) (v : Word) : Memory :=
  (((m.writeByte a (v.extractLsb' 0 8)).writeByte (a + 1) (v.extractLsb' 8 8)).writeByte (a + 2)
    (v.extractLsb' 16 8)).writeByte (a + 3) (v.extractLsb' 24 8)

/-- The offsets that have storage: the LEN byte and the 32 W bytes of each CODE entry (10_state.md R45), and the four
bytes of each NODE word (R46). -/
def Memory.storedAt (a : Nat) : Bool :=
  (decide (0x1000 ≤ a) && decide (a < 0x5000) &&
      (decide (a % 0x40 = 0) || (decide (4 ≤ a % 0x40) && decide (a % 0x40 < 0x24))))
    || (decide (0x8000 ≤ a) && decide (a < 0x87FC))

/-! ## NODE words -/

/-- The fields of a NODE word (10_state.md R46, 30_encoding.md R84): bits 30:25 and 15:9 are ignored. -/
def NodeEntry.ofWord (v : Word) : NodeEntry where
  leaf := v.getLsbD 31
  hi := v.extractLsb' 16 9
  lo := v.extractLsb' 0 9

/-- The word of a NODE entry (41_register_access.md R139). -/
def NodeEntry.toWord (e : NodeEntry) : Word :=
  (BitVec.zeroExtend 32 (BitVec.ofBool e.leaf) <<< 31) ||| (BitVec.zeroExtend 32 e.hi <<< 16)
    ||| BitVec.zeroExtend 32 e.lo

/-- `SYM = LO[7:0]` of a Leaf (10_state.md R46). -/
def NodeEntry.sym (e : NodeEntry) : Symbol := e.lo.extractLsb' 0 8

/-! ## Table entries -/

/-- `CODE_LEN[y]`, if written since reset (10_state.md R45, R47). -/
def Memory.codeLen? (m : Memory) (y : Symbol) : Option Byte := m.readByte (codeOffset y 0)

/-- `CODE_W[y][k]`, if written since reset (10_state.md R45, R47). -/
def Memory.codeW? (m : Memory) (y : Symbol) (k : Nat) : Option Word := m.readWord (codeOffset y (k + 1))

/-- `CODE_BITS[y][i] = CODE_W[y][i / 32][31 - (i mod 32)]`, if that word is written (10_state.md R45). -/
def Memory.codeBit? (m : Memory) (y : Symbol) (i : BitVec 8) : Option Bool :=
  (m.codeW? y (i.toNat / 32)).map fun w => w.getLsbD (31 - i.toNat % 32)

/-- The code of symbol `y`, `CODE_BITS[y][0] .. CODE_BITS[y][CODE_LEN[y] - 1]` (43_pack_engine.md R185), if all of it
is written. -/
def Memory.code? (m : Memory) (y : Symbol) : Option Bits :=
  match m.codeLen? y with
  | none => none
  | some len => (List.range len.toNat).mapM fun i => m.codeBit? y (BitVec.ofNat 8 i)

/-- `NODE[n]`, if written since reset (10_state.md R46, R47). -/
def Memory.node? (m : Memory) (n : Nat) : Option NodeEntry := (m.readWord (nodeOffset n)).map NodeEntry.ofWord

/-- Store `CODE_LEN[y]` (41_register_access.md R135). -/
def Memory.setCodeLen (m : Memory) (y : Symbol) (len : Byte) : Memory := m.writeByte (codeOffset y 0) len

/-- Store `CODE_W[y][k]` (41_register_access.md R136). -/
def Memory.setCodeW (m : Memory) (y : Symbol) (k : Nat) (v : Word) : Memory := m.writeWord (codeOffset y (k + 1)) v

/-- Store `NODE[n]` (41_register_access.md R138). -/
def Memory.setNode (m : Memory) (n : Nat) (e : NodeEntry) : Memory := m.writeWord (nodeOffset n) e.toWord

end Sys2Proof.Machine
end

