-- ==== Sys2Proof/Machine/Operands.lean ====
section
/-! DEFINITION. Operand assembly (30_encoding.md R84): the fields an access takes from the written word, and the words
the host builds for the tables (R85, R86). Nothing is sign-extended, scaled or shifted. -/

namespace Sys2Proof.Machine

/-- `IE <- v[4:0]` (41_register_access.md R124). -/
def ieOperand (v : Word) : BitVec 5 := v.extractLsb' 0 5

/-- `ROOT <- v[8:0]` (41_register_access.md R127). -/
def rootOperand (v : Word) : NodeIdx := v.extractLsb' 0 9

/-- The byte of a DIN write, `v[7:0]` (41_register_access.md R128). -/
def dinOperand (v : Word) : Byte := v.extractLsb' 0 8

/-- `CODE_LEN[s] <- v[7:0]` (41_register_access.md R135). -/
def codeLenOperand (v : Word) : Byte := v.extractLsb' 0 8

/-- The NODE fields of the written word (41_register_access.md R138). -/
def nodeOperand (v : Word) : NodeEntry := NodeEntry.ofWord v

/-- `node_word_leaf` (30_encoding.md R85). -/
def nodeWordLeaf (y : Symbol) : Word := 0x80000000 ||| BitVec.zeroExtend 32 y

/-- `node_word_internal` (30_encoding.md R85). -/
def nodeWordInternal (left right : NodeIdx) : Word :=
  (BitVec.zeroExtend 32 left <<< 16) ||| BitVec.zeroExtend 32 right

/-- The LEN word of a code (30_encoding.md R86). -/
def codeLenWord (c : Bits) : Word := BitVec.ofNat 32 c.length

/-- Word `k` of a code (30_encoding.md R86): bit `i` of the code is bit `31 - (i - 32 k)`; the bits past the end of
the code, which R86 leaves free, are 0. -/
def codeWord (c : Bits) (k : Nat) : Word :=
  (List.range 32).foldl (fun w j => if (c.drop (32 * k)).getD j false then w ||| (1 <<< (31 - j)) else w) 0

end Sys2Proof.Machine
end

