-- ==== Sys2Proof/Machine/Ops.lean ====
section
/-! DEFINITION. The named operations the meanings are written over: the two ways an error is recorded, the helpers of
00_scope.md R11 and 40_commands.md R100, the reads of a table word, and the guard of a configuration write. -/

namespace Sys2Proof.Machine

/-- The outcome of a transition. -/
abbrev Result := Host.Outcome State Fault Refusal

/-! ## Faults and access errors -/

/-- `raise Fault(cause, info)`, the engine-fault entry (60_exceptions.md R243): nothing else is saved. -/
def raiseFault (c : FaultCause) (info : BitVec 9) (s : State) : State :=
  { s with faultCause := c, faultInfo := info, mode := .fault }

/-- Clearing the fault record, the return from a fault (60_exceptions.md R245, 40_commands.md R102). -/
def clearFault (s : State) : State :=
  { s with faultCause := .none, faultInfo := 0 }

/-- `raise AccessError(cause)` (60_exceptions.md R247): the first cause is kept. -/
def raiseAccessError (c : AerrCause) (s : State) : State :=
  { s with aerr := true, aerrCause := if s.aerr then s.aerrCause else c }

/-- Clearing the access-error record (40_commands.md R102, R106). -/
def clearAccessError (s : State) : State :=
  { s with aerr := false, aerrCause := .none }

/-! ## Helpers of the rules -/

/-- `clear_datapath()` (40_commands.md R100). -/
def clearDatapath (s : State) : State :=
  { s with
    flushReq := false
    dinValid := false, dinData := 0
    doutValid := false, doutData := 0
    acc := 0, accN := 0, codeActive := false, curSym := 0, curIdx := 0
    sr := 0, srN := 0, cur := 0
    inCount := 0, outCount := 0 }

/-- `emit_out(b)` (00_scope.md R11). -/
def emitOut (b : Byte) (s : State) : State :=
  { s with doutData := b, doutValid := true, outCount := s.outCount + 1 }

/-- The engine takes the byte of DIN and counts it (43_pack_engine.md R181, 44_unpack_engine.md R201). -/
def takeDin (s : State) : State :=
  { s with dinValid := false, dinData := 0, inCount := s.inCount + 1 }

/-- `MemRead` returns `v` to the host (00_scope.md R11). -/
def reply (v : Word) (s : State) : State :=
  { s with replies := s.replies ++ [v] }

/-- The guard of a configuration write: refused with CFG_BUSY while busy, stored otherwise
(41_register_access.md R125, R127, R135, R136, R138). -/
def configWrite (store : State → State) (s : State) : State :=
  if s.busy then raiseAccessError .cfgBusy s else store s

/-! ## Host reads of the tables -/

/-- The free value of an unwritten table word at this window offset (10_state.md R47). -/
def draw (s : State) (off : Nat) : Word := Config.tableDraw s.epoch off

/-- A host read of word `j` of a CODE entry (41_register_access.md R137): the LEN byte zero-extended, or a W word; a
draw where it is unwritten (93_implementation_defined.md I1). -/
def readCodeWord (y : Symbol) (j : Nat) (s : State) : Word :=
  if j = 0 then
    BitVec.zeroExtend 32 ((s.mem.codeLen? y).getD ((draw s (codeOffset y 0)).extractLsb' 0 8))
  else (s.mem.readWord (codeOffset y j)).getD (draw s (codeOffset y j))

/-- A host read of a NODE word (41_register_access.md R139), with a draw of LEAF, HI and LO where it is unwritten
(93_implementation_defined.md I1). -/
def readNodeWord (n : Nat) (s : State) : Word :=
  ((s.mem.node? n).getD (NodeEntry.ofWord (draw s (nodeOffset n)))).toWord

/-! ## The window -/

/-- The access to a host address: its offset when it lies in the window at `BASE_ADDR` (20_memory.md R60). Addresses
outside the window do not reach the block. -/
def windowOffset (addr : Nat) : Option Offset :=
  if Config.baseAddr ≤ addr ∧ addr < Config.baseAddr + Config.windowSize then
    some (BitVec.ofNat 16 (addr - Config.baseAddr))
  else none

end Sys2Proof.Machine
end

