-- ==== Sys2Proof/Machine/Commands.lean ====
section
/-! DEFINITION. The commands (40_commands.md R100 to R107). Each is performed in full by the CTRL write that carries
it, as one transition. -/

namespace Sys2Proof.Machine

/-- NOP (R101): no state changes. -/
def execNop (s : State) : Result := .next s

/-- CLEAR (R102): accepted in every state. -/
def execClear (s : State) : Result :=
  .next (clearFault (clearAccessError { clearDatapath s with mode := .idle }))

/-- START_PACK (R103). -/
def execStartPack (s : State) : Result :=
  if s.mode = .idle ∨ s.mode = .done then
    .next { clearDatapath s with mode := .pack }
  else .next (raiseAccessError .cmdState s)

/-- START_UNPACK (R104): the SYMCOUNT check comes before the ROOT check (60_exceptions.md R252). -/
def execStartUnpack (s : State) : Result :=
  if s.mode = .idle ∨ s.mode = .done then
    let t := clearDatapath s
    if s.symCount = 0 then .next { t with mode := .done }
    else if 510 < s.root.toNat then .next (raiseFault .badNode s.root t)
    else .next { t with cur := s.root, mode := .unpack }
  else .next (raiseAccessError .cmdState s)

/-- FLUSH (R105). -/
def execFlush (s : State) : Result :=
  if s.mode = .pack then .next { s with flushReq := true }
  else .next (raiseAccessError .cmdState s)

/-- CLR_AERR (R106): accepted in every state. -/
def execClrAerr (s : State) : Result := .next (clearAccessError s)

/-- RESERVED (R107): the word is not performed in part. -/
def execReserved (_w : Word) (s : State) : Result := .next (raiseAccessError .cmdReserved s)

/-- A write of CTRL (R100) performs the command its word decodes to. -/
def execWrCtrl (w : Word) (s : State) : Result :=
  match decodeCmd w with
  | .nop => execNop s
  | .clear => execClear s
  | .startPack => execStartPack s
  | .startUnpack => execStartUnpack s
  | .flush => execFlush s
  | .clrAerr => execClrAerr s
  | .reserved w' => execReserved w' s

end Sys2Proof.Machine
end

