-- ==== Sys2Proof/Machine/RegisterReads.lean ====
section
/-! DEFINITION. Host reads of the registers (41_register_access.md R121 to R134). A read returns the state before the
access (20_memory.md R68), raises no error (R120), and has no side effect but for a read of DOUT (20_memory.md R67). -/

namespace Sys2Proof.Machine

/-- RD ID (R121). -/
def execRdId (s : State) : Result := .next (reply idWord s)

/-- RD CTRL (R122). -/
def execRdCtrl (s : State) : Result := .next (reply 0 s)

/-- RD STATUS (R123). -/
def execRdStatus (s : State) : Result := .next (reply s.statusWord s)

/-- RD IE (R124). -/
def execRdIe (s : State) : Result := .next (reply (BitVec.zeroExtend 32 s.ie) s)

/-- RD SYMCOUNT (R126). -/
def execRdSymcount (s : State) : Result := .next (reply s.symCount s)

/-- RD ROOT (R127). -/
def execRdRoot (s : State) : Result := .next (reply (BitVec.zeroExtend 32 s.root) s)

/-- RD DIN (R129). -/
def execRdDin (s : State) : Result := .next (reply 0 s)

/-- RD DOUT (R130): a valid byte is popped; an empty DOUT reads 0 and nothing changes. -/
def execRdDout (s : State) : Result :=
  if s.doutValid then .next { reply s.doutWord s with doutValid := false, doutData := 0 }
  else .next (reply s.doutWord s)

/-- RD IN_COUNT (R131). -/
def execRdInCount (s : State) : Result := .next (reply s.inCount s)

/-- RD OUT_COUNT (R131). -/
def execRdOutCount (s : State) : Result := .next (reply s.outCount s)

/-- RD FAULT_INFO (R132). -/
def execRdFaultInfo (s : State) : Result := .next (reply (BitVec.zeroExtend 32 s.faultInfo) s)

/-- RD DBG_PACK (R133). -/
def execRdDbgPack (s : State) : Result := .next (reply s.dbgPackWord s)

/-- RD DBG_UNPACK (R133). -/
def execRdDbgUnpack (s : State) : Result := .next (reply s.dbgUnpackWord s)

/-- RD PARAM (R134). -/
def execRdParam (s : State) : Result := .next (reply paramWord s)

end Sys2Proof.Machine
end

