-- ==== Sys2Proof/Machine/RegisterWrites.lean ====
section
/-! DEFINITION. Host writes of the registers other than CTRL (41_register_access.md R124, R125, R127, R128, R140). -/

namespace Sys2Proof.Machine

/-- WR IE (R124): writable in every state. -/
def execWrIe (v : Word) (s : State) : Result := .next { s with ie := ieOperand v }

/-- WR SYMCOUNT (R125). -/
def execWrSymcount (v : Word) (s : State) : Result :=
  .next (configWrite (fun s => { s with symCount := v }) s)

/-- WR ROOT (R127). -/
def execWrRoot (v : Word) (s : State) : Result :=
  .next (configWrite (fun s => { s with root := rootOperand v }) s)

/-- WR DIN (R128): DIN_STATE is checked before DIN_OVERFLOW (60_exceptions.md R252). -/
def execWrDin (v : Word) (s : State) : Result :=
  if !s.accepting then .next (raiseAccessError .dinState s)
  else if s.dinValid then .next (raiseAccessError .dinOverflow s)
  else .next { s with dinData := dinOperand v, dinValid := true }

/-- WR ID (R140): read-only. -/
def execWrId (_v : Word) (s : State) : Result := .next (raiseAccessError .badAddr s)

/-- WR STATUS (R140): read-only. -/
def execWrStatus (_v : Word) (s : State) : Result := .next (raiseAccessError .badAddr s)

/-- WR DOUT (R140): read-only; the write does not pop. -/
def execWrDout (_v : Word) (s : State) : Result := .next (raiseAccessError .badAddr s)

/-- WR IN_COUNT (R140): read-only. -/
def execWrInCount (_v : Word) (s : State) : Result := .next (raiseAccessError .badAddr s)

/-- WR OUT_COUNT (R140): read-only. -/
def execWrOutCount (_v : Word) (s : State) : Result := .next (raiseAccessError .badAddr s)

/-- WR FAULT_INFO (R140): read-only. -/
def execWrFaultInfo (_v : Word) (s : State) : Result := .next (raiseAccessError .badAddr s)

/-- WR DBG_PACK (R140): read-only. -/
def execWrDbgPack (_v : Word) (s : State) : Result := .next (raiseAccessError .badAddr s)

/-- WR DBG_UNPACK (R140): read-only. -/
def execWrDbgUnpack (_v : Word) (s : State) : Result := .next (raiseAccessError .badAddr s)

/-- WR PARAM (R140): read-only. -/
def execWrParam (_v : Word) (s : State) : Result := .next (raiseAccessError .badAddr s)

end Sys2Proof.Machine
end

