-- ==== Sys2Proof/Machine/TableAccess.lean ====
section
/-! DEFINITION. Host accesses of the CODE and NODE tables and of unmapped offsets (41_register_access.md R135 to R139,
R141). -/

namespace Sys2Proof.Machine

/-- WR CODE_LEN (R135): bits 31:8 are ignored. -/
def execWrCodeLen (y : Symbol) (v : Word) (s : State) : Result :=
  .next (configWrite (fun s => { s with mem := s.mem.setCodeLen y (codeLenOperand v) }) s)

/-- WR CODE_W (R136). -/
def execWrCodeW (y : Symbol) (k : Fin 8) (v : Word) (s : State) : Result :=
  .next (configWrite (fun s => { s with mem := s.mem.setCodeW y k.val v }) s)

/-- RD CODE (R137): allowed in every state. -/
def execRdCode (y : Symbol) (j : Fin 9) (s : State) : Result := .next (reply (readCodeWord y j.val s) s)

/-- WR NODE (R138): nothing checks the shape of the tree. -/
def execWrNode (n : Fin 511) (v : Word) (s : State) : Result :=
  .next (configWrite (fun s => { s with mem := s.mem.setNode n.val (nodeOperand v) }) s)

/-- RD NODE (R139): allowed in every state. -/
def execRdNode (n : Fin 511) (s : State) : Result := .next (reply (readNodeWord n.val s) s)

/-- UNMAPPED (R141): a read returns 0, a write raises BAD_ADDR. -/
def execUnmapped (_off : Offset) (use : UnmappedUse) (s : State) : Result :=
  match use with
  | .read => .next (reply 0 s)
  | .write _ => .next (raiseAccessError .badAddr s)

end Sys2Proof.Machine
end

