-- ==== Sys2Proof/Machine/Dispatch.lean ====
section
/-! DEFINITION. The meaning of each instruction: one arm per row of spec/opcode_table.json. -/

namespace Sys2Proof.Machine

def exec (i : Instr) (s : State) : Host.Outcome State Fault Refusal :=
  match i with
  | .nop => Sys2Proof.Machine.execNop s
  | .clear => Sys2Proof.Machine.execClear s
  | .startPack => Sys2Proof.Machine.execStartPack s
  | .startUnpack => Sys2Proof.Machine.execStartUnpack s
  | .flush => Sys2Proof.Machine.execFlush s
  | .clrAerr => Sys2Proof.Machine.execClrAerr s
  | .reserved w => Sys2Proof.Machine.execReserved w s
  | .rdId => Sys2Proof.Machine.execRdId s
  | .rdCtrl => Sys2Proof.Machine.execRdCtrl s
  | .wrCtrl w => Sys2Proof.Machine.execWrCtrl w s
  | .rdStatus => Sys2Proof.Machine.execRdStatus s
  | .rdIe => Sys2Proof.Machine.execRdIe s
  | .wrIe v => Sys2Proof.Machine.execWrIe v s
  | .wrSymcount v => Sys2Proof.Machine.execWrSymcount v s
  | .rdSymcount => Sys2Proof.Machine.execRdSymcount s
  | .rdRoot => Sys2Proof.Machine.execRdRoot s
  | .wrRoot v => Sys2Proof.Machine.execWrRoot v s
  | .wrDin v => Sys2Proof.Machine.execWrDin v s
  | .rdDin => Sys2Proof.Machine.execRdDin s
  | .rdDout => Sys2Proof.Machine.execRdDout s
  | .rdInCount => Sys2Proof.Machine.execRdInCount s
  | .rdOutCount => Sys2Proof.Machine.execRdOutCount s
  | .rdFaultInfo => Sys2Proof.Machine.execRdFaultInfo s
  | .rdDbgPack => Sys2Proof.Machine.execRdDbgPack s
  | .rdDbgUnpack => Sys2Proof.Machine.execRdDbgUnpack s
  | .rdParam => Sys2Proof.Machine.execRdParam s
  | .wrId v => Sys2Proof.Machine.execWrId v s
  | .wrStatus v => Sys2Proof.Machine.execWrStatus v s
  | .wrDout v => Sys2Proof.Machine.execWrDout v s
  | .wrInCount v => Sys2Proof.Machine.execWrInCount v s
  | .wrOutCount v => Sys2Proof.Machine.execWrOutCount v s
  | .wrFaultInfo v => Sys2Proof.Machine.execWrFaultInfo v s
  | .wrDbgPack v => Sys2Proof.Machine.execWrDbgPack v s
  | .wrDbgUnpack v => Sys2Proof.Machine.execWrDbgUnpack v s
  | .wrParam v => Sys2Proof.Machine.execWrParam v s
  | .wrCodeLen y v => Sys2Proof.Machine.execWrCodeLen y v s
  | .wrCodeW y k v => Sys2Proof.Machine.execWrCodeW y k v s
  | .rdCode y j => Sys2Proof.Machine.execRdCode y j s
  | .wrNode n v => Sys2Proof.Machine.execWrNode n v s
  | .rdNode n => Sys2Proof.Machine.execRdNode n s
  | .unmapped off use => Sys2Proof.Machine.execUnmapped off use s

end Sys2Proof.Machine
end

