-- ==== Sys2Proof/Machine/PackEngine.lean ====
section
/-! DEFINITION. The packer's engine steps (43_pack_engine.md R180 to R183): when each is enabled and what it does. -/

namespace Sys2Proof.Machine

/-- When P_TAKE is enabled (R181). -/
def pTakeEnabled (s : State) : Bool := decide (s.mode = .pack) && !s.codeActive && s.dinValid

/-- When P_SHIFT is enabled (R182). -/
def pShiftEnabled (s : State) : Bool :=
  decide (s.mode = .pack) && s.codeActive && (decide (s.accN.toNat < 7) || !s.doutValid)

/-- When P_FLUSH is enabled (R183). -/
def pFlushEnabled (s : State) : Bool :=
  decide (s.mode = .pack) && s.flushReq && !s.codeActive && !s.dinValid && (decide (s.accN = 0) || !s.doutValid)

/-- P_TAKE (R181): the symbol's code length is checked before anything is written, so the fault is precise
(60_exceptions.md R242); an unwritten length is UNINIT (10_state.md R47). -/
def pTake (s : State) : Result :=
  match s.mem.codeLen? s.dinData with
  | none => .fault (.uninit (codeOffset s.dinData 0))
  | some len =>
    if len = 0 then .next (raiseFault .noCode (BitVec.zeroExtend 9 s.dinData) s)
    else .next { takeDin s with curSym := s.dinData, curIdx := 0, codeActive := true }

/-- The bit `b` goes into the output byte, and the 8th bit completes it (R182). -/
def shiftInto (b : Bool) (s : State) : State :=
  if s.accN = 7 then
    { emitOut ((BitVec.zeroExtend 8 s.acc <<< 1) ||| BitVec.zeroExtend 8 (BitVec.ofBool b)) s with acc := 0, accN := 0 }
  else
    { s with acc := (s.acc <<< 1) ||| BitVec.zeroExtend 7 (BitVec.ofBool b), accN := s.accN + 1 }

/-- P_SHIFT (R182): one code bit; the word that holds the bit and the code length are read, and an unwritten one is
UNINIT (10_state.md R47). -/
def pShift (s : State) : Result :=
  match s.mem.codeBit? s.curSym s.curIdx with
  | none => .fault (.uninit (codeOffset s.curSym (s.curIdx.toNat / 32 + 1)))
  | some b =>
    match s.mem.codeLen? s.curSym with
    | none => .fault (.uninit (codeOffset s.curSym 0))
    | some len =>
      let t := shiftInto b s
      let idx := s.curIdx + 1
      .next { t with curIdx := idx, codeActive := if idx = len then false else t.codeActive }

/-- P_FLUSH (R183): the pending bits go to the high end of the last byte, padded with zeros. -/
def pFlush (s : State) : Result :=
  let t :=
    if s.accN = 0 then s
    else { emitOut (BitVec.zeroExtend 8 s.acc <<< (8 - s.accN.toNat)) s with acc := 0, accN := 0 }
  .next { t with mode := .done }

end Sys2Proof.Machine
end

