-- ==== Sys2Proof/Machine/UnpackEngine.lean ====
section
/-! DEFINITION. The unpacker's engine steps (44_unpack_engine.md R200 to R204): when each is enabled and what it
does. -/

namespace Sys2Proof.Machine

/-- When U_LOAD is enabled (R201). -/
def uLoadEnabled (s : State) : Bool := decide (s.mode = .unpack) && decide (s.srN = 0) && s.dinValid

/-- When U_BIT is enabled (R202): DOUT is empty even for a bit that would not emit. -/
def uBitEnabled (s : State) : Bool := decide (s.mode = .unpack) && decide (0 < s.srN.toNat) && !s.doutValid

/-- U_LOAD (R201). -/
def uLoad (s : State) : Result := .next { takeDin s with sr := s.dinData, srN := 8 }

/-- `consume()` (R202). -/
def consume (s : State) : State := { s with sr := s.sr <<< 1, srN := s.srN - 1 }

/-- `finish_unpack()` (R204): the rest of the byte and a byte waiting in DIN are discarded, uncounted. -/
def finishUnpack (s : State) : State :=
  { s with sr := 0, srN := 0, dinValid := false, dinData := 0, mode := .done }

/-- `sym_out(v)` (R202). -/
def symOut (v : Symbol) (s : State) : State :=
  let t := { emitOut v s with symCount := s.symCount - 1, cur := s.root }
  if t.symCount = 0 then finishUnpack t else t

/-- U_BIT (R202, R203): the two faults are precise, since they come before `consume()`; an unwritten entry is UNINIT
(10_state.md R47). -/
def uBit (s : State) : Result :=
  let b := s.sr.getLsbD 7
  match s.mem.node? s.cur.toNat with
  | none => .fault (.uninit (nodeOffset s.cur.toNat))
  | some n =>
    if n.leaf then
      if b then .next (raiseFault .badCode s.cur s)
      else .next (symOut n.sym (consume s))
    else
      let nxt := if b then n.lo else n.hi
      if 510 < nxt.toNat then .next (raiseFault .badNode s.cur s)
      else
        match s.mem.node? nxt.toNat with
        | none => .fault (.uninit (nodeOffset nxt.toNat))
        | some m =>
          if m.leaf then .next (symOut m.sym (consume s))
          else .next { consume s with cur := nxt }

end Sys2Proof.Machine
end

