-- ==== Sys2Proof/Machine/Engine.lean ====
section
/-! DEFINITION. The engine's turn: the one enabled step (43_pack_engine.md R180, 44_unpack_engine.md R200), the reset
event (70_reset_and_hazards.md R270). -/

namespace Sys2Proof.Machine

/-- The engine steps. -/
inductive EngineStep
  | pTake
  | pShift
  | pFlush
  | uLoad
  | uBit
deriving DecidableEq, Repr

/-- Whether a step is enabled: the `enabled when` line of its rule. -/
def EngineStep.enabled (s : State) : EngineStep → Bool
  | .pTake => pTakeEnabled s
  | .pShift => pShiftEnabled s
  | .pFlush => pFlushEnabled s
  | .uLoad => uLoadEnabled s
  | .uBit => uBitEnabled s

/-- The enabled step, if there is one. At most one is (43_pack_engine.md R180, 44_unpack_engine.md R200), so the order
of the tests does not matter. -/
def enabledStep (s : State) : Option EngineStep :=
  if pTakeEnabled s then some .pTake
  else if pShiftEnabled s then some .pShift
  else if pFlushEnabled s then some .pFlush
  else if uLoadEnabled s then some .uLoad
  else if uBitEnabled s then some .uBit
  else none

/-- What a step does. -/
def runEngineStep (e : EngineStep) (s : State) : Result :=
  match e with
  | .pTake => pTake s
  | .pShift => pShift s
  | .pFlush => pFlush s
  | .uLoad => uLoad s
  | .uBit => uBit s

/-- The engine's turn: the enabled step; where none is enabled the engine waits and every element keeps its value
(43_pack_engine.md R184, 60_exceptions.md R259; log entry 2). -/
def engineTurn (s : State) : Result :=
  match enabledStep s with
  | some e => runEngineStep e s
  | none => .next s

/-- The reset event (70_reset_and_hazards.md R270): every element of the block takes its reset value and every table
entry becomes unwritten. What the host has been told and what comes next are not the block's (log entry 15). -/
def resetTurn (s : State) : State :=
  { State.reset with epoch := s.epoch + 1, turns := s.turns, replies := s.replies }

/-- The refusal of an access the decoder refuses (20_memory.md R63). -/
def refusalOf : DecodeError → Refusal
  | .notAWord size => .notAWord size
  | .misaligned off => .misaligned off

/-- The access a table word stands for, put before everything else that is to come: the very next transition
(log entry 14). -/
def placeAccess (a : Access) (s : State) : State := { s with turns := .access a :: s.turns }

end Sys2Proof.Machine
end

