-- ==== Sys2Proof/Machine/Step.lean ====
section
/-! DEFINITION. One transition of the total order (20_memory.md R70). -/

namespace Sys2Proof.Machine

/-- One step: the next turn is a host access, an engine step or a reset. With no turn left the outside does nothing
more, and the turn is the engine's (log entry 1). An access that is not an aligned word has no transition and is
refused (20_memory.md R63). -/
def step (s : State) : Host.Outcome State Fault Refusal :=
  match s.turns with
  | [] => engineTurn s
  | .engine :: ts => engineTurn { s with turns := ts }
  | .reset :: ts => .next (resetTurn { s with turns := ts })
  | .access a :: ts =>
    match decode a with
    | .ok i => exec i { s with turns := ts }
    | .error e => .refused (refusalOf e)

/-- `s` with the access of a table word as its very next turn (log entry 14). -/
def State.withFetchWord (s : State) (nbits w : Nat) : State := placeAccess (tableAccess nbits w) s

end Sys2Proof.Machine
end

