-- ==== Sys2Proof/Machine/BitString.lean ====
section
/-! DEFINITION. Bit strings and bytes (00_scope.md R10, 20_memory.md R65): most significant bit first. -/

namespace Sys2Proof.Machine

/-- The byte of eight bits, the first in bit 7 (20_memory.md R65). -/
def byteOfBits (b7 b6 b5 b4 b3 b2 b1 b0 : Bool) : Byte :=
  BitVec.ofBool b7 ++ BitVec.ofBool b6 ++ BitVec.ofBool b5 ++ BitVec.ofBool b4
    ++ BitVec.ofBool b3 ++ BitVec.ofBool b2 ++ BitVec.ofBool b1 ++ BitVec.ofBool b0

/-- The eight bits of a byte, bit 7 first. -/
def bitsOfByte (b : Byte) : Bits :=
  [b.getLsbD 7, b.getLsbD 6, b.getLsbD 5, b.getLsbD 4, b.getLsbD 3, b.getLsbD 2, b.getLsbD 1, b.getLsbD 0]

/-- `pad8` (R10): the fewest 0 bits that make the length a multiple of 8. -/
def pad8 (x : Bits) : Bits := x ++ List.replicate ((8 - x.length % 8) % 8) false

/-- `bytes_msb` (R10): consecutive groups of 8 bits, each read as one byte. Bits after the last whole group are not
read; R10 asks for none. -/
def bytesMsb : Bits → List Byte
  | b7 :: b6 :: b5 :: b4 :: b3 :: b2 :: b1 :: b0 :: x => byteOfBits b7 b6 b5 b4 b3 b2 b1 b0 :: bytesMsb x
  | _ => []

/-- `bits_msb` (R10): every byte's bits, bit 7 first. -/
def bitsMsb (bs : List Byte) : Bits := bs.flatMap bitsOfByte

end Sys2Proof.Machine
end

