-- ==== Sys2Proof/Machine/HostTables.lean ====
section
/-! DEFINITION. The host-side table algorithms (42_tables.md): frequency analysis, the tree builder, the code deriver,
the table images, and the decoder of the source the unpacker is compared with (44_unpack_engine.md R205). The block
does not run them (00_scope.md R4); they are the reference for what the host loads. -/

namespace Sys2Proof.Machine

/-! ## Frequency analysis -/

/-- A FrequencyTable: symbols and their counts (00_scope.md R12). Counts are exact numbers (log entry 21). -/
abbrev FreqTable := List (Symbol × Nat)

/-- The 256 symbols, ascending. -/
def allSymbols : List Symbol := (List.range 256).map (BitVec.ofNat 8)

/-- Frequency analysis (42_tables.md R151): the symbols that occur, ascending, with their counts. -/
def frequencyTable (input : List Byte) : FreqTable :=
  allSymbols.filterMap fun y => if 0 < input.count y then some (y, input.count y) else none

/-- The invariants of a table for an input of `n` bytes (42_tables.md R152): unique keys, 32-bit counts, a sum of `n`, and
an empty table exactly for an empty input. -/
def FreqTable.valid (n : Nat) (f : FreqTable) : Bool :=
  decide (f.map Prod.fst).Nodup && f.all (fun p => decide (p.2 < 2 ^ 32)) && decide ((f.map Prod.snd).sum = n)
    && decide (f = [] ↔ n = 0)

/-- One pair into a table that ascends by symbol. -/
def insertPair (p : Symbol × Nat) : FreqTable → FreqTable
  | [] => [p]
  | q :: f => if p.1.toNat ≤ q.1.toNat then p :: q :: f else q :: insertPair p f

/-- The leaf seeding order (42_tables.md R153): ascending by symbol, whatever order the header lists its pairs in. -/
def FreqTable.sorted (f : FreqTable) : FreqTable := f.foldr insertPair []

/-! ## The tree builder -/

/-- A node of the tree (00_scope.md R12, row HuffmanTree), its children by insertion sequence. -/
inductive TreeNode
  | leaf (sym : Symbol) (freq : Nat)
  | internal (freq left right : Nat)
deriving DecidableEq, Repr

/-- A built tree: the nodes by insertion sequence, and the root's sequence. -/
structure Tree where
  nodes : List TreeNode
  root : Nat
deriving DecidableEq, Repr

/-- The selection order (42_tables.md R154): by frequency, then by insertion sequence. -/
def selectedBefore (p q : Nat × Nat) : Bool := decide (p.1 < q.1 ∨ (p.1 = q.1 ∧ p.2 ≤ q.2))

/-- One candidate into the working collection, kept in selection order. -/
def insertWork (p : Nat × Nat) : List (Nat × Nat) → List (Nat × Nat)
  | [] => [p]
  | q :: w => if selectedBefore p q then p :: q :: w else q :: insertWork p w

/-- The merge loop (42_tables.md R155): the two least candidates become the left and the right child of the next
node. The fuel bounds the number of merges. -/
def mergeLoop : Nat → List (Nat × Nat) → List TreeNode → List (Nat × Nat) × List TreeNode
  | fuel + 1, (fa, a) :: (fb, b) :: w, nodes =>
    mergeLoop fuel (insertWork (fa + fb, nodes.length) w) (nodes ++ [.internal (fa + fb) a b])
  | _, w, nodes => (w, nodes)

/-- The seeds of the working collection: leaf `j` has its frequency and sequence `j` (42_tables.md R153). -/
def seedWork (f : FreqTable) : List (Nat × Nat) :=
  (f.zipIdx.map fun p => (p.1.2, p.2)).foldr insertWork []

/-- `build_tree` (42_tables.md R155), for a table in any order. -/
def buildTree (f : FreqTable) : Tree :=
  let g := f.sorted
  let done := mergeLoop g.length (seedWork g) (g.map fun p => .leaf p.1 p.2)
  { nodes := done.2, root := (done.1.head?.map Prod.snd).getD 0 }

/-! ## The code deriver -/

/-- The walk of 42_tables.md R161 from node `i` with the path `p`. The fuel bounds the depth. -/
def walkCodes (nodes : List TreeNode) : Nat → Nat → Bits → List (Symbol × Bits)
  | 0, _, _ => []
  | fuel + 1, i, p =>
    match nodes[i]? with
    | some (.leaf y _) => [(y, p)]
    | some (.internal _ l r) => walkCodes nodes fuel l (p ++ [false]) ++ walkCodes nodes fuel r (p ++ [true])
    | none => []

/-- `derive_codes` (42_tables.md R161), with the one-bit code of a lone leaf (R162). -/
def deriveCodes (t : Tree) : List (Symbol × Bits) :=
  match t.nodes[t.root]? with
  | some (.leaf y _) => [(y, [false])]
  | _ => walkCodes t.nodes t.nodes.length t.root []

/-- The code of a symbol in a code table. -/
def codeFor (codes : List (Symbol × Bits)) (y : Symbol) : Option Bits := codes.lookup y

/-- The symbol of a code: the ReverseCodeTable (42_tables.md R164). -/
def symbolFor (codes : List (Symbol × Bits)) (c : Bits) : Option Symbol :=
  (codes.find? fun p => p.2 = c).map Prod.fst

/-! ## The table images -/

/-- The NODE word of a node (42_tables.md R159). -/
def TreeNode.word : TreeNode → Word
  | .leaf y _ => nodeWordLeaf y
  | .internal _ l r => nodeWordInternal (BitVec.ofNat 9 l) (BitVec.ofNat 9 r)

/-- The NODE image (42_tables.md R159): entry `j` is node `j`. -/
def Tree.image (t : Tree) : List Word := t.nodes.map TreeNode.word

/-- The ROOT value (42_tables.md R160). -/
def Tree.rootWord (t : Tree) : Word := BitVec.ofNat 32 t.root

/-- The source's other single-symbol convention, an 8-bit code (42_tables.md R167): the NODE image, whose ROOT is 8.
It is not this spec's convention (R162). -/
def eightBitImage (y : Symbol) : List Word :=
  nodeWordLeaf y :: (List.range 8).map fun k => nodeWordInternal (BitVec.ofNat 9 k) 511

/-- The code of that convention (42_tables.md R167). -/
def eightBitCode : Bits := List.replicate 8 false

/-! ## The two decoders of 44_unpack_engine.md R205 -/

/-- The source's decoder (44_unpack_engine.md, the quotation of §4.4): a candidate grows bit by bit, an exact match
emits the symbol and empties the candidate, and decoding stops after `k` symbols. The answer is the symbols and the
bits not consumed; none when the bits run out first. -/
def candidateDecode (codes : List (Symbol × Bits)) : Nat → Bits → Bits → Option (List Symbol × Bits)
  | 0, _, x => some ([], x)
  | _ + 1, _, [] => none
  | k + 1, cand, b :: x =>
    match symbolFor codes (cand ++ [b]) with
    | some y => (candidateDecode codes k [] x).map fun p => (y :: p.1, p.2)
    | none => candidateDecode codes (k + 1) (cand ++ [b]) x
termination_by structural _ _ x => x

/-- How a walk of the NODE table over a bit string ends. -/
inductive WalkEnd
  /-- The `k` symbols, and the bits not consumed. -/
  | symbols (out : List Symbol) (rest : Bits)
  /-- The bits ran out (44_unpack_engine.md R208). -/
  | short
  /-- BAD_CODE or BAD_NODE (60_exceptions.md R241). -/
  | faulted (c : Bool)
  /-- An entry never written was read (10_state.md R47). -/
  | uninit
deriving DecidableEq, Repr

/-- One more symbol in front. -/
def WalkEnd.cons (y : Symbol) : WalkEnd → WalkEnd
  | .symbols out rest => .symbols (y :: out) rest
  | .short => .short
  | .faulted c => .faulted c
  | .uninit => .uninit

/-- The symbols and the rest, of a walk that ends with all its symbols. -/
def WalkEnd.toOption : WalkEnd → Option (List Symbol × Bits)
  | .symbols out rest => some (out, rest)
  | .short => none
  | .faulted _ => none
  | .uninit => none

/-- What one bit does at entry `cur` (44_unpack_engine.md R202): a symbol, a move, or the end of the walk. -/
inductive BitEffect
  | symbol (y : Symbol)
  | move (n : NodeIdx)
  | badCode
  | badNode
  | uninit
deriving DecidableEq, Repr

/-- The decision of U_BIT on a NODE table (44_unpack_engine.md R202). -/
def bitEffect (node : Nat → Option NodeEntry) (cur : NodeIdx) (b : Bool) : BitEffect :=
  match node cur.toNat with
  | none => .uninit
  | some n =>
    if n.leaf then if b then .badCode else .symbol n.sym
    else
      let nxt := if b then n.lo else n.hi
      if 510 < nxt.toNat then .badNode
      else
        match node nxt.toNat with
        | none => .uninit
        | some m => if m.leaf then .symbol m.sym else .move nxt

/-- The walk of a NODE table over a bit string (44_unpack_engine.md R202, R204, R207): from entry `cur`, until `k`
symbols are out. -/
def treeWalk (node : Nat → Option NodeEntry) (root : NodeIdx) : Nat → NodeIdx → Bits → WalkEnd
  | 0, _, x => .symbols [] x
  | _ + 1, _, [] => .short
  | k + 1, cur, b :: x =>
    match bitEffect node cur b with
    | .symbol y => (treeWalk node root k root x).cons y
    | .move n => treeWalk node root (k + 1) n x
    | .badCode => .faulted true
    | .badNode => .faulted false
    | .uninit => .uninit
termination_by structural _ _ x => x

/-- A NODE table that holds an image: entry `n` is word `n`, and entries past the image are unwritten. -/
def imageTable (image : List Word) (n : Nat) : Option NodeEntry := image[n]?.map NodeEntry.ofWord

end Sys2Proof.Machine
end

