-- ==== Sys2Proof/Machine/HostProgram.lean ====
section
/-! DEFINITION. The host program notation (30_encoding.md R87, R88): one line per host access, a polling loop as one
line that repeats its read; and the host's two procedures as programs and a stream host (45_host_protocol.md R221,
R222). The host is no part of the block; these are the host moves the spec writes down. -/

namespace Sys2Proof.Machine

/-- A line of a host program (30_encoding.md R87), and the loop of WAIT (R88). -/
inductive HostLine
  /-- `WR off, v`. -/
  | wr (off : Offset) (v : Word)
  /-- `RD off`. -/
  | rd (off : Offset)
  /-- `WAIT`: read `off` until bits `lo + width - 1` down to `lo` are `v`. -/
  | wait (off : Offset) (lo width v : Nat)
deriving DecidableEq, Repr

/-- The match word of a command (30_encoding.md R81). -/
def Command.word : Command → Word
  | .nop => 0x00000000
  | .clear => 0x00000001
  | .startPack => 0x00000002
  | .startUnpack => 0x00000003
  | .flush => 0x00000004
  | .clrAerr => 0x00000005
  | .reserved w => w

/-- `CMD` (30_encoding.md R88). -/
def cmdLine (c : Command) : HostLine := .wr Reg.ctrl.offset (Command.word c)

/-- `PUT` (30_encoding.md R88). -/
def putLines (b : Byte) : List HostLine :=
  [.wait Reg.status.offset 16 1 1, .wr Reg.din.offset (BitVec.zeroExtend 32 b)]

/-- `GET` (30_encoding.md R88): the byte is bits 7:0 of the read that ends the loop. -/
def getLine : HostLine := .wait Reg.dout.offset 8 1 1

/-- A write of NODE entry `i` (30_encoding.md R88). -/
def nodeWordLine (i : Nat) (w : Word) : HostLine := .wr (BitVec.ofNat 16 (nodeOffset i)) w

/-- `LEAF` (30_encoding.md R88). -/
def leafLine (i : Nat) (y : Symbol) : HostLine := nodeWordLine i (nodeWordLeaf y)

/-- `NODE` (30_encoding.md R88). -/
def nodeLine (i : Nat) (left right : NodeIdx) : HostLine := nodeWordLine i (nodeWordInternal left right)

/-- `CODE` (30_encoding.md R88). -/
def codeLines (y : Symbol) (c : Bits) : List HostLine :=
  .wr (BitVec.ofNat 16 (codeOffset y 0)) (codeLenWord c)
    :: (List.range ((c.length + 31) / 32)).map fun k => .wr (BitVec.ofNat 16 (codeOffset y (k + 1))) (codeWord c k)

/-- `NOCODE` (30_encoding.md R88). -/
def noCodeLine (y : Symbol) : HostLine := .wr (BitVec.ofNat 16 (codeOffset y 0)) 0

/-- The access a line makes. -/
def HostLine.access : HostLine → Access
  | .wr off v => .wr off 4 v
  | .rd off => .rd off 4
  | .wait off _ _ _ => .rd off 4

/-- Whether a line is over, once the block has answered. -/
def HostLine.over (l : HostLine) (s : State) : Bool :=
  match l with
  | .wr _ _ => true
  | .rd _ => true
  | .wait _ lo width v =>
    match s.replies.getLast? with
    | none => false
    | some t => decide (t.toNat / 2 ^ lo % 2 ^ width = v)

/-- `s` with one turn to take and nothing after it. -/
def State.atTurn (s : State) (t : Turn) : State := { s with turns := [t] }

/-- One transition of a host program beside the block: the host's next access, or the engine's turn (20_memory.md R70).
The result is the block and the lines still to run. -/
def programTurn (hostMoves : Bool) (lines : List HostLine) (s : State) :
    Host.Outcome (State × List HostLine) Fault Refusal :=
  match hostMoves, lines with
  | true, l :: ls =>
    match step (s.atTurn (.access l.access)) with
    | .next t => .next (t, if l.over t then ls else l :: ls)
    | .fault f => .fault f
    | .refused r => .refused r
  | _, _ =>
    match step (s.atTurn .engine) with
    | .next t => .next (t, lines)
    | .fault f => .fault f
    | .refused r => .refused r

/-- A run of a host program under a schedule: at each place of it the host moves (true) or the engine. -/
def runProgram : List Bool → List HostLine → State → Host.Outcome (State × List HostLine) Fault Refusal
  | [], lines, s => .next (s, lines)
  | m :: ms, lines, s =>
    match programTurn m lines s with
    | .next (t, ls) => runProgram ms ls t
    | .fault f => .fault f
    | .refused r => .refused r

/-! ## Loading the tables -/

/-- The CODE image (42_tables.md R163): `CODE` for every symbol that has a code, `NOCODE` for every other one. -/
def codeImageLines (codes : List (Symbol × Bits)) : List HostLine :=
  allSymbols.flatMap fun y =>
    match codeFor codes y with
    | some c => codeLines y c
    | none => [noCodeLine y]

/-- The NODE image and ROOT (42_tables.md R159, R160). -/
def treeImageLines (t : Tree) : List HostLine :=
  (t.image.zipIdx.map fun p => nodeWordLine p.2 p.1) ++ [.wr Reg.root.offset t.rootWord]

/-- Everything before the bytes of a pack run (45_host_protocol.md R221, 70_reset_and_hazards.md R273). -/
def packSetup (f : FreqTable) : List HostLine :=
  codeImageLines (deriveCodes (buildTree f)) ++ [cmdLine .startPack]

/-- Everything before the bytes of an unpack run (45_host_protocol.md R222, 70_reset_and_hazards.md R274). -/
def unpackSetup (f : FreqTable) (k : Word) : List HostLine :=
  treeImageLines (buildTree f) ++ [.wr Reg.symcount.offset k, cmdLine .startUnpack]

/-! ## The streaming part of R221 and R222 -/

/-- Which of the two operations a run is. -/
inductive RunKind
  | pack
  | unpack
deriving DecidableEq, Repr

/-- What the streaming host does next. -/
inductive StreamPhase
  /-- Read DOUT. -/
  | drain
  /-- Read STATUS. -/
  | look
  /-- Write the next byte to DIN. -/
  | feed
  | flush
  /-- Read DBG_UNPACK, to see whether any bit is left in SR (44_unpack_engine.md R208). -/
  | probe
  /-- CLEAR a run that waits for bytes that will not come (45_host_protocol.md R222). -/
  | clear
  /-- Read OUT_COUNT or IN_COUNT. -/
  | count
  | over
deriving DecidableEq, Repr

/-- How a streamed run ended (45_host_protocol.md R222, R223): with the count read at its end, in FAULT, or by CLEAR. -/
inductive StreamEnd
  | completed (count : Word)
  | faulted
  | stalled
deriving DecidableEq, Repr

/-- A host that feeds bytes and drains DOUT (45_host_protocol.md R221, R222): bytes still to give, whether FLUSH has been
issued, whether the block was seen with no bit left, the bytes got so far, and how the run ended. -/
structure StreamHost where
  kind : RunKind
  todo : List Byte
  flushed : Bool
  dry : Bool
  got : List Byte
  phase : StreamPhase
  ended : Option StreamEnd
deriving DecidableEq, Repr

/-- The count the host reads at the end: OUT_COUNT of a pack run (R221), IN_COUNT of an unpack run (R222). -/
def RunKind.countReg : RunKind → Reg
  | .pack => .outCount
  | .unpack => .inCount

/-- A write of a command to CTRL (30_encoding.md R88). -/
def commandAccess (c : Command) : Access := .wr Reg.ctrl.offset 4 (Command.word c)

/-- The host's next access. -/
def StreamHost.access (h : StreamHost) : Option Access :=
  match h.phase with
  | .drain => some Reg.dout.read
  | .look => some Reg.status.read
  | .feed => h.todo.head?.map fun b => Reg.din.write (BitVec.zeroExtend 32 b)
  | .flush => some (commandAccess .flush)
  | .probe => some Reg.dbgUnpack.read
  | .clear => some (commandAccess .clear)
  | .count => some h.kind.countReg.read
  | .over => none

/-- A run that completed or failed: what the host does about it (45_host_protocol.md R223). None while the run goes on
or DOUT still holds a byte. -/
def StreamHost.finish? (h : StreamHost) (status : Word) : Option StreamHost :=
  if status.getLsbD 5 then none
  else if status.extractLsb' 0 3 = 3 then some { h with phase := .count }
  else if status.extractLsb' 0 3 = 4 then some { h with phase := .over, ended := some .faulted }
  else none

/-- An unpack run that asks for bytes the host does not have: UNPACK, DIN and DOUT empty, nothing left to give. -/
def StreamHost.starving (h : StreamHost) (status : Word) : Bool :=
  decide (h.kind = .unpack) && h.todo.isEmpty && decide (status.extractLsb' 0 3 = 2) && !status.getLsbD 4
    && !status.getLsbD 5

/-- What the host does after looking at STATUS: stop when the run is over, give the next byte when DIN_READY is 1, FLUSH
after the last byte of a pack run, end a starving unpack run once no bit is left in SR, else read DOUT again. -/
def StreamHost.act (h : StreamHost) (status : Word) : StreamHost :=
  match h.finish? status with
  | some h' => h'
  | none =>
    if status.getLsbD 16 && !h.todo.isEmpty then { h with phase := .feed }
    else if h.kind = .pack ∧ h.todo = [] ∧ h.flushed = false ∧ status.extractLsb' 0 3 = 1 then
      { h with phase := .flush }
    else if h.starving status then { h with phase := if h.dry then .clear else .probe }
    else { h with phase := .drain }

/-- The host after the block has answered its access with the reply `t`. A dry SR stays dry: DIN was seen empty before
the probe, and no byte is left to give. -/
def StreamHost.receive (h : StreamHost) (t : Word) : StreamHost :=
  match h.phase with
  | .drain => { h with got := if t.getLsbD 8 then h.got ++ [t.extractLsb' 0 8] else h.got, phase := .look }
  | .look => h.act t
  | .feed => { h with todo := h.todo.tail, phase := .drain }
  | .flush => { h with flushed := true, phase := .drain }
  | .probe => { h with dry := decide (t.extractLsb' 8 4 = 0), phase := .drain }
  | .clear => { h with phase := .over, ended := some .stalled }
  | .count => { h with phase := .over, ended := some (.completed t) }
  | .over => h

/-- The streaming host of a pack run (45_host_protocol.md R221). -/
def packHost (input : List Byte) : StreamHost :=
  { kind := .pack, todo := input, flushed := false, dry := false, got := [], phase := .drain, ended := none }

/-- The streaming host of an unpack run (45_host_protocol.md R222). -/
def unpackHost (payload : List Byte) : StreamHost :=
  { kind := .unpack, todo := payload, flushed := false, dry := false, got := [], phase := .drain, ended := none }

end Sys2Proof.Machine
end

