-- ==== Sys2Proof/Machine/Runs.lean ====
section
/-! DEFINITION. Runs of the block under a list of turns, and what the host sees of one: the bytes DIN accepted and the
bytes read from DOUT (45_host_protocol.md R223). -/

namespace Sys2Proof.Machine

/-- The byte a turn gives to DIN, when DIN accepts it (41_register_access.md R128). -/
def fedBy (t : Turn) (s : State) : List Byte :=
  match t with
  | .access a =>
    match decode a with
    | .ok (.wrDin v) => if s.dinReady then [dinOperand v] else []
    | _ => []
  | .engine => []
  | .reset => []

/-- The byte a turn takes from DOUT, when one is there (41_register_access.md R130). -/
def gotBy (t : Turn) (s : State) : List Byte :=
  match t with
  | .access a =>
    match decode a with
    | .ok .rdDout => if s.doutValid then [s.doutData] else []
    | _ => []
  | .engine => []
  | .reset => []

/-- What the host sees of a run: the bytes accepted and the bytes read, in order. -/
structure Transcript where
  fed : List Byte
  got : List Byte
deriving DecidableEq, Repr

/-- The run of a list of turns, with its transcript; none when a step stops. -/
def runTurns : List Turn → State → Option (State × Transcript)
  | [], s => some (s, { fed := [], got := [] })
  | t :: ts, s =>
    match step (s.atTurn t) with
    | .next s' =>
      (runTurns ts s').map fun r => (r.1, { fed := fedBy t s ++ r.2.fed, got := gotBy t s ++ r.2.got })
    | .fault _ => none
    | .refused _ => none

/-- The accesses a host makes within a run: every one but those that end a run, start another, or change the
configuration (45_host_protocol.md R220). -/
def withinRun (i : Instr) : Bool :=
  match i with
  | .clear | .startPack | .startUnpack => false
  | .wrCtrl w => decide (decodeCmd w ≠ .clear ∧ decodeCmd w ≠ .startPack ∧ decodeCmd w ≠ .startUnpack)
  | .wrSymcount _ | .wrRoot _ | .wrCodeLen _ _ | .wrCodeW _ _ _ | .wrNode _ _ => false
  | .nop | .flush | .clrAerr | .reserved _ => true
  | .rdId | .rdCtrl | .rdStatus | .rdIe | .rdSymcount | .rdRoot | .rdDin | .rdDout => true
  | .rdInCount | .rdOutCount | .rdFaultInfo | .rdDbgPack | .rdDbgUnpack | .rdParam => true
  | .wrIe _ | .wrDin _ => true
  | .wrId _ | .wrStatus _ | .wrDout _ | .wrInCount _ | .wrOutCount _ => true
  | .wrFaultInfo _ | .wrDbgPack _ | .wrDbgUnpack _ | .wrParam _ => true
  | .rdCode _ _ | .rdNode _ | .unmapped _ _ => true

/-- A turn within a run: an engine step, or an access of `withinRun`; no reset. -/
def turnWithinRun (t : Turn) : Bool :=
  match t with
  | .engine => true
  | .reset => false
  | .access a =>
    match decode a with
    | .ok i => withinRun i
    | .error _ => false

/-! ## The end of a run -/

/-- The run completed (45_host_protocol.md R223). -/
def State.runCompleted (s : State) : Bool := decide (s.mode = .done) && !s.doutValid

/-- The run failed (45_host_protocol.md R223). -/
def State.runFailed (s : State) : Bool := decide (s.mode = .fault)

/-- The run is over (45_host_protocol.md R223). -/
def State.runOver (s : State) : Bool := s.runCompleted || s.runFailed

/-- A measure of what the engine can still do by itself: every enabled step makes it less (70_reset_and_hazards.md
R281). -/
def engineWork (s : State) : Nat :=
  match s.mode with
  | .pack =>
    (if s.codeActive then ((s.mem.codeLen? s.curSym).getD 0).toNat - s.curIdx.toNat else 0)
      + (if s.dinValid then 257 else 0) + 1
  | .unpack => s.srN.toNat + (if s.dinValid then 9 else 0)
  | .idle => 0
  | .done => 0
  | .fault => 0

end Sys2Proof.Machine
end

