-- ==== Sys2Proof/Machine/HostDuty.lean ====
section
/-! DEFINITION. The host's duties (45_host_protocol.md R220): what a host owes the block, and the runs of a host that keeps
them. A host that breaks one has no move there. `step` itself keeps the effect of every access, since the access rules
state it (log entry 16). -/

namespace Sys2Proof.Machine

/-- An operation a host has to run: the symbols or packed bytes it gives to DIN, in order. -/
structure Operation where
  kind : RunKind
  bytes : List Byte
deriving DecidableEq, Repr

/-- What the host has done and has still to do: the operations to come, strictly in order (45_host_protocol.md R229), the
one in progress with its bytes not yet accepted, and whether STATUS has shown DIN_READY since the last DIN write
(70_reset_and_hazards.md R275). -/
structure HostSession where
  waiting : List Operation
  current : Option Operation
  sawReady : Bool
deriving DecidableEq, Repr

/-- The payload of an unpack run holds at least ceil(L/8) bytes: the walk over it does not run out of bits before the last
symbol (44_unpack_engine.md R208, R209). DESIGN CHOICE: R209 gives L only for a valid run, and where there is none the
same test stands, so a walk that ends with the bits (a cyclic NODE image, ROOT = 511 with no byte) breaks the duty, and
one that faults or reads an unwritten entry does not (log entry 30). -/
def enoughPayload (s : State) (payload : List Byte) : Bool :=
  decide (treeWalk (fun n => s.mem.node? n) s.root s.symCount.toNat s.root (bitsMsb payload) ≠ .short)

/-- What the next operation needs of its payload. -/
def Operation.enough (o : Operation) (s : State) : Bool :=
  match o.kind with
  | .pack => true
  | .unpack => enoughPayload s o.bytes

/-- The host may start its next operation: it is of this kind, no other run is in progress, the block is in IDLE or DONE
with DOUT read empty (45_host_protocol.md R220, 70_reset_and_hazards.md R273, R276), and its payload is long enough. -/
def HostSession.mayStart (h : HostSession) (kind : RunKind) (s : State) : Bool :=
  match h.waiting with
  | [] => false
  | o :: _ =>
    decide (o.kind = kind) && (h.current.isNone || s.runOver) && decide (s.mode = .idle ∨ s.mode = .done)
      && !s.doutValid && o.enough s

/-- The host may end the input: the run in progress is a pack run and its last symbol is accepted. -/
def HostSession.mayFlush (h : HostSession) : Bool := decide (h.current = some { kind := .pack, bytes := [] })

/-- The host may give this byte: STATUS has shown DIN_READY, and it is the next byte of the run in progress. -/
def HostSession.mayFeed (h : HostSession) (b : Byte) : Bool :=
  h.sawReady && decide ((h.current.bind fun o => o.bytes.head?) = some b)

/-- The "host must" and "host may" columns of 45_host_protocol.md R220 for a command. -/
def HostSession.mayCommand (h : HostSession) (c : Command) (s : State) : Bool :=
  match c with
  | .startPack => h.mayStart .pack s
  | .startUnpack => h.mayStart .unpack s
  | .flush => h.mayFlush
  | .nop | .clear | .clrAerr | .reserved _ => true

/-- The "host must" and "host may" columns of 45_host_protocol.md R220 for one access: configuration only when not busy,
IE and every read at any time. -/
def HostSession.may (h : HostSession) (i : Instr) (s : State) : Bool :=
  match i with
  | .nop => h.mayCommand .nop s
  | .clear => h.mayCommand .clear s
  | .startPack => h.mayCommand .startPack s
  | .startUnpack => h.mayCommand .startUnpack s
  | .flush => h.mayCommand .flush s
  | .clrAerr => h.mayCommand .clrAerr s
  | .reserved w => h.mayCommand (.reserved w) s
  | .wrCtrl w => h.mayCommand (decodeCmd w) s
  | .wrDin v => h.mayFeed (dinOperand v)
  | .wrSymcount _ | .wrRoot _ | .wrCodeLen _ _ | .wrCodeW _ _ _ | .wrNode _ _ => !s.busy
  | .rdId | .rdCtrl | .rdStatus | .rdIe | .rdSymcount | .rdRoot | .rdDin | .rdDout => true
  | .rdInCount | .rdOutCount | .rdFaultInfo | .rdDbgPack | .rdDbgUnpack | .rdParam => true
  | .wrIe _ | .wrId _ | .wrStatus _ | .wrDout _ | .wrInCount _ | .wrOutCount _ => true
  | .wrFaultInfo _ | .wrDbgPack _ | .wrDbgUnpack _ | .wrParam _ => true
  | .rdCode _ _ | .rdNode _ | .unmapped _ _ => true

/-- The session after a START: the next operation is in progress. -/
def HostSession.started (h : HostSession) : HostSession :=
  { waiting := h.waiting.tail, current := h.waiting.head?, sawReady := false }

/-- The session with no operation in progress: after CLEAR, which aborts, or a reset. -/
def HostSession.aborted (h : HostSession) : HostSession := { h with current := none, sawReady := false }

/-- The session after a command. -/
def HostSession.afterCommand (h : HostSession) (c : Command) : HostSession :=
  match c with
  | .startPack | .startUnpack => h.started
  | .clear => h.aborted
  | .flush => { h with sawReady := false }
  | .nop | .clrAerr | .reserved _ => h

/-- The session after a write of DIN: an accepted byte is given, a refused one is not. -/
def HostSession.fed (h : HostSession) (s : State) : HostSession :=
  { h with
    sawReady := false
    current := if s.dinReady then h.current.map fun o => { o with bytes := o.bytes.tail } else h.current }

/-- The session after an access made in state `s`. -/
def HostSession.after (h : HostSession) (i : Instr) (s : State) : HostSession :=
  match i with
  | .nop => h.afterCommand .nop
  | .clear => h.afterCommand .clear
  | .startPack => h.afterCommand .startPack
  | .startUnpack => h.afterCommand .startUnpack
  | .flush => h.afterCommand .flush
  | .clrAerr => h.afterCommand .clrAerr
  | .reserved w => h.afterCommand (.reserved w)
  | .wrCtrl w => h.afterCommand (decodeCmd w)
  | .wrDin _ => h.fed s
  | .rdStatus => { h with sawReady := s.dinReady }
  | .wrSymcount _ | .wrRoot _ | .wrCodeLen _ _ | .wrCodeW _ _ _ | .wrNode _ _ => h
  | .rdId | .rdCtrl | .rdIe | .rdSymcount | .rdRoot | .rdDin | .rdDout => h
  | .rdInCount | .rdOutCount | .rdFaultInfo | .rdDbgPack | .rdDbgUnpack | .rdParam => h
  | .wrIe _ | .wrId _ | .wrStatus _ | .wrDout _ | .wrInCount _ | .wrOutCount _ => h
  | .wrFaultInfo _ | .wrDbgPack _ | .wrDbgUnpack _ | .wrParam _ => h
  | .rdCode _ _ | .rdNode _ | .unmapped _ _ => h

/-- The session after a turn, when the host has that move: none when the turn breaks a duty (45_host_protocol.md R220,
92_eei_decisions.md D42). An access the block does not take (20_memory.md R63) is no move either. -/
def dutyAfter (t : Turn) (h : HostSession) (s : State) : Option HostSession :=
  match t with
  | .engine => some h
  | .reset => some h.aborted
  | .access a =>
    match decode a with
    | .ok i => if h.may i s then some (h.after i s) else none
    | .error _ => none

/-- One transition of the block beside a host that keeps its duties; none when the turn breaks one. -/
def dutifulTurn (t : Turn) (h : HostSession) (s : State) : Option (Host.Outcome (HostSession × State) Fault Refusal) :=
  (dutyAfter t h s).map fun h' =>
    match step (s.atTurn t) with
    | .next s' => .next (h', s')
    | .fault f => .fault f
    | .refused r => .refused r

/-- The run of a list of turns of a host that keeps its duties; none when a turn breaks one or a step stops. -/
def runDutiful : List Turn → HostSession → State → Option (HostSession × State)
  | [], h, s => some (h, s)
  | t :: ts, h, s =>
    match dutifulTurn t h s with
    | some (.next (h', s')) => runDutiful ts h' s'
    | some (.fault _) | some (.refused _) | none => none

/-- What is still owed (45_host_protocol.md R220, the rows feed, end of input and drain): an operation to run, or a run in
progress that the host has not fed, flushed and drained to its end (R223). A whole run of a host that keeps its duties
ends with nothing owed. -/
def HostSession.owes (h : HostSession) (s : State) : Bool :=
  !h.waiting.isEmpty || (h.current.isSome && !s.runOver)

end Sys2Proof.Machine
end

