-- ==== Sys2Proof/Machine/HostContainer.lean ====
section
/-! DEFINITION. The host's containers (45_host_protocol.md R224 to R230): the single-file container, the directory
archive, and the header checks. The block makes only the packed bits (00_scope.md R4). -/

namespace Sys2Proof.Machine

/-- A big-endian 4-byte unsigned integer (20_memory.md R66). -/
def u32be (n : Nat) : List Byte :=
  let w := BitVec.ofNat 32 n
  [w.extractLsb' 24 8, w.extractLsb' 16 8, w.extractLsb' 8 8, w.extractLsb' 0 8]

/-- Read a big-endian 4-byte unsigned integer. -/
def readU32 : List Byte → Option (Nat × List Byte)
  | b3 :: b2 :: b1 :: b0 :: rest => some ((b3 ++ b2 ++ b1 ++ b0 : BitVec 32).toNat, rest)
  | _ => none

/-- Why the host ends an operation without its result (45_host_protocol.md R227, the row Failed). -/
inductive HostError
  /-- A header check fails, or the payload is shorter than the header says (R222, R228). -/
  | malformedHeader
  /-- The block's run ends in FAULT. -/
  | failedRun
deriving DecidableEq, Repr

/-! ## The packed payload -/

/-- The packed payload of an input under a code table (00_scope.md R12, 43_pack_engine.md R185). -/
def packedPayload (codes : List (Symbol × Bits)) (input : List Byte) : List Byte :=
  bytesMsb (pad8 (input.flatMap fun y => (codeFor codes y).getD []))

/-- The code table the host builds for an input (45_host_protocol.md R221). -/
def codesOf (f : FreqTable) : List (Symbol × Bits) := deriveCodes (buildTree f)

/-- The payload unpacked for `k` symbols with the tree of `f` (45_host_protocol.md R222). -/
def unpackPayload (f : FreqTable) (k : Nat) (payload : List Byte) : Except HostError (List Byte) :=
  let t := buildTree f
  let root := BitVec.ofNat 9 t.root
  match treeWalk (imageTable t.image) root k root (bitsMsb payload) with
  | .symbols out _ => .ok out
  | .short => .error .malformedHeader
  | .faulted _ => .error .failedRun
  | .uninit => .error .failedRun

/-! ## The single-file container -/

/-- The header (45_host_protocol.md R224): the length, the number of pairs, the pairs in ascending symbol order
(R230). -/
def headerBytes (n : Nat) (f : FreqTable) : List Byte :=
  u32be n ++ u32be f.length ++ f.flatMap fun p => p.1 :: u32be p.2

/-- The container of an input (45_host_protocol.md R221, R224, R225). -/
def compressContainer (input : List Byte) : List Byte :=
  if input = [] then u32be 0
  else
    let f := frequencyTable input
    headerBytes input.length f ++ packedPayload (codesOf f) input

/-- `count` pairs of a header. -/
def readPairs : Nat → List Byte → Option (FreqTable × List Byte)
  | 0, bs => some ([], bs)
  | _ + 1, [] => none
  | n + 1, y :: bs =>
    match readU32 bs with
    | none => none
    | some (c, bs') => (readPairs n bs').map fun r => ((y, c) :: r.1, r.2)

/-- Parse and check a header (45_host_protocol.md R228): the length, the table, and the bytes after the header. A length
of 0 ends the header (R225). -/
def parseHeader (bs : List Byte) : Except HostError (Nat × FreqTable × List Byte) :=
  match readU32 bs with
  | none => .error .malformedHeader
  | some (n, bs1) =>
    if n = 0 then .ok (0, [], bs1)
    else
      match readU32 bs1 with
      | none => .error .malformedHeader
      | some (leaves, bs2) =>
        if 256 < leaves ∨ leaves = 0 ∨ bs2.length < 5 * leaves then .error .malformedHeader
        else
          match readPairs leaves bs2 with
          | none => .error .malformedHeader
          | some (f, rest) => if f.valid n then .ok (n, f, rest) else .error .malformedHeader

/-- Decompress a container (45_host_protocol.md R222, R224): the payload runs to the end of the container. -/
def decompressContainer (bs : List Byte) : Except HostError (List Byte) :=
  match parseHeader bs with
  | .error e => .error e
  | .ok (n, f, payload) => if n = 0 then .ok [] else unpackPayload f n payload

/-! ## The directory archive -/

/-- The layout of an empty file inside an archive, which the spec leaves open (91_not_in_source.md N12,
93_implementation_defined.md I13): a parameter of the archive functions (log entry 22). -/
inductive EmptyLayout
  /-- Only `original_length`. -/
  | lengthOnly
  /-- `original_length`, `leaf_count` and `packed_payload_len`, all 0. -/
  | fullHeader
deriving DecidableEq, Repr

/-- An archive: the root's name, the directories' names, and the files' names and contents in manifest order. -/
structure Archive where
  root : List Byte
  dirs : List (List Byte)
  files : List (List Byte × List Byte)
deriving DecidableEq, Repr

/-- A name with its length. -/
def nameBytes (name : List Byte) : List Byte := u32be name.length ++ name

/-- An empty file of an archive. -/
def emptyFileBytes : EmptyLayout → List Byte
  | .lengthOnly => u32be 0
  | .fullHeader => u32be 0 ++ u32be 0 ++ u32be 0

/-- A file of an archive whose payload the block has packed: `packed_payload_len` stands after the pairs, directly before
the packed bits (45_host_protocol.md R226, 90_conflicts.md C5). -/
def fileWith (content payload : List Byte) (payloadLen : Nat) : List Byte :=
  headerBytes content.length (frequencyTable content) ++ u32be payloadLen ++ payload

/-- One file of an archive (45_host_protocol.md R226). The payload's length is OUT_COUNT at the end of its run
(43_pack_engine.md R185, R186). -/
def fileBytes (layout : EmptyLayout) (content : List Byte) : List Byte :=
  if content = [] then emptyFileBytes layout
  else
    let payload := packedPayload (codesOf (frequencyTable content)) content
    fileWith content payload payload.length

/-- The archive's bytes (45_host_protocol.md R226). -/
def archiveBytes (layout : EmptyLayout) (a : Archive) : List Byte :=
  nameBytes a.root ++ u32be a.dirs.length ++ u32be a.files.length
    ++ a.dirs.flatMap nameBytes ++ (a.files.flatMap fun p => nameBytes p.1)
    ++ a.files.flatMap fun p => fileBytes layout p.2

/-- Read a name. -/
def readName (bs : List Byte) : Option (List Byte × List Byte) :=
  match readU32 bs with
  | none => none
  | some (n, rest) => if rest.length < n then none else some (rest.take n, rest.drop n)

/-- Read `n` names. -/
def readNames : Nat → List Byte → Option (List (List Byte) × List Byte)
  | 0, bs => some ([], bs)
  | n + 1, bs =>
    match readName bs with
    | none => none
    | some (name, rest) => (readNames n rest).map fun r => (name :: r.1, r.2)

/-- Read what follows the length of an empty file. In the full layout its leaf count is 0, since a table is empty exactly
for an empty input (42_tables.md R152), and so is its payload length, since a run of no symbols packs no byte
(40_commands.md R105); another header is malformed (45_host_protocol.md R228). -/
def skipEmpty (layout : EmptyLayout) (bs : List Byte) : Except HostError (List Byte) :=
  match layout with
  | .lengthOnly => .ok bs
  | .fullHeader =>
    match readU32 bs with
    | none => .error .malformedHeader
    | some (leaves, bs1) =>
      match readU32 bs1 with
      | none => .error .malformedHeader
      | some (len, rest) => if leaves = 0 ∧ len = 0 then .ok rest else .error .malformedHeader

/-- The parts of one file: its length, table and payload, and the bytes after it (45_host_protocol.md R226, R228). -/
structure FileParts where
  length : Nat
  table : FreqTable
  payload : List Byte
  rest : List Byte
deriving DecidableEq, Repr

/-- Parse and check one file's header, and cut out exactly `packed_payload_len` bytes (45_host_protocol.md R226, R228). -/
def fileParts (layout : EmptyLayout) (bs : List Byte) : Except HostError FileParts :=
  match parseHeader bs with
  | .error e => .error e
  | .ok (n, f, rest) =>
    if n = 0 then (skipEmpty layout rest).map fun rest' => { length := 0, table := [], payload := [], rest := rest' }
    else
      match readU32 rest with
      | none => .error .malformedHeader
      | some (len, body) =>
        if body.length < len then .error .malformedHeader
        else .ok { length := n, table := f, payload := body.take len, rest := body.drop len }

/-- Decode one file, and move the running offset past it (45_host_protocol.md R226). -/
def readFile (layout : EmptyLayout) (bs : List Byte) : Except HostError (List Byte × List Byte) :=
  match fileParts layout bs with
  | .error e => .error e
  | .ok p =>
    if p.length = 0 then .ok ([], p.rest)
    else (unpackPayload p.table p.length p.payload).map fun content => (content, p.rest)

/-- Decode the files named in a manifest, strictly in its order (45_host_protocol.md R229). -/
def readFiles (layout : EmptyLayout) : List (List Byte) → List Byte → Except HostError (List (List Byte × List Byte))
  | [], _ => .ok []
  | name :: names, bs =>
    match readFile layout bs with
    | .error e => .error e
    | .ok (content, rest) =>
      match readFiles layout names rest with
      | .error e => .error e
      | .ok files => .ok ((name, content) :: files)

/-- Decode an archive (45_host_protocol.md R226). -/
def readArchive (layout : EmptyLayout) (bs : List Byte) : Except HostError Archive :=
  match readName bs with
  | none => .error .malformedHeader
  | some (root, bs1) =>
    match readU32 bs1 with
    | none => .error .malformedHeader
    | some (nd, bs2) =>
      match readU32 bs2 with
      | none => .error .malformedHeader
      | some (nf, bs3) =>
        match readNames nd bs3 with
        | none => .error .malformedHeader
        | some (dirs, bs4) =>
          match readNames nf bs4 with
          | none => .error .malformedHeader
          | some (names, bs5) =>
            match readFiles layout names bs5 with
            | .error e => .error e
            | .ok files => .ok { root := root, dirs := dirs, files := files }

end Sys2Proof.Machine
end

