-- ==== Sys2Proof/Machine/HostProcedure.lean ====
section
/-! DEFINITION. The host's procedures from beginning to end (45_host_protocol.md R221, R222, R226): the header check, the
tables, the run on the block, the count read at its end, and the answer; and the states of the source's machine (R227). -/

namespace Sys2Proof.Machine

/-! ## Jobs and what they ask of the block -/

/-- What the host is asked for: one single-file container, or one file of an archive, in either direction. -/
inductive Job
  | compress (input : List Byte)
  | compressFile (layout : EmptyLayout) (content : List Byte)
  | decompress (container : List Byte)
  | decompressFile (layout : EmptyLayout) (bytes : List Byte)
deriving DecidableEq, Repr

/-- What a job gives: its bytes, and the count read from the block, `payload_len` (R221) or `consumed` (R222). -/
structure HostAnswer where
  bytes : List Byte
  count : Word
deriving DecidableEq, Repr

/-- A run on the block: the accesses that load the tables and start it, and the host that streams it. -/
structure Plan where
  setup : List HostLine
  stream : StreamHost
deriving DecidableEq, Repr

/-- What a job opens with: an answer that needs no block (45_host_protocol.md R225), or a run. -/
inductive Opening
  | answer (a : HostAnswer)
  | run (p : Plan)
deriving DecidableEq, Repr

/-- The pack run of an input (45_host_protocol.md R221). -/
def packPlan (input : List Byte) : Plan :=
  { setup := packSetup (frequencyTable input), stream := packHost input }

/-- The unpack run of `n` symbols (45_host_protocol.md R222). -/
def unpackPlan (n : Nat) (f : FreqTable) (payload : List Byte) : Plan :=
  { setup := unpackSetup f (BitVec.ofNat 32 n), stream := unpackHost payload }

/-- The decompression of a checked header: nothing for an empty file (45_host_protocol.md R222, R225). -/
def unpackOpening (n : Nat) (f : FreqTable) (payload : List Byte) : Opening :=
  if n = 0 then .answer { bytes := [], count := 0 } else .run (unpackPlan n f payload)

/-- The first part of a procedure, before the block is programmed: frequency analysis, or the header checks of
45_host_protocol.md R228. -/
def Job.opening : Job → Except HostError Opening
  | .compress input => .ok (if input = [] then .answer { bytes := u32be 0, count := 0 } else .run (packPlan input))
  | .compressFile layout content =>
    .ok (if content = [] then .answer { bytes := emptyFileBytes layout, count := 0 } else .run (packPlan content))
  | .decompress container => (parseHeader container).map fun r => unpackOpening r.1 r.2.1 r.2.2
  | .decompressFile layout bytes => (fileParts layout bytes).map fun p => unpackOpening p.length p.table p.payload

/-- The answer of a job whose run completed: the bytes got from DOUT, in their container when the job compresses. The
payload length of an archive is the count OUT_COUNT (45_host_protocol.md R226). -/
def Job.answer (job : Job) (got : List Byte) (count : Word) : HostAnswer :=
  match job with
  | .compress input => { bytes := headerBytes input.length (frequencyTable input) ++ got, count := count }
  | .compressFile _ content => { bytes := fileWith content got count.toNat, count := count }
  | .decompress _ => { bytes := got, count := count }
  | .decompressFile _ _ => { bytes := got, count := count }

/-- The result of a job by the way its run ended: FAULT fails it, and a payload too short for its header is
MalformedHeader (45_host_protocol.md R222). -/
def Job.result (job : Job) (got : List Byte) : StreamEnd → Except HostError HostAnswer
  | .completed count => .ok (job.answer got count)
  | .faulted => .error .failedRun
  | .stalled => .error .malformedHeader

/-! ## A procedure beside the block -/

/-- Where a procedure is. -/
inductive Stage
  | idle
  /-- Read and check the header, or analyse the input. -/
  | header
  /-- Look at STATUS, before the block is programmed (70_reset_and_hazards.md R273, R274). -/
  | ready (p : Plan)
  /-- Read DOUT empty before a START (45_host_protocol.md R220). -/
  | emptying (p : Plan)
  /-- CLEAR a block that is not in IDLE or DONE (70_reset_and_hazards.md R273). -/
  | clearing (p : Plan)
  /-- Load the tables and start the run. -/
  | load (lines : List HostLine) (stream : StreamHost)
  | stream (h : StreamHost)
  | ended (r : Except HostError HostAnswer)
deriving DecidableEq, Repr

/-- A procedure: its job and where it is. -/
structure Procedure where
  job : Job
  stage : Stage
deriving DecidableEq, Repr

/-- A procedure that has not begun. -/
def Job.procedure (job : Job) : Procedure := { job := job, stage := .idle }

/-- What the host does by itself, with no access of the block, if it does anything. -/
def Procedure.think (p : Procedure) : Option Stage :=
  match p.stage with
  | .idle => some .header
  | .header =>
    match p.job.opening with
    | .error e => some (.ended (.error e))
    | .ok (.answer a) => some (.ended (.ok a))
    | .ok (.run plan) => some (.ready plan)
  | .load [] stream => some (.stream stream)
  | .stream h => h.ended.map fun e => .ended (p.job.result h.got e)
  | .load (_ :: _) _ => none
  | .ready _ | .emptying _ | .clearing _ | .ended _ => none

/-- The host's next access of the block. -/
def Procedure.access (p : Procedure) : Option Access :=
  match p.stage with
  | .ready _ => some Reg.status.read
  | .emptying _ => some Reg.dout.read
  | .clearing _ => some (commandAccess .clear)
  | .load lines _ => lines.head?.map HostLine.access
  | .stream h => h.access
  | .idle | .header | .ended _ => none

/-- What the host does with the STATUS it sees before it programs the block. -/
def readyAct (p : Plan) (status : Word) : Stage :=
  if status.extractLsb' 0 3 = 0 ∨ status.extractLsb' 0 3 = 3 then
    if status.getLsbD 5 then .emptying p else .load p.setup p.stream
  else .clearing p

/-- The procedure after the block has answered its access, with the block in state `s`. -/
def Procedure.receive (p : Procedure) (s : State) : Procedure :=
  let t := s.replies.getLastD 0
  match p.stage with
  | .ready plan => { p with stage := readyAct plan t }
  | .emptying plan => { p with stage := .ready plan }
  | .clearing plan => { p with stage := .load plan.setup plan.stream }
  | .load (l :: ls) stream => { p with stage := .load (if l.over s then ls else l :: ls) stream }
  | .stream h => { p with stage := .stream (h.receive t) }
  | .load [] _ | .idle | .header | .ended _ => p

/-- One transition of a procedure beside the block: what the host does by itself, its next access, or the engine's turn
(20_memory.md R70). -/
def procedureTurn (hostMoves : Bool) (p : Procedure) (s : State) : Host.Outcome (Procedure × State) Fault Refusal :=
  match hostMoves, p.think, p.access with
  | true, some stage, _ => .next ({ p with stage := stage }, s)
  | true, none, some a =>
    match step (s.atTurn (.access a)) with
    | .next t => .next (p.receive t, t)
    | .fault f => .fault f
    | .refused r => .refused r
  | _, _, _ =>
    match step (s.atTurn .engine) with
    | .next t => .next (p, t)
    | .fault f => .fault f
    | .refused r => .refused r

/-- A run of a procedure under a schedule: at each place of it the host moves (true) or the engine. -/
def runProcedure : List Bool → Procedure → State → Host.Outcome (Procedure × State) Fault Refusal
  | [], p, s => .next (p, s)
  | m :: ms, p, s =>
    match procedureTurn m p s with
    | .next (p', t) => runProcedure ms p' t
    | .fault f => .fault f
    | .refused r => .refused r

/-! ## The source's machine -/

/-- The states of the source's machine (45_host_protocol.md R227). -/
inductive SourceState
  | idle
  | headerRead
  | treeRebuild
  | unpack
  | done
  | failed
deriving DecidableEq, Repr

/-- The states that may come next: `Idle → HeaderRead → TreeRebuild → Unpack → Done`, with Failed by a header
inconsistency, by FAULT, or by a stalled run (45_host_protocol.md R227). An empty file goes from its header to Done, since
the later stages are skipped (R225; log entry 29). -/
def SourceState.next : SourceState → List SourceState
  | .idle => [.headerRead]
  | .headerRead => [.treeRebuild, .done, .failed]
  | .treeRebuild => [.unpack]
  | .unpack => [.done, .failed]
  | .done => []
  | .failed => []

/-- Whether a job is one of the source's machine, which decodes. -/
def Job.decodes : Job → Bool
  | .compress _ => false
  | .compressFile _ _ => false
  | .decompress _ => true
  | .decompressFile _ _ => true

/-- The source's state of a block whose run the host is streaming. Done needs DOUT drained. -/
def streamSourceState (s : State) : Option SourceState :=
  match s.mode with
  | .unpack => some .unpack
  | .done => if s.doutValid then none else some .done
  | .fault => some .failed
  | .idle => none
  | .pack => none

/-- The map of 45_host_protocol.md R227, for a job that decodes. A block in DONE from an earlier run is Idle until the
host begins, and a stalled run that the host has ended with CLEAR is Failed. None in the states R227 does not name: DONE
with a byte still in DOUT, and a block not in IDLE or DONE before the host begins. -/
def Procedure.sourceState (p : Procedure) (s : State) : Option SourceState :=
  if p.job.decodes then
    match p.stage with
    | .idle => if s.mode = .idle ∨ s.mode = .done then some .idle else none
    | .header => some .headerRead
    | .ready _ | .emptying _ | .clearing _ => some .treeRebuild
    | .load (_ :: _) _ => some .treeRebuild
    | .load [] _ => streamSourceState s
    | .stream h => if h.ended = some .stalled then some .failed else streamSourceState s
    | .ended (.ok _) => some .done
    | .ended (.error _) => some .failed
  else none

end Sys2Proof.Machine
end

