-- ==== Sys2Proof/Machine/Progress.lean ====
section
/-! DEFINITION. Progress (70_reset_and_hazards.md R284): endless runs, weak fairness of the engine, and the duties of
45_host_protocol.md R220 that ask the host for a move. -/

namespace Sys2Proof.Machine

/-! ## The engine left alone -/

/-- `n` engine turns with nothing between them (70_reset_and_hazards.md R281). -/
def engineAlone : Nat → State → Result
  | 0, s => .next s
  | n + 1, s =>
    match engineTurn s with
    | .next t => engineAlone n t
    | .fault f => .fault f
    | .refused r => .refused r

/-! ## Weak fairness -/

/-- Weak fairness of the engine (R284): a step that stays enabled is eventually taken. At most one step is enabled
(43_pack_engine.md R180, 44_unpack_engine.md R200), so an engine's turn takes it. A condition on a run, and no guard of
`step` (log entry 17). -/
def WeaklyFair (state : Nat → State) (engineMoves : Nat → Bool) : Prop :=
  ∀ (x : EngineStep) (n : Nat),
    (∀ m, n ≤ m → x.enabled (state m) = true) → ∃ m, n ≤ m ∧ engineMoves m = true

/-! ## The duties that ask for a move -/

/-- The command an access performs (40_commands.md R100). -/
def commandOf (i : Instr) : Option Command :=
  match i with
  | .nop => some .nop
  | .clear => some .clear
  | .startPack => some .startPack
  | .startUnpack => some .startUnpack
  | .flush => some .flush
  | .clrAerr => some .clrAerr
  | .reserved w => some (.reserved w)
  | .wrCtrl w => some (decodeCmd w)
  | .wrSymcount _ | .wrRoot _ | .wrCodeLen _ _ | .wrCodeW _ _ _ | .wrNode _ _ => none
  | .rdId | .rdCtrl | .rdStatus | .rdIe | .rdSymcount | .rdRoot | .rdDin | .rdDout => none
  | .rdInCount | .rdOutCount | .rdFaultInfo | .rdDbgPack | .rdDbgUnpack | .rdParam => none
  | .wrIe _ | .wrDin _ | .wrId _ | .wrStatus _ | .wrDout _ | .wrInCount _ | .wrOutCount _ => none
  | .wrFaultInfo _ | .wrDbgPack _ | .wrDbgUnpack _ | .wrParam _ => none
  | .rdCode _ _ | .rdNode _ | .unmapped _ _ => none

/-- The command a turn performs. -/
def turnCommand (t : Turn) : Option Command :=
  match t with
  | .access a =>
    match decode a with
    | .ok i => commandOf i
    | .error _ => none
  | .engine => none
  | .reset => none

/-- A turn that takes the run in progress away: CLEAR (45_host_protocol.md R220, row abort) or a reset. -/
def abortsRun (t : Turn) : Bool := decide (t = .reset ∨ turnCommand t = some .clear)

/-- The duties of 45_host_protocol.md R220 that ask the host for a move within a run. -/
inductive Duty
  /-- Give the payload or the symbols. -/
  | feed
  /-- FLUSH after the last symbol is accepted. -/
  | endInput
  /-- Read DOUT until the end of the run. -/
  | drain
deriving DecidableEq, Repr

/-- The host owes this move, and could make it: a byte left to give while DIN is ready, FLUSH while a pack run has its
last symbol, a read while DOUT holds a byte of a run that is not over. -/
def Duty.owed (h : HostSession) (s : State) : Duty → Bool
  | .feed => s.dinReady && (h.current.bind fun o => o.bytes.head?).isSome
  | .endInput => h.mayFlush && decide (s.mode = .pack) && !s.flushReq
  | .drain => h.current.isSome && s.doutValid && !s.runOver

/-- The turn makes the move. -/
def Duty.paid (t : Turn) (s : State) : Duty → Bool
  | .feed => !(fedBy t s).isEmpty
  | .endInput => decide (turnCommand t = some .flush)
  | .drain => !(gotBy t s).isEmpty

/-! ## Endless runs -/

/-- An endless run of the block beside a host: at each transition the turn, what the host has to do, and the block. -/
structure Execution where
  turn : Nat → Turn
  session : Nat → HostSession
  state : Nat → State

/-- Each transition is a move of a host that breaks no duty, or the engine's turn, or a reset: the run is that of
`runDutiful`, without end. -/
def Execution.Dutiful (e : Execution) : Prop :=
  ∀ n, dutifulTurn (e.turn n) (e.session n) (e.state n) = some (.next (e.session (n + 1), e.state (n + 1)))

/-- The host keeps the duties of 45_host_protocol.md R220: it makes no move that breaks one, and a move that stays owed is
eventually made. It may pause for any time, and has no other fairness duty (R284). -/
def Execution.KeepsDuties (e : Execution) : Prop :=
  e.Dutiful ∧
    ∀ (d : Duty) (n : Nat),
      (∀ m, n ≤ m → d.owed (e.session m) (e.state m) = true) → ∃ m, n ≤ m ∧ d.paid (e.turn m) (e.state m) = true

/-- The engine is weakly fair in the run. -/
def Execution.WeaklyFair (e : Execution) : Prop :=
  Machine.WeaklyFair e.state fun n => decide (e.turn n = .engine)

/-- The run begins with this START of this operation, and is aborted only when it is completed, if at all. -/
def Execution.Runs (e : Execution) (start : Command) (o : Operation) : Prop :=
  turnCommand (e.turn 0) = some start ∧ (e.session 0).waiting.head? = some o ∧
    ∀ n, abortsRun (e.turn n) = true → ∃ m, 0 < m ∧ m ≤ n ∧ (e.state m).runCompleted = true

/-- The run reaches DONE, with DOUT read out (45_host_protocol.md R223). -/
def Execution.ReachesDone (e : Execution) : Prop := ∃ n, 0 < n ∧ (e.state n).runCompleted = true

/-! ## Endless runs of a procedure -/

/-- Whether the next transition of a procedure is the engine's turn: the host does not move, or has nothing to do. -/
def Procedure.engineMoves (p : Procedure) (hostMoves : Bool) : Bool :=
  !(hostMoves && (p.think.isSome || p.access.isSome))

/-- An endless run of a procedure beside the block. -/
structure ProcedureExecution where
  hostMoves : Nat → Bool
  procedure : Nat → Procedure
  state : Nat → State

/-- Each transition is one of `procedureTurn`. -/
def ProcedureExecution.Runs (e : ProcedureExecution) : Prop :=
  ∀ n, procedureTurn (e.hostMoves n) (e.procedure n) (e.state n) = .next (e.procedure (n + 1), e.state (n + 1))

/-- The engine is weakly fair, and the host keeps going: that is all its duties ask, since a procedure makes no move but
those of R221 and R222. -/
def ProcedureExecution.Fair (e : ProcedureExecution) : Prop :=
  WeaklyFair e.state (fun n => (e.procedure n).engineMoves (e.hostMoves n)) ∧
    ∀ n, ∃ m, n ≤ m ∧ e.hostMoves m = true

/-- The procedure comes to its answer. -/
def ProcedureExecution.Ends (e : ProcedureExecution) : Prop := ∃ n r, (e.procedure n).stage = .ended r

end Sys2Proof.Machine
end

