-- ==== Sys2Proof/Safety.lean ====
section
/-! DEFINITION. The terms claims use: the invariant of the machine. The end of a run is in Machine/Runs.lean, the host's
duties in Machine/HostDuty.lean, the source's states in Machine/HostProcedure.lean,
progress in Machine/Progress.lean. -/

namespace Sys2Proof.Machine

/-! ## The invariant -/

/-- While a code is being shifted, its length is written and the next bit is within it (10_state.md R26, R45). -/
def activeCodeOk (s : State) : Bool :=
  match s.mem.codeLen? s.curSym with
  | some len => decide (s.curIdx.toNat < len.toNat)
  | none => false

/-- `CUR` holds ROOT or the index of a written Internal entry (44_unpack_engine.md R202). -/
def traversalOk (s : State) : Bool :=
  decide (s.cur = s.root) ||
    match s.mem.node? s.cur.toNat with
    | some e => !e.leaf
    | none => false

/-- What every reachable state keeps. -/
structure State.Inv (s : State) : Prop where
  /-- The memory is in its canonical form. -/
  memCanonical : s.mem.wf = true
  /-- Only offsets of CODE and NODE words have storage (10_state.md R45, R46). -/
  memStored : (s.mem.all fun c => Memory.storedAt c.1) = true
  /-- The bits of ACC at and above ACC_N are 0 (10_state.md R26). -/
  accPadding : s.acc.toNat < 2 ^ s.accN.toNat
  /-- SR_N is 0..8 (10_state.md R27). -/
  srCount : s.srN.toNat ≤ 8
  /-- SR has bits only in UNPACK, or in FAULT, where a fault leaves them (60_exceptions.md R242). -/
  srMode : s.srN ≠ 0 → s.mode = .unpack ∨ s.mode = .fault
  /-- An empty DIN holds 0. -/
  dinEmpty : s.dinValid = false → s.dinData = 0
  /-- An empty DOUT holds 0. -/
  doutEmpty : s.doutValid = false → s.doutData = 0
  /-- DIN holds a byte only during a run, or in FAULT (60_exceptions.md R242). -/
  dinMode : s.dinValid = true → s.mode = .pack ∨ s.mode = .unpack ∨ s.mode = .fault
  /-- A code is active only in PACK, and within its length. -/
  codeMode : s.codeActive = true → s.mode = .pack ∧ activeCodeOk s = true
  /-- FLUSH_REQ is set only by a pack run (10_state.md R23). -/
  flushMode : s.flushReq = true → s.mode = .pack ∨ s.mode = .done ∨ s.mode = .fault
  /-- SYMCOUNT is at least 1 throughout UNPACK (44_unpack_engine.md R202). -/
  unpackCount : s.mode = .unpack → s.symCount ≠ 0
  /-- ROOT and CUR are entries throughout UNPACK, and CUR is ROOT or Internal (44_unpack_engine.md R202). -/
  unpackCur : s.mode = .unpack → s.root.toNat ≤ 510 ∧ s.cur.toNat ≤ 510 ∧ traversalOk s = true
  /-- A cause is recorded exactly in FAULT (60_exceptions.md R243, R245). -/
  faultCause : s.mode = .fault ↔ s.faultCause ≠ .none
  /-- FAULT_INFO is 0 whenever FAULT_CAUSE is 0 (41_register_access.md R132). -/
  faultInfo : s.faultCause = .none → s.faultInfo = 0
  /-- AERR is set exactly when a cause is recorded (60_exceptions.md R247). -/
  aerrCause : s.aerr = true ↔ s.aerrCause ≠ .none
  /-- In IDLE the datapath is empty (10_state.md R51, 40_commands.md R102). -/
  idleEmpty : s.mode = .idle → clearDatapath s = s

end Sys2Proof.Machine
end

