-- ==== Sys2Proof/Certificates/Slice0/Obligations.lean ====
section
/-! DEFINITION. The statements for the provers. Each docstring names the rule of spec/ it formalises. -/

open Sys2Proof Sys2Proof.Machine

/-! ## Encoding -/

/-- R81: each assigned command is the decoding of exactly one word, so every bit takes part in the match, and every
other word (R83) is RESERVED. -/
def Obligations.EachCommandHasOneWord : Prop :=
  ∀ w : Word,
    (decodeCmd w = .nop ↔ w = 0x00000000) ∧
    (decodeCmd w = .clear ↔ w = 0x00000001) ∧
    (decodeCmd w = .startPack ↔ w = 0x00000002) ∧
    (decodeCmd w = .startUnpack ↔ w = 0x00000003) ∧
    (decodeCmd w = .flush ↔ w = 0x00000004) ∧
    (decodeCmd w = .clrAerr ↔ w = 0x00000005) ∧
    (decodeCmd w = .reserved w ↔ w.extractLsb' 8 24 ≠ 0 ∨ 0x06 ≤ (w.extractLsb' 0 8).toNat)

/-- Words and offsets written out from R81, R31, R45 and R46 decode to the instruction they stand for. -/
def Obligations.WrittenOutWordsDecode : Prop :=
  decode (.cmd 0x00000002) = .ok .startPack ∧
  decode (.cmd 0x00000102) = .ok (.reserved 0x00000102) ∧
  decode (.wr 0x0004 4 0x00000002) = .ok (.wrCtrl 0x00000002) ∧
  decode (.rd 0x0008 4) = .ok .rdStatus ∧
  decode (.wr 0x0018 4 0x00000141) = .ok (.wrDin 0x00000141) ∧
  decode (.rd 0x001C 4) = .ok .rdDout ∧
  decode (.wr 0x2040 4 0x00000001) = .ok (.wrCodeLen 0x41 0x00000001) ∧
  decode (.wr 0x2084 4 0xC0000000) = .ok (.wrCodeW 0x42 0 0xC0000000) ∧
  decode (.rd 0x4FE0 4) = .ok (.rdCode 0xFF 8) ∧
  decode (.wr 0x800C 4 0x00020001) = .ok (.wrNode 3 0x00020001) ∧
  decode (.rd 0x87F8 4) = .ok (.rdNode 510) ∧
  decode (.rd 0x87FC 4) = .ok (.unmapped 0x87FC .read)

/-- Decoding the encoding of any well-formed instruction gives the instruction back, with every operand. -/
def Obligations.DecodeAfterEncode : Prop :=
  ∀ i : Instr, i.wellFormed = true → decode (encode i) = .ok i

/-- Every access the decoder accepts is the encoding of the well-formed instruction it decodes to, so no reserved operand
gets through. That a command word and a write of CTRL are two accesses, with one effect, is the model's choice (log entry
12). -/
def Obligations.EncodeAfterDecode : Prop :=
  ∀ (a : Access) (i : Instr), decode a = .ok i → i.wellFormed = true ∧ encode i = a

/-- R69: an aligned offset is unmapped, for reads and for writes, exactly in the four ranges. -/
def Obligations.UnmappedRanges : Prop :=
  ∀ off : Offset, off.toNat % 4 = 0 →
    ((0x038 ≤ off.toNat ∧ off.toNat ≤ 0x0FFC) ∨
        (∃ y : Symbol, 0x1000 + 0x40 * y.toNat + 0x24 ≤ off.toNat ∧ off.toNat ≤ 0x1000 + 0x40 * y.toNat + 0x3C) ∨
        (0x5000 ≤ off.toNat ∧ off.toNat ≤ 0x7FFC) ∨ (0x87FC ≤ off.toNat ∧ off.toNat ≤ 0xFFFC) ↔
      decode (.rd off 4) = .ok (.unmapped off .read)) ∧
    (decode (.rd off 4) = .ok (.unmapped off .read) ↔
      ∀ v : Word, decode (.wr off 4 v) = .ok (.unmapped off (.write v)))

/-- R63: an access that is not an aligned 32-bit word is refused, read or write; every aligned word access has a
transition. -/
def Obligations.OnlyAlignedWordsAreTaken : Prop :=
  ∀ (s : State) (ts : List Turn) (off : Offset) (size : Nat) (v : Word) (a : Access),
    (a = .rd off size ∨ a = .wr off size v) → s.turns = .access a :: ts →
    ((size ≠ 4 ∨ off.toNat % 4 ≠ 0) → ∃ r, step s = .refused r) ∧
    (size = 4 → off.toNat % 4 = 0 → ∃ t, step s = .next t)

/-! ## The step -/

/-- R70: a step is one transition. A host access runs the instruction it decodes to, an engine turn is the engine's, a
reset turn is the reset; with no turn left the engine moves (that last clause is the model's choice, log entry 1). -/
def Obligations.StepRunsTheNextTurn : Prop :=
  ∀ (s : State) (ts : List Turn),
    (∀ (a : Access) (i : Instr), s.turns = .access a :: ts → decode a = .ok i →
      step s = exec i { s with turns := ts }) ∧
    (s.turns = .engine :: ts → step s = engineTurn { s with turns := ts }) ∧
    (s.turns = .reset :: ts → step s = .next (resetTurn { s with turns := ts })) ∧
    (s.turns = [] → step s = engineTurn s)

/-- Every instruction of the table answers a next state, in every state (R120, R247: a refused access is a next state
too). -/
def Obligations.EveryAccessCompletes : Prop :=
  ∀ (i : Instr) (s : State), ∃ t, exec i s = .next t

/-! ## Commands -/

/-- R32: a write of CTRL performs the command its word decodes to, and a read of CTRL returns 0. -/
def Obligations.CtrlPerformsAndReadsZero : Prop :=
  ∀ (s : State) (w : Word),
    (∃ t, exec (.wrCtrl w) s = .next t ∧ exec (decodeCmd w).toInstr s = .next t) ∧
    exec .rdCtrl s = .next { s with replies := s.replies ++ [0x00000000] }

/-- R101, R106, R107: in every state NOP changes nothing, CLR_AERR clears the access-error record and nothing else, and a
RESERVED word only records CMD_RESERVED. -/
def Obligations.NopClrAerrAndReserved : Prop :=
  ∀ (s : State) (w : Word),
    exec .nop s = .next s ∧
    exec .clrAerr s = .next { s with aerr := false, aerrCause := .none } ∧
    exec (.reserved w) s = .next { s with
      aerr := true, aerrCause := if s.aerr then s.aerrCause else .cmdReserved }

/-- R102: CLEAR, in every state: the datapath, the holding registers, the counters and both error records are cleared,
STATE is IDLE, and everything else is kept. -/
def Obligations.ClearResetsTheEngine : Prop :=
  ∀ s : State, exec .clear s = .next { s with
    mode := .idle
    flushReq := false, dinValid := false, dinData := 0, doutValid := false, doutData := 0
    acc := 0, accN := 0, codeActive := false, curSym := 0, curIdx := 0
    sr := 0, srN := 0, cur := 0, inCount := 0, outCount := 0
    aerr := false, aerrCause := .none, faultCause := .none, faultInfo := 0 }

/-- R103: START_PACK from IDLE or DONE empties the datapath and enters PACK; from any other state it only records
CMD_STATE. -/
def Obligations.StartPackBeginsOrRefuses : Prop :=
  ∀ s : State,
    ((s.mode = .idle ∨ s.mode = .done) → exec .startPack s = .next { s with
      mode := .pack
      flushReq := false, dinValid := false, dinData := 0, doutValid := false, doutData := 0
      acc := 0, accN := 0, codeActive := false, curSym := 0, curIdx := 0
      sr := 0, srN := 0, cur := 0, inCount := 0, outCount := 0 }) ∧
    ((s.mode = .pack ∨ s.mode = .unpack ∨ s.mode = .fault) → exec .startPack s = .next { s with
      aerr := true, aerrCause := if s.aerr then s.aerrCause else .cmdState })

/-- R104: START_UNPACK from IDLE or DONE empties the datapath, then goes to DONE when SYMCOUNT is 0, else faults
BAD_NODE when ROOT is 511, else enters UNPACK at ROOT; from any other state it only records CMD_STATE. -/
def Obligations.StartUnpackBeginsFaultsOrRefuses : Prop :=
  ∀ s : State,
    ((s.mode = .idle ∨ s.mode = .done) → s.symCount = 0 → exec .startUnpack s = .next { s with
      mode := .done
      flushReq := false, dinValid := false, dinData := 0, doutValid := false, doutData := 0
      acc := 0, accN := 0, codeActive := false, curSym := 0, curIdx := 0
      sr := 0, srN := 0, cur := 0, inCount := 0, outCount := 0 }) ∧
    ((s.mode = .idle ∨ s.mode = .done) → s.symCount ≠ 0 → s.root = 511 → exec .startUnpack s = .next { s with
      mode := .fault, faultCause := .badNode, faultInfo := 511
      flushReq := false, dinValid := false, dinData := 0, doutValid := false, doutData := 0
      acc := 0, accN := 0, codeActive := false, curSym := 0, curIdx := 0
      sr := 0, srN := 0, cur := 0, inCount := 0, outCount := 0 }) ∧
    ((s.mode = .idle ∨ s.mode = .done) → s.symCount ≠ 0 → s.root ≠ 511 → exec .startUnpack s = .next { s with
      mode := .unpack
      flushReq := false, dinValid := false, dinData := 0, doutValid := false, doutData := 0
      acc := 0, accN := 0, codeActive := false, curSym := 0, curIdx := 0
      sr := 0, srN := 0, cur := s.root, inCount := 0, outCount := 0 }) ∧
    ((s.mode = .pack ∨ s.mode = .unpack ∨ s.mode = .fault) → exec .startUnpack s = .next { s with
      aerr := true, aerrCause := if s.aerr then s.aerrCause else .cmdState })

/-- R105: FLUSH in PACK sets FLUSH_REQ; in every other state it only records CMD_STATE. -/
def Obligations.FlushMarksOrRefuses : Prop :=
  ∀ s : State,
    (s.mode = .pack → exec .flush s = .next { s with flushReq := true }) ∧
    (s.mode ≠ .pack → exec .flush s = .next { s with
      aerr := true, aerrCause := if s.aerr then s.aerrCause else .cmdState })

/-! ## Register reads -/

/-- R39, R40, R41, R121, R126, R129, R134: ID, DIN and PARAM read as constants, the counters read whole, and FAULT_INFO
reads in bits 8:0 with bits 31:9 zero, in every state; nothing else changes. -/
def Obligations.ConstantAndCounterReads : Prop :=
  ∀ s : State,
    exec .rdId s = .next { s with replies := s.replies ++ [0x48425055] } ∧
    exec .rdDin s = .next { s with replies := s.replies ++ [0x00000000] } ∧
    exec .rdParam s = .next { s with replies := s.replies ++ [0x01FF00FF] } ∧
    exec .rdSymcount s = .next { s with replies := s.replies ++ [s.symCount] } ∧
    exec .rdInCount s = .next { s with replies := s.replies ++ [s.inCount] } ∧
    exec .rdOutCount s = .next { s with replies := s.replies ++ [s.outCount] } ∧
    ∃ v : Word, exec .rdFaultInfo s = .next { s with replies := s.replies ++ [v] } ∧
      v.extractLsb' 0 9 = s.faultInfo ∧ v.extractLsb' 9 23 = 0

/-- R33: STATUS reads field by field as the state it is a view of, and nothing changes; after reset it is 0. The causes
read as the codes of 60_exceptions.md R246 and R241. -/
def Obligations.StatusReadsEveryField : Prop :=
  State.reset.statusWord = 0x00000000 ∧
  (AerrCause.code .none = 0 ∧ AerrCause.code .cmdReserved = 1 ∧ AerrCause.code .cmdState = 2 ∧
    AerrCause.code .dinOverflow = 3 ∧ AerrCause.code .dinState = 4 ∧ AerrCause.code .cfgBusy = 5 ∧
    AerrCause.code .badAddr = 6) ∧
  (FaultCause.code .none = 0 ∧ FaultCause.code .noCode = 1 ∧ FaultCause.code .badNode = 2 ∧
    FaultCause.code .badCode = 3) ∧
  ∀ s : State, ∃ v : Word, exec .rdStatus s = .next { s with replies := s.replies ++ [v] } ∧
    v.extractLsb' 0 3 = s.mode.code ∧
    v.getLsbD 3 = s.flushReq ∧ v.getLsbD 4 = s.dinValid ∧ v.getLsbD 5 = s.doutValid ∧ v.getLsbD 6 = s.aerr ∧
    v.getLsbD 7 = s.irq ∧
    v.extractLsb' 8 4 = s.aerrCause.code ∧ v.extractLsb' 12 4 = s.faultCause.code ∧
    (v.getLsbD 16 = true ↔
      s.dinValid = false ∧ (s.mode = .unpack ∨ (s.mode = .pack ∧ s.flushReq = false))) ∧
    v.extractLsb' 17 15 = 0

/-- R42, R43: the debug registers read field by field as the datapath, and nothing changes. -/
def Obligations.DebugReadsEveryField : Prop :=
  ∀ s : State,
    (∃ v : Word, exec .rdDbgPack s = .next { s with replies := s.replies ++ [v] } ∧
      v.extractLsb' 0 3 = s.accN ∧ v.getLsbD 3 = s.codeActive ∧ v.extractLsb' 4 7 = s.acc ∧
      v.extractLsb' 11 5 = 0 ∧ v.extractLsb' 16 8 = s.curSym ∧ v.extractLsb' 24 8 = s.curIdx) ∧
    (∃ v : Word, exec .rdDbgUnpack s = .next { s with replies := s.replies ++ [v] } ∧
      v.extractLsb' 0 8 = s.sr ∧ v.extractLsb' 8 4 = s.srN ∧ v.extractLsb' 12 4 = 0 ∧
      v.extractLsb' 16 9 = s.cur ∧ v.extractLsb' 25 7 = 0)

/-- R130: a read of DOUT takes the byte that is there, with bit 8 set; a read of an empty DOUT returns 0 and changes
nothing. -/
def Obligations.DoutReadPops : Prop :=
  ∀ s : State,
    (s.doutValid = true → exec .rdDout s = .next { s with
      doutValid := false, doutData := 0
      replies := s.replies ++ [0x00000100 ||| BitVec.zeroExtend 32 s.doutData] }) ∧
    (s.doutValid = false → exec .rdDout s = .next { s with replies := s.replies ++ [0x00000000] })

/-- R67: every read but one of DOUT changes nothing, and read again at once it returns the same value, whatever the
value of an unwritten table word is (log entry 5). -/
def Obligations.ReadsRepeat : Prop :=
  ∀ (i : Instr) (s : State),
    (i ∈ [Instr.rdId, .rdCtrl, .rdStatus, .rdIe, .rdSymcount, .rdRoot, .rdDin, .rdInCount, .rdOutCount, .rdFaultInfo,
        .rdDbgPack, .rdDbgUnpack, .rdParam] ∨
      (∃ y j, i = .rdCode y j) ∨ (∃ n, i = .rdNode n) ∨ (∃ off, i = .unmapped off .read)) →
    ∃ v : Word, exec i s = .next { s with replies := s.replies ++ [v] } ∧
      exec i { s with replies := s.replies ++ [v] } = .next { s with replies := s.replies ++ [v] ++ [v] }

/-- R48: irq is the OR of the five enabled conditions. -/
def Obligations.IrqIsTheEnabledConditions : Prop :=
  ∀ s : State, s.irq = true ↔
    (s.ie.getLsbD 0 = true ∧ s.mode = .done) ∨ (s.ie.getLsbD 1 = true ∧ s.mode = .fault) ∨
    (s.ie.getLsbD 2 = true ∧ s.aerr = true) ∨ (s.ie.getLsbD 3 = true ∧ s.doutValid = true) ∨
    (s.ie.getLsbD 4 = true ∧ s.dinValid = false ∧
      (s.mode = .unpack ∨ (s.mode = .pack ∧ s.flushReq = false)))

/-! ## Register writes -/

/-- R124: a write of IE stores bits 4:0 and changes nothing else, in every state; a read returns them, with bits 31:5
zero. -/
def Obligations.IeStoresFiveBits : Prop :=
  ∀ (s : State) (v : Word),
    exec (.wrIe v) s = .next { s with ie := v.extractLsb' 0 5 } ∧
    ∃ r : Word, exec .rdIe s = .next { s with replies := s.replies ++ [r] } ∧
      r.extractLsb' 0 5 = s.ie ∧ r.extractLsb' 5 27 = 0

/-- R125: a write of SYMCOUNT stores the word, or, while busy, only records CFG_BUSY. -/
def Obligations.SymcountStoresOrRefuses : Prop :=
  ∀ (s : State) (v : Word),
    ((s.mode = .idle ∨ s.mode = .done ∨ s.mode = .fault) → exec (.wrSymcount v) s = .next { s with symCount := v }) ∧
    ((s.mode = .pack ∨ s.mode = .unpack) → exec (.wrSymcount v) s = .next { s with
      aerr := true, aerrCause := if s.aerr then s.aerrCause else .cfgBusy })

/-- R127: a write of ROOT stores bits 8:0, or, while busy, only records CFG_BUSY; a read returns them, with bits 31:9
zero. -/
def Obligations.RootStoresNineBitsOrRefuses : Prop :=
  ∀ (s : State) (v : Word),
    ((s.mode = .idle ∨ s.mode = .done ∨ s.mode = .fault) →
      exec (.wrRoot v) s = .next { s with root := v.extractLsb' 0 9 }) ∧
    ((s.mode = .pack ∨ s.mode = .unpack) → exec (.wrRoot v) s = .next { s with
      aerr := true, aerrCause := if s.aerr then s.aerrCause else .cfgBusy }) ∧
    ∃ r : Word, exec .rdRoot s = .next { s with replies := s.replies ++ [r] } ∧
      r.extractLsb' 0 9 = s.root ∧ r.extractLsb' 9 23 = 0

/-- R128: a write of DIN outside an accepting state only records DIN_STATE; in an accepting state it records
DIN_OVERFLOW when DIN is full, and else loads bits 7:0. -/
def Obligations.DinLoadsOrRefuses : Prop :=
  ∀ (s : State) (v : Word),
    (¬ (s.mode = .unpack ∨ (s.mode = .pack ∧ s.flushReq = false)) → exec (.wrDin v) s = .next { s with
      aerr := true, aerrCause := if s.aerr then s.aerrCause else .dinState }) ∧
    ((s.mode = .unpack ∨ (s.mode = .pack ∧ s.flushReq = false)) → s.dinValid = true →
      exec (.wrDin v) s = .next { s with
        aerr := true, aerrCause := if s.aerr then s.aerrCause else .dinOverflow }) ∧
    ((s.mode = .unpack ∨ (s.mode = .pack ∧ s.flushReq = false)) → s.dinValid = false →
      exec (.wrDin v) s = .next { s with dinData := v.extractLsb' 0 8, dinValid := true })

/-- R140: a write of a read-only register only records BAD_ADDR, in every state. -/
def Obligations.ReadOnlyWritesAreRecorded : Prop :=
  ∀ (s : State) (v : Word) (i : Instr),
    i ∈ [Instr.wrId v, .wrStatus v, .wrDout v, .wrInCount v, .wrOutCount v, .wrFaultInfo v, .wrDbgPack v,
      .wrDbgUnpack v, .wrParam v] →
    exec i s = .next { s with aerr := true, aerrCause := if s.aerr then s.aerrCause else .badAddr }

/-- R141: a read of an unmapped offset returns 0, a write only records BAD_ADDR, in every state. -/
def Obligations.UnmappedReadsZeroAndRefusesWrites : Prop :=
  ∀ (s : State) (off : Offset) (v : Word),
    exec (.unmapped off .read) s = .next { s with replies := s.replies ++ [0x00000000] } ∧
    exec (.unmapped off (.write v)) s = .next { s with
      aerr := true, aerrCause := if s.aerr then s.aerrCause else .badAddr }

/-! ## Tables -/

/-- R135: a write of a LEN word, when not busy, stores bits 7:0 as CODE_LEN of that symbol and changes no other byte and
no other element; while busy it only records CFG_BUSY. -/
def Obligations.CodeLenWriteStoresOneByte : Prop :=
  ∀ (s : State) (y : Symbol) (v : Word),
    ((s.mode = .idle ∨ s.mode = .done ∨ s.mode = .fault) →
      ∃ m : Memory, exec (.wrCodeLen y v) s = .next { s with mem := m } ∧
        m.codeLen? y = some (v.extractLsb' 0 8) ∧
        ∀ a : Nat, a ≠ 0x1000 + 0x40 * y.toNat → m.readByte a = s.mem.readByte a) ∧
    ((s.mode = .pack ∨ s.mode = .unpack) → exec (.wrCodeLen y v) s = .next { s with
      aerr := true, aerrCause := if s.aerr then s.aerrCause else .cfgBusy })

/-- R136: a write of a W word, when not busy, stores it and changes no byte outside it and no other element; while busy
it only records CFG_BUSY. -/
def Obligations.CodeWordWriteStoresOneWord : Prop :=
  ∀ (s : State) (y : Symbol) (k : Fin 8) (v : Word),
    ((s.mode = .idle ∨ s.mode = .done ∨ s.mode = .fault) →
      ∃ m : Memory, exec (.wrCodeW y k v) s = .next { s with mem := m } ∧
        m.codeW? y k.val = some v ∧
        ∀ a : Nat, a < codeOffset y (k.val + 1) ∨ codeOffset y (k.val + 1) + 4 ≤ a →
          m.readByte a = s.mem.readByte a) ∧
    ((s.mode = .pack ∨ s.mode = .unpack) → exec (.wrCodeW y k v) s = .next { s with
      aerr := true, aerrCause := if s.aerr then s.aerrCause else .cfgBusy })

/-- R138: a write of a NODE word, when not busy, stores its LEAF, HI and LO fields and changes no byte outside that word
and no other element; while busy it only records CFG_BUSY. -/
def Obligations.NodeWriteStoresThreeFields : Prop :=
  ∀ (s : State) (n : Fin 511) (v : Word),
    ((s.mode = .idle ∨ s.mode = .done ∨ s.mode = .fault) →
      ∃ m : Memory, exec (.wrNode n v) s = .next { s with mem := m } ∧
        m.node? n.val = some { leaf := v.getLsbD 31, hi := v.extractLsb' 16 9, lo := v.extractLsb' 0 9 } ∧
        ∀ a : Nat, a < nodeOffset n.val ∨ nodeOffset n.val + 4 ≤ a → m.readByte a = s.mem.readByte a) ∧
    ((s.mode = .pack ∨ s.mode = .unpack) → exec (.wrNode n v) s = .next { s with
      aerr := true, aerrCause := if s.aerr then s.aerrCause else .cfgBusy })

/-- R137: a read of a CODE word returns the LEN byte zero-extended or the W word, in every state. An unwritten word
returns some value (R47), of at most 8 bits for LEN (93_implementation_defined.md I1). -/
def Obligations.CodeReadReturnsTheEntry : Prop :=
  ∀ (s : State) (y : Symbol) (j : Fin 9), ∃ v : Word,
    exec (.rdCode y j) s = .next { s with replies := s.replies ++ [v] } ∧
    (∀ len : Byte, j.val = 0 → s.mem.codeLen? y = some len → v = BitVec.zeroExtend 32 len) ∧
    (j.val = 0 → v.extractLsb' 8 24 = 0) ∧
    (∀ (k : Nat) (w : Word), j.val = k + 1 → s.mem.codeW? y k = some w → v = w)

/-- R139: a read of a NODE word returns LEAF in bit 31, HI in 24:16 and LO in 8:0, and 0 in the other bits, in every
state. An unwritten entry returns some fields in the same format (R47; 93_implementation_defined.md I1). -/
def Obligations.NodeReadReturnsTheEntry : Prop :=
  ∀ (s : State) (n : Fin 511), ∃ v : Word,
    exec (.rdNode n) s = .next { s with replies := s.replies ++ [v] } ∧
    (∀ e : NodeEntry, s.mem.node? n.val = some e →
      v.getLsbD 31 = e.leaf ∧ v.extractLsb' 16 9 = e.hi ∧ v.extractLsb' 0 9 = e.lo) ∧
    v.extractLsb' 25 6 = 0 ∧ v.extractLsb' 9 7 = 0

/-- R46: a NODE word written when not busy reads back with bits 30:25 and 15:9 zero and every other bit as written. -/
def Obligations.NodeReadsBackMasked : Prop :=
  ∀ (s t : State) (n : Fin 511) (v : Word),
    (s.mode = .idle ∨ s.mode = .done ∨ s.mode = .fault) → exec (.wrNode n v) s = .next t →
    exec (.rdNode n) t = .next { t with replies := t.replies ++ [v &&& 0x81FF01FF] }

/-! ## Packer -/

/-- R181: P_TAKE. A symbol with no code faults precisely; a symbol with a code is taken and counted; an unwritten length
is UNINIT (R47). -/
def Obligations.PTakeTakesOrFaults : Prop :=
  ∀ s : State, s.mode = .pack → s.codeActive = false → s.dinValid = true →
    (s.mem.codeLen? s.dinData = some 0 → engineTurn s = .next { s with
      faultCause := .noCode, faultInfo := BitVec.zeroExtend 9 s.dinData, mode := .fault }) ∧
    (∀ len : Byte, s.mem.codeLen? s.dinData = some len → len ≠ 0 → engineTurn s = .next { s with
      dinValid := false, dinData := 0, inCount := s.inCount + 1
      curSym := s.dinData, curIdx := 0, codeActive := true }) ∧
    (s.mem.codeLen? s.dinData = none → ∃ off, engineTurn s = .fault (.uninit off))

/-- R182: P_SHIFT. The code bit joins ACC, or, as the eighth bit, completes a byte that goes to DOUT; CUR_IDX moves on,
and CODE_ACTIVE falls at the code's last bit. When P_SHIFT is enabled and the word that holds the bit or the length is
unwritten, the step is UNINIT (R47; 93_implementation_defined.md I2; log entry 7). That the waiting engine's turn is a
step that changes nothing is the model's reading (log entry 2). -/
def Obligations.PShiftMovesOneBit : Prop :=
  ∀ s : State, s.mode = .pack → s.codeActive = true →
    (∀ (b : Bool) (len : Byte),
      s.mem.codeBit? s.curSym s.curIdx = some b → s.mem.codeLen? s.curSym = some len →
      (s.accN = 7 → s.doutValid = false → engineTurn s = .next { s with
        doutData := (BitVec.zeroExtend 8 s.acc <<< 1) ||| BitVec.zeroExtend 8 (BitVec.ofBool b)
        doutValid := true, outCount := s.outCount + 1, acc := 0, accN := 0
        curIdx := s.curIdx + 1, codeActive := decide (s.curIdx + 1 ≠ len) }) ∧
      (s.accN ≠ 7 → engineTurn s = .next { s with
        acc := (s.acc <<< 1) ||| BitVec.zeroExtend 7 (BitVec.ofBool b), accN := s.accN + 1
        curIdx := s.curIdx + 1, codeActive := decide (s.curIdx + 1 ≠ len) })) ∧
    (s.accN ≠ 7 ∨ s.doutValid = false →
      s.mem.codeBit? s.curSym s.curIdx = none ∨ s.mem.codeLen? s.curSym = none →
      ∃ off, engineTurn s = .fault (.uninit off)) ∧
    (s.accN = 7 → s.doutValid = true → engineTurn s = .next s)

/-- R183: P_FLUSH. The pending bits go out in the high end of a last byte, padded with zeros; with no pending bit no byte
is made; the run is DONE. That the waiting engine's turn is a step that changes nothing is the model's reading (log
entry 2). -/
def Obligations.PFlushPadsAndEnds : Prop :=
  ∀ s : State, s.mode = .pack → s.flushReq = true → s.codeActive = false → s.dinValid = false →
    (s.accN = 0 → engineTurn s = .next { s with mode := .done }) ∧
    (s.accN ≠ 0 → s.doutValid = false → engineTurn s = .next { s with
      doutData := BitVec.zeroExtend 8 s.acc <<< (8 - s.accN.toNat), doutValid := true, outCount := s.outCount + 1
      acc := 0, accN := 0, mode := .done }) ∧
    (s.accN ≠ 0 → s.doutValid = true → engineTurn s = .next s)

/-! ## Unpacker -/

/-- R201: U_LOAD takes and counts one packed byte. -/
def Obligations.ULoadTakesAByte : Prop :=
  ∀ s : State, s.mode = .unpack → s.srN = 0 → s.dinValid = true →
    engineTurn s = .next { s with
      sr := s.dinData, srN := 8, dinValid := false, dinData := 0, inCount := s.inCount + 1 }

/-- R202, R203: U_BIT faults. A 1 bit at a Leaf is BAD_CODE and a child of 511 is BAD_NODE, both with CUR and with
nothing else written; an unwritten entry is UNINIT (R47). -/
def Obligations.UBitFaultsPrecisely : Prop :=
  ∀ s : State, s.mode = .unpack → 0 < s.srN.toNat → s.doutValid = false →
    (∀ n : NodeEntry, s.mem.node? s.cur.toNat = some n → n.leaf = true → s.sr.getLsbD 7 = true →
      engineTurn s = .next { s with faultCause := .badCode, faultInfo := s.cur, mode := .fault }) ∧
    (∀ n : NodeEntry, s.mem.node? s.cur.toNat = some n → n.leaf = false →
      (if s.sr.getLsbD 7 then n.lo else n.hi) = 511 →
      engineTurn s = .next { s with faultCause := .badNode, faultInfo := s.cur, mode := .fault }) ∧
    (s.mem.node? s.cur.toNat = none → ∃ off, engineTurn s = .fault (.uninit off)) ∧
    (∀ n : NodeEntry, s.mem.node? s.cur.toNat = some n → n.leaf = false →
      (if s.sr.getLsbD 7 then n.lo else n.hi) ≠ 511 →
      s.mem.node? (if s.sr.getLsbD 7 then n.lo else n.hi).toNat = none →
      ∃ off, engineTurn s = .fault (.uninit off))

/-- R202: U_BIT at an Internal entry whose chosen child (LEFT on 0, RIGHT on 1) is Internal consumes the bit and moves
there, and does nothing else. -/
def Obligations.UBitMovesToAnInternalChild : Prop :=
  ∀ (s : State) (n m : NodeEntry) (nxt : NodeIdx), s.mode = .unpack → 0 < s.srN.toNat → s.doutValid = false →
    s.mem.node? s.cur.toNat = some n → n.leaf = false →
    nxt = (if s.sr.getLsbD 7 then n.lo else n.hi) → nxt ≠ 511 →
    s.mem.node? nxt.toNat = some m → m.leaf = false →
    engineTurn s = .next { s with sr := s.sr <<< 1, srN := s.srN - 1, cur := nxt }

/-- R202, R204: U_BIT that reaches a Leaf, as a child or as a lone-leaf root on a 0 bit, emits its symbol, counts it and
goes back to ROOT; on the last symbol the rest of SR and a byte in DIN are discarded and the run is DONE. -/
def Obligations.UBitEmitsAtALeaf : Prop :=
  ∀ (s : State) (n m : NodeEntry), s.mode = .unpack → 0 < s.srN.toNat → s.doutValid = false →
    s.mem.node? s.cur.toNat = some n →
    ((n.leaf = true ∧ s.sr.getLsbD 7 = false ∧ m = n) ∨
      (n.leaf = false ∧ (if s.sr.getLsbD 7 then n.lo else n.hi) ≠ 511 ∧
        s.mem.node? (if s.sr.getLsbD 7 then n.lo else n.hi).toNat = some m ∧ m.leaf = true)) →
    (s.symCount ≠ 1 → engineTurn s = .next { s with
      sr := s.sr <<< 1, srN := s.srN - 1
      doutData := m.lo.extractLsb' 0 8, doutValid := true, outCount := s.outCount + 1
      symCount := s.symCount - 1, cur := s.root }) ∧
    (s.symCount = 1 → engineTurn s = .next { s with
      sr := 0, srN := 0, dinValid := false, dinData := 0, mode := .done
      doutData := m.lo.extractLsb' 0 8, doutValid := true, outCount := s.outCount + 1
      symCount := 0, cur := s.root })

/-! ## The engine -/

/-- R180, R200, R259: at most one engine step is enabled, in PACK one of the packer's and in UNPACK one of the
unpacker's; elsewhere none is, and the engine's turn changes nothing. That this turn is a step at all is the model's
reading (log entry 2). -/
def Obligations.AtMostOneStepIsEnabled : Prop :=
  ∀ s : State,
    (∀ e e' : EngineStep, e.enabled s = true → e'.enabled s = true → e = e') ∧
    (∀ e : EngineStep, s.mode = .pack → e.enabled s = true → e = .pTake ∨ e = .pShift ∨ e = .pFlush) ∧
    (∀ e : EngineStep, s.mode = .unpack → e.enabled s = true → e = .uLoad ∨ e = .uBit) ∧
    (s.mode ≠ .pack → s.mode ≠ .unpack → (∀ e : EngineStep, e.enabled s = false) ∧ engineTurn s = .next s)

/-- R184, R202, R208: the engine waits, in PACK in exactly three cases and in UNPACK in exactly two; then its turn changes
nothing, so only the host can lift the wait. -/
def Obligations.TheEngineWaitsForTheHost : Prop :=
  ∀ s : State,
    (s.mode = .pack →
      ((∀ e : EngineStep, e.enabled s = false) ↔
        (s.codeActive = false ∧ s.dinValid = false ∧ s.flushReq = false) ∨
        (s.codeActive = true ∧ s.accN = 7 ∧ s.doutValid = true) ∨
        (s.flushReq = true ∧ s.codeActive = false ∧ s.dinValid = false ∧ s.accN ≠ 0 ∧ s.doutValid = true))) ∧
    (s.mode = .unpack →
      ((∀ e : EngineStep, e.enabled s = false) ↔
        (s.srN = 0 ∧ s.dinValid = false) ∨ (s.srN ≠ 0 ∧ s.doutValid = true))) ∧
    ((∀ e : EngineStep, e.enabled s = false) → engineTurn s = .next s)

/-- R281: every engine step that is enabled uses up work, so engine turns alone come, after at most as many turns as
there is work, to a wait, which only the host can lift, or to UNINIT on a table entry never written (R47; log entry 7). -/
def Obligations.EngineStepsUseUpWork : Prop :=
  ∀ s : State, s.Inv →
    (∀ (t : State) (e : EngineStep), e.enabled s = true → engineTurn s = .next t → engineWork t < engineWork s) ∧
    ((∃ t, engineAlone (engineWork s) s = .next t ∧ ∀ e : EngineStep, e.enabled t = false) ∨
      ∃ off, engineAlone (engineWork s) s = .fault (.uninit off))

/-! ## Faults and access errors -/

/-- R242: a faulting engine step writes nothing but the fault record; a fault of START_UNPACK follows its
clear_datapath. -/
def Obligations.FaultsArePrecise : Prop :=
  ∀ s t : State, s.mode ≠ .fault → t.mode = .fault →
    (engineTurn s = .next t →
      t = { s with mode := .fault, faultCause := t.faultCause, faultInfo := t.faultInfo }) ∧
    (exec .startUnpack s = .next t →
      t = { clearDatapath s with mode := .fault, faultCause := t.faultCause, faultInfo := t.faultInfo })

/-- R245: FAULT is left only by reset or by CLEAR, in either of its spellings, and both end in IDLE with no fault
recorded (R108, R270); until then no engine step runs (R259), and the START commands are refused and recorded. That the
engine's turn in FAULT is a step that changes nothing is the model's reading (log entry 2). -/
def Obligations.FaultIsLeftOnlyByClear : Prop :=
  ∀ s : State, s.mode = .fault →
    (∀ t, step s = .next t → t.mode ≠ .fault →
      t.mode = .idle ∧ t.faultCause = .none ∧ t.faultInfo = 0 ∧
        ∃ ts, s.turns = .reset :: ts ∨
          ∃ a, s.turns = .access a :: ts ∧ (a = .cmd 0x00000001 ∨ a = .wr 0x004 4 0x00000001)) ∧
    (∀ e : EngineStep, e.enabled s = false) ∧ engineTurn s = .next s ∧
    exec .startPack s = .next { s with aerr := true, aerrCause := if s.aerr then s.aerrCause else .cmdState } ∧
    exec .startUnpack s = .next { s with aerr := true, aerrCause := if s.aerr then s.aerrCause else .cmdState }

/-- R247: an access that raises an access error, judged with the record cleared, does nothing but record it, and keeps
the first cause; AERR is cleared only by CLR_AERR, CLEAR and reset. -/
def Obligations.AccessErrorsKeepTheFirstCause : Prop :=
  (∀ (i : Instr) (s t : State), exec i { s with aerr := false, aerrCause := .none } = .next t → t.aerr = true →
    exec i s = .next { s with aerr := true, aerrCause := if s.aerr then s.aerrCause else t.aerrCause }) ∧
  (∀ s t : State, step s = .next t → s.aerr = true → t.aerr = false →
    ∃ ts, s.turns = .reset :: ts ∨
      ∃ a, s.turns = .access a :: ts ∧
        (a = .cmd 0x00000001 ∨ a = .cmd 0x00000005 ∨ a = .wr 0x004 4 0x00000001 ∨ a = .wr 0x004 4 0x00000005))

/-- R22: STATE has the five codes, busy is PACK or UNPACK, and only an enabled engine step, the commands CLEAR,
START_PACK and START_UNPACK, and reset change it. -/
def Obligations.OnlyCommandsAndEngineStepsChangeState : Prop :=
  (Mode.code .idle = 0 ∧ Mode.code .pack = 1 ∧ Mode.code .unpack = 2 ∧ Mode.code .done = 3 ∧ Mode.code .fault = 4) ∧
  (∀ s : State, s.busy = true ↔ s.mode = .pack ∨ s.mode = .unpack) ∧
  ∀ s t : State, step s = .next t → t.mode ≠ s.mode →
    (∃ ts, s.turns = .reset :: ts) ∨
    ((∃ e : EngineStep, e.enabled s = true) ∧ (s.turns = [] ∨ ∃ ts, s.turns = .engine :: ts)) ∨
    ∃ ts w, (s.turns = .access (.cmd w) :: ts ∨ s.turns = .access (.wr 0x004 4 w) :: ts) ∧
      (w = 0x00000001 ∨ w = 0x00000002 ∨ w = 0x00000003)

/-- R72, R277: while the block is busy no step but a reset changes a table or ROOT, and no host access changes
SYMCOUNT. -/
def Obligations.TablesAreFixedDuringARun : Prop :=
  ∀ s t : State, s.busy = true → step s = .next t → (∀ ts, s.turns ≠ .reset :: ts) →
    t.mem = s.mem ∧ t.root = s.root ∧ (∀ a ts, s.turns = .access a :: ts → t.symCount = s.symCount)

/-- Who writes what (R34, R49): IE changes only by WR IE, FLUSH_REQ is set only by FLUSH, DIN is filled only by WR DIN,
the memory changes only by a table write, and no host access fills DOUT. -/
def Obligations.OnlyTheirAccessesWriteThem : Prop :=
  ∀ (i : Instr) (s t : State), exec i s = .next t →
    (t.ie ≠ s.ie → ∃ v, i = .wrIe v) ∧
    (s.flushReq = false → t.flushReq = true → i = .flush ∨ i = .wrCtrl 0x00000004) ∧
    (s.dinValid = false → t.dinValid = true → ∃ v, i = .wrDin v) ∧
    (t.mem ≠ s.mem → (∃ y v, i = .wrCodeLen y v) ∨ (∃ y k v, i = .wrCodeW y k v) ∨ ∃ n v, i = .wrNode n v) ∧
    (s.doutValid = false → t.doutValid = false) ∧ t.epoch = s.epoch ∧ t.turns = s.turns

/-! ## Reset and the invariant -/

/-- R51: every element after reset; no table entry is written, STATUS and irq are 0, ID and PARAM are the constants. -/
def Obligations.ResetValues : Prop :=
  State.reset.mode = .idle ∧ State.reset.flushReq = false ∧
  State.reset.dinValid = false ∧ State.reset.dinData = 0 ∧ State.reset.doutValid = false ∧ State.reset.doutData = 0 ∧
  State.reset.acc = 0 ∧ State.reset.accN = 0 ∧ State.reset.codeActive = false ∧ State.reset.curSym = 0 ∧
  State.reset.curIdx = 0 ∧ State.reset.sr = 0 ∧ State.reset.srN = 0 ∧ State.reset.cur = 0 ∧
  State.reset.symCount = 0 ∧ State.reset.inCount = 0 ∧ State.reset.outCount = 0 ∧ State.reset.root = 0 ∧
  State.reset.ie = 0 ∧ State.reset.aerr = false ∧ State.reset.aerrCause = .none ∧
  State.reset.faultCause = .none ∧ State.reset.faultInfo = 0 ∧
  (∀ y, State.reset.mem.codeLen? y = none) ∧ (∀ y k, State.reset.mem.codeW? y k = none) ∧
  (∀ n, State.reset.mem.node? n = none) ∧
  State.reset.statusWord = 0x00000000 ∧ State.reset.irq = false ∧ idWord = 0x48425055 ∧ paramWord = 0x01FF00FF

/-- R270: a reset, between any two transitions, gives every element of the block its reset value and makes every table
entry unwritten. What the host was told and what comes next stay (the model's reading, log entry 15). -/
def Obligations.ResetTurnResetsTheBlock : Prop :=
  ∀ (s : State) (ts : List Turn), s.turns = .reset :: ts →
    ∃ e : Nat, e ≠ s.epoch ∧ step s = .next { State.reset with epoch := e, turns := ts, replies := s.replies }

/-- The invariant holds after reset. -/
def Obligations.InvariantHoldsAtReset : Prop := State.reset.Inv

/-- Every step from a state with the invariant gives a state with the invariant. -/
def Obligations.EveryStepKeepsTheInvariant : Prop :=
  ∀ s t : State, s.Inv → step s = .next t → t.Inv

/-! ## Runs -/

/-- R185: a pack run, under every interleaving, ends with exactly the packed codes of the symbols it accepted, and with
their counts. -/
def Obligations.PackRunEmitsThePackedCodes : Prop :=
  ∀ (s₀ s e : State) (ts : List Turn) (tr : Transcript),
    (s₀.mode = .idle ∨ s₀.mode = .done) → exec .startPack s₀ = .next s →
    (∀ t ∈ ts, turnWithinRun t = true) → runTurns ts s = some (e, tr) →
    e.mode = .done → e.doutValid = false →
    ∃ cs : List Bits, tr.fed.mapM (fun y => s.mem.code? y) = some cs ∧
      tr.got = bytesMsb (pad8 cs.flatten) ∧
      e.outCount = BitVec.ofNat 32 ((cs.flatten.length + 7) / 8) ∧
      e.inCount = BitVec.ofNat 32 tr.fed.length

/-- R202, R204, R206, R209: an unpack run, under every interleaving and on any NODE image, ends with exactly the symbols
of the walk of the tree over the bits it was given, stopped at SYMCOUNT symbols; IN_COUNT counts the bytes that hold a
consumed bit. -/
def Obligations.UnpackRunIsTheTreeWalk : Prop :=
  ∀ (s₀ s e : State) (ts : List Turn) (tr : Transcript),
    (s₀.mode = .idle ∨ s₀.mode = .done) → s₀.symCount ≠ 0 → exec .startUnpack s₀ = .next s →
    (∀ t ∈ ts, turnWithinRun t = true) → runTurns ts s = some (e, tr) →
    e.mode = .done → e.doutValid = false →
    ∃ rest : Bits,
      treeWalk (fun n => s.mem.node? n) s.root s.symCount.toNat s.root (bitsMsb tr.fed) = .symbols tr.got rest ∧
      e.symCount = 0 ∧ e.outCount = s.symCount ∧
      e.inCount = BitVec.ofNat 32 ((8 * tr.fed.length - rest.length + 7) / 8)

/-! ## The host's tables and containers -/

/-- R156, R158: a tree built from `n` symbols has 2n - 1 nodes, its root is the last of them, and every child comes
before its parent. -/
def Obligations.BuiltTreeShape : Prop :=
  ∀ f : FreqTable, f ≠ [] →
    (buildTree f).nodes.length = 2 * f.length - 1 ∧ (buildTree f).root = 2 * f.length - 2 ∧
    ∀ (p fr l r : Nat), (buildTree f).nodes[p]? = some (.internal fr l r) → l < p ∧ r < p ∧ l ≠ r

/-- R153, R166: the tree depends on the table alone, not on the order in which a header lists its pairs. -/
def Obligations.TreeIgnoresTheHeaderOrder : Prop :=
  ∀ f g : FreqTable, (f.map Prod.fst).Nodup → f.Perm g → buildTree f = buildTree g

/-- R165: the codes of a table are prefix-free and not empty, and every symbol of the table has exactly one. -/
def Obligations.CodesArePrefixFree : Prop :=
  ∀ f : FreqTable, f ≠ [] → (f.map Prod.fst).Nodup →
    ((codesOf f).map Prod.fst).Perm (f.map Prod.fst) ∧
    (∀ p ∈ codesOf f, p.2 ≠ []) ∧
    ∀ p ∈ codesOf f, ∀ q ∈ codesOf f, p.2 <+: q.2 → p = q

/-- R205: on the image of a built tree, the walk the unpacker makes and the source's reverse-table match give the same
symbols and consume the same bits, on every bit string and for every count. -/
def Obligations.TreeWalkIsTheReverseTableMatch : Prop :=
  ∀ (f : FreqTable) (k : Nat) (x : Bits), f ≠ [] → (f.map Prod.fst).Nodup →
    (treeWalk (imageTable (buildTree f).image) (BitVec.ofNat 9 (buildTree f).root) k
        (BitVec.ofNat 9 (buildTree f).root) x).toOption =
      candidateDecode (codesOf f) k [] x

/-- R167: the image of the 8-bit single-symbol convention turns every 8 zero bits into one symbol. -/
def Obligations.EightBitImageDecodesZeros : Prop :=
  ∀ (y : Symbol) (k : Nat),
    treeWalk (imageTable (eightBitImage y)) 8 k 8 (List.replicate (8 * k) false) = .symbols (List.replicate k y) []

/-- R231: decompressing the container of any input gives the input back. The host functions are the model's reading of
the host procedures (log entries 20 and 23). -/
def Obligations.ContainerRoundTrip : Prop :=
  ∀ input : List Byte, input.length < 2 ^ 32 → decompressContainer (compressContainer input) = .ok input
end

