-- ==== Sys2Proof/Machine/Bus.lean ====
section
/-! DEFINITION. The host bus before the block (20_memory.md R60, R63, R64): a word access at a host address, its word
carried on four byte lanes. The block itself sees an offset and a word. -/

namespace Sys2Proof.Machine

/-- Byte `k` of a word: bits `8k+7 : 8k`. -/
def wordByte (v : Word) (k : Fin 4) : Byte := v.extractLsb' (8 * k.val) 8

/-- What each bus lane carries for a word. -/
def lanesOfWord (m : ByteLanes) (v : Word) : Vector Byte 4 := Vector.ofFn fun l => wordByte v (m.symm l)

/-- The word the bus lanes carry. -/
def wordOfLanes (m : ByteLanes) (lanes : Vector Byte 4) : Word :=
  lanes[m 3] ++ lanes[m 2] ++ lanes[m 1] ++ lanes[m 0]

/-- A word write at a host address, as the block sees it; none outside the window. -/
def busWriteWith (m : ByteLanes) (addr : Nat) (lanes : Vector Byte 4) : Option Access :=
  (windowOffset addr).map fun off => .wr off 4 (wordOfLanes m lanes)

/-- A word write on this platform's bus. -/
def busWrite (addr : Nat) (lanes : Vector Byte 4) : Option Access := busWriteWith Config.hostByteLanes addr lanes

/-- A word read at a host address, as the block sees it; none outside the window. -/
def busRead (addr : Nat) : Option Access := (windowOffset addr).map fun off => .rd off 4

/-- What this platform's bus lanes carry back for the word a read returns. -/
def busReply (v : Word) : Vector Byte 4 := lanesOfWord Config.hostByteLanes v

end Sys2Proof.Machine
end

