-- ==== Sys2Proof/Laws/Bus.lean ====
section
/-! SUPPORT. No access depends on the byte lanes (20_memory.md R64): a whole word goes over the bus and comes back
whatever lane carries which byte. -/

namespace Sys2Proof.Machine

/-- A word is its four bytes, byte 3 at the top. -/
theorem word_eq_bytes (v : Word) : wordByte v 3 ++ wordByte v 2 ++ wordByte v 1 ++ wordByte v 0 = v := by
  ext i hi
  simp [wordByte]
  grind

/-- The lanes give back the word that was put on them. -/
@[simp] theorem wordOfLanes_lanesOfWord (m : ByteLanes) (v : Word) : wordOfLanes m (lanesOfWord m v) = v := by
  simpa [wordOfLanes, lanesOfWord] using word_eq_bytes v

/-- A word write reaches the block as the word the host wrote, on every platform. -/
theorem busWriteWith_lanesOfWord (m : ByteLanes) (addr : Nat) (v : Word) :
    busWriteWith m addr (lanesOfWord m v) = (windowOffset addr).map fun off => .wr off 4 v := by
  simp [busWriteWith]

/-- The host reads the word the block returned. -/
theorem wordOfLanes_busReply (v : Word) : wordOfLanes Config.hostByteLanes (busReply v) = v :=
  wordOfLanes_lanesOfWord _ v

end Sys2Proof.Machine
end

