-- ==== Sys2Proof/Laws/Decode.lean ====
section
/-! SUPPORT. Where the map of 10_state.md R31 places each register, table word and unmapped offset. -/

namespace Sys2Proof

/-- A register's offset names that register. -/
@[simp] theorem locate_reg (r : Reg) : locate r.offset = .reg r := by cases r <;> rfl

/-- A register's offset is aligned. -/
@[simp] theorem reg_offset_aligned (r : Reg) : r.offset.toNat % 4 = 0 := by cases r <;> rfl

theorem toNat_codeOffset (y : Symbol) {j : Nat} (hj : j < 9) :
    (BitVec.ofNat 16 (codeOffset y j)).toNat = codeOffset y j := by
  have := y.isLt
  simp only [BitVec.toNat_ofNat, codeOffset]
  omega

theorem toNat_nodeOffset {n : Nat} (hn : n < 511) : (BitVec.ofNat 16 (nodeOffset n)).toNat = nodeOffset n := by
  simp only [BitVec.toNat_ofNat, nodeOffset]
  omega

/-- The offset of a CODE word names that word. -/
theorem locate_codeOffset (y : Symbol) (j : Fin 9) : locate (BitVec.ofNat 16 (codeOffset y j.val)) = .code y j := by
  have hy := y.isLt
  have hj := j.isLt
  have h1 : (codeOffset y j.val - 0x1000) / 0x40 = y.toNat := by simp only [codeOffset]; omega
  have h2 : codeOffset y j.val % 0x40 / 4 = j.val := by simp only [codeOffset]; omega
  have h3 : ¬ codeOffset y j.val < 0x1000 := by simp only [codeOffset]; omega
  have h4 : codeOffset y j.val < 0x5000 := by simp only [codeOffset]; omega
  simp only [locate, toNat_codeOffset y hj, if_neg h3, if_pos h4, h1, h2, dif_pos hj]
  simp

/-- The offset of a NODE word names that word. -/
theorem locate_nodeOffset (n : Fin 511) : locate (BitVec.ofNat 16 (nodeOffset n.val)) = .node n := by
  have hn := n.isLt
  have h1 : (nodeOffset n.val - 0x8000) / 4 = n.val := by simp only [nodeOffset]; omega
  have h3 : ¬ nodeOffset n.val < 0x1000 := by simp only [nodeOffset]; omega
  have h4 : ¬ nodeOffset n.val < 0x5000 := by simp only [nodeOffset]; omega
  have h5 : ¬ nodeOffset n.val < 0x8000 := by simp only [nodeOffset]; omega
  simp only [locate, toNat_nodeOffset hn, if_neg h3, if_neg h4, if_neg h5, h1, dif_pos hn]

theorem codeOffset_aligned (y : Symbol) (j : Nat) : codeOffset y j % 4 = 0 := by simp only [codeOffset]; omega

theorem nodeOffset_aligned (n : Nat) : nodeOffset n % 4 = 0 := by simp only [nodeOffset]; omega

/-- No register stands at a word number past PARAM's. -/
theorem regAt_eq_none {i : Nat} (h : 14 ≤ i) : regAt i = none := by
  obtain ⟨k, rfl⟩ := Nat.exists_eq_add_of_le' h
  rfl

theorem unmappedOffset_iff (off : Offset) :
    unmappedOffset off = true ↔
      (0x0038 ≤ off.toNat ∧ off.toNat ≤ 0x0FFC) ∨
        (0x1000 ≤ off.toNat ∧ off.toNat ≤ 0x4FFC ∧ 0x24 ≤ off.toNat % 0x40) ∨
        (0x5000 ≤ off.toNat ∧ off.toNat ≤ 0x7FFC) ∨ 0x87FC ≤ off.toNat := by
  simp only [unmappedOffset, Bool.or_eq_true, Bool.and_eq_true, decide_eq_true_eq, and_assoc, or_assoc]

/-- An aligned offset of 20_memory.md R69 names nothing. -/
theorem locate_unmapped {off : Offset} (ha : off.toNat % 4 = 0) (hu : unmappedOffset off = true) :
    locate off = .unmapped := by
  rw [unmappedOffset_iff] at hu
  unfold locate
  simp only
  split
  · have : 14 ≤ off.toNat / 4 := by omega
    rw [regAt_eq_none this]
  · split
    · rw [dif_neg (by omega)]
    · split
      · rfl
      · rw [dif_neg (by omega)]

/-- A command word of an assigned command is that command, any other word is RESERVED. -/
theorem decodeCmd_reserved {w : Word} (h : reservedWord w = true) : decodeCmd w = .reserved w := by
  simp only [reservedWord, Bool.or_eq_true, decide_eq_true_eq] at h
  by_cases h0 : w.extractLsb' 8 24 ≠ 0
  · simp only [decodeCmd, if_pos h0]
  · have h6 := h.resolve_left h0
    have hne : ∀ n : Nat, n < 6 → w.extractLsb' 0 8 ≠ BitVec.ofNat 8 n := by
      intro n hn he
      rw [he] at h6
      simp only [BitVec.toNat_ofNat] at h6
      omega
    have e0 : w.extractLsb' 0 8 ≠ 0 := hne 0 (by omega)
    have e1 : w.extractLsb' 0 8 ≠ 1 := hne 1 (by omega)
    have e2 : w.extractLsb' 0 8 ≠ 2 := hne 2 (by omega)
    have e3 : w.extractLsb' 0 8 ≠ 3 := hne 3 (by omega)
    have e4 : w.extractLsb' 0 8 ≠ 4 := hne 4 (by omega)
    have e5 : w.extractLsb' 0 8 ≠ 5 := hne 5 (by omega)
    simp only [decodeCmd, if_neg h0]
    rw [if_neg e0, if_neg e1, if_neg e2, if_neg e3, if_neg e4, if_neg e5]

end Sys2Proof
end

