-- ==== Sys2Proof/Laws/State.lean ====
section
/-! SUPPORT. One lemma per field per named update of the state, so that no proof unfolds an update. -/

namespace Sys2Proof.Machine

/-! ## `raiseFault` -/

@[simp] theorem raiseFault_mode (c : FaultCause) (info : BitVec 9) (s : State) : (raiseFault c info s).mode = .fault := rfl
@[simp] theorem raiseFault_flushReq (c : FaultCause) (info : BitVec 9) (s : State) : (raiseFault c info s).flushReq = s.flushReq := rfl
@[simp] theorem raiseFault_dinValid (c : FaultCause) (info : BitVec 9) (s : State) : (raiseFault c info s).dinValid = s.dinValid := rfl
@[simp] theorem raiseFault_dinData (c : FaultCause) (info : BitVec 9) (s : State) : (raiseFault c info s).dinData = s.dinData := rfl
@[simp] theorem raiseFault_doutValid (c : FaultCause) (info : BitVec 9) (s : State) : (raiseFault c info s).doutValid = s.doutValid := rfl
@[simp] theorem raiseFault_doutData (c : FaultCause) (info : BitVec 9) (s : State) : (raiseFault c info s).doutData = s.doutData := rfl
@[simp] theorem raiseFault_acc (c : FaultCause) (info : BitVec 9) (s : State) : (raiseFault c info s).acc = s.acc := rfl
@[simp] theorem raiseFault_accN (c : FaultCause) (info : BitVec 9) (s : State) : (raiseFault c info s).accN = s.accN := rfl
@[simp] theorem raiseFault_codeActive (c : FaultCause) (info : BitVec 9) (s : State) : (raiseFault c info s).codeActive = s.codeActive := rfl
@[simp] theorem raiseFault_curSym (c : FaultCause) (info : BitVec 9) (s : State) : (raiseFault c info s).curSym = s.curSym := rfl
@[simp] theorem raiseFault_curIdx (c : FaultCause) (info : BitVec 9) (s : State) : (raiseFault c info s).curIdx = s.curIdx := rfl
@[simp] theorem raiseFault_sr (c : FaultCause) (info : BitVec 9) (s : State) : (raiseFault c info s).sr = s.sr := rfl
@[simp] theorem raiseFault_srN (c : FaultCause) (info : BitVec 9) (s : State) : (raiseFault c info s).srN = s.srN := rfl
@[simp] theorem raiseFault_cur (c : FaultCause) (info : BitVec 9) (s : State) : (raiseFault c info s).cur = s.cur := rfl
@[simp] theorem raiseFault_symCount (c : FaultCause) (info : BitVec 9) (s : State) : (raiseFault c info s).symCount = s.symCount := rfl
@[simp] theorem raiseFault_inCount (c : FaultCause) (info : BitVec 9) (s : State) : (raiseFault c info s).inCount = s.inCount := rfl
@[simp] theorem raiseFault_outCount (c : FaultCause) (info : BitVec 9) (s : State) : (raiseFault c info s).outCount = s.outCount := rfl
@[simp] theorem raiseFault_root (c : FaultCause) (info : BitVec 9) (s : State) : (raiseFault c info s).root = s.root := rfl
@[simp] theorem raiseFault_ie (c : FaultCause) (info : BitVec 9) (s : State) : (raiseFault c info s).ie = s.ie := rfl
@[simp] theorem raiseFault_aerr (c : FaultCause) (info : BitVec 9) (s : State) : (raiseFault c info s).aerr = s.aerr := rfl
@[simp] theorem raiseFault_aerrCause (c : FaultCause) (info : BitVec 9) (s : State) : (raiseFault c info s).aerrCause = s.aerrCause := rfl
@[simp] theorem raiseFault_faultCause (c : FaultCause) (info : BitVec 9) (s : State) : (raiseFault c info s).faultCause = c := rfl
@[simp] theorem raiseFault_faultInfo (c : FaultCause) (info : BitVec 9) (s : State) : (raiseFault c info s).faultInfo = info := rfl
@[simp] theorem raiseFault_mem (c : FaultCause) (info : BitVec 9) (s : State) : (raiseFault c info s).mem = s.mem := rfl
@[simp] theorem raiseFault_epoch (c : FaultCause) (info : BitVec 9) (s : State) : (raiseFault c info s).epoch = s.epoch := rfl
@[simp] theorem raiseFault_turns (c : FaultCause) (info : BitVec 9) (s : State) : (raiseFault c info s).turns = s.turns := rfl
@[simp] theorem raiseFault_replies (c : FaultCause) (info : BitVec 9) (s : State) : (raiseFault c info s).replies = s.replies := rfl

/-! ## `clearFault` -/

@[simp] theorem clearFault_mode (s : State) : (clearFault s).mode = s.mode := rfl
@[simp] theorem clearFault_flushReq (s : State) : (clearFault s).flushReq = s.flushReq := rfl
@[simp] theorem clearFault_dinValid (s : State) : (clearFault s).dinValid = s.dinValid := rfl
@[simp] theorem clearFault_dinData (s : State) : (clearFault s).dinData = s.dinData := rfl
@[simp] theorem clearFault_doutValid (s : State) : (clearFault s).doutValid = s.doutValid := rfl
@[simp] theorem clearFault_doutData (s : State) : (clearFault s).doutData = s.doutData := rfl
@[simp] theorem clearFault_acc (s : State) : (clearFault s).acc = s.acc := rfl
@[simp] theorem clearFault_accN (s : State) : (clearFault s).accN = s.accN := rfl
@[simp] theorem clearFault_codeActive (s : State) : (clearFault s).codeActive = s.codeActive := rfl
@[simp] theorem clearFault_curSym (s : State) : (clearFault s).curSym = s.curSym := rfl
@[simp] theorem clearFault_curIdx (s : State) : (clearFault s).curIdx = s.curIdx := rfl
@[simp] theorem clearFault_sr (s : State) : (clearFault s).sr = s.sr := rfl
@[simp] theorem clearFault_srN (s : State) : (clearFault s).srN = s.srN := rfl
@[simp] theorem clearFault_cur (s : State) : (clearFault s).cur = s.cur := rfl
@[simp] theorem clearFault_symCount (s : State) : (clearFault s).symCount = s.symCount := rfl
@[simp] theorem clearFault_inCount (s : State) : (clearFault s).inCount = s.inCount := rfl
@[simp] theorem clearFault_outCount (s : State) : (clearFault s).outCount = s.outCount := rfl
@[simp] theorem clearFault_root (s : State) : (clearFault s).root = s.root := rfl
@[simp] theorem clearFault_ie (s : State) : (clearFault s).ie = s.ie := rfl
@[simp] theorem clearFault_aerr (s : State) : (clearFault s).aerr = s.aerr := rfl
@[simp] theorem clearFault_aerrCause (s : State) : (clearFault s).aerrCause = s.aerrCause := rfl
@[simp] theorem clearFault_faultCause (s : State) : (clearFault s).faultCause = .none := rfl
@[simp] theorem clearFault_faultInfo (s : State) : (clearFault s).faultInfo = 0 := rfl
@[simp] theorem clearFault_mem (s : State) : (clearFault s).mem = s.mem := rfl
@[simp] theorem clearFault_epoch (s : State) : (clearFault s).epoch = s.epoch := rfl
@[simp] theorem clearFault_turns (s : State) : (clearFault s).turns = s.turns := rfl
@[simp] theorem clearFault_replies (s : State) : (clearFault s).replies = s.replies := rfl

/-! ## `raiseAccessError` -/

@[simp] theorem raiseAccessError_mode (c : AerrCause) (s : State) : (raiseAccessError c s).mode = s.mode := rfl
@[simp] theorem raiseAccessError_flushReq (c : AerrCause) (s : State) : (raiseAccessError c s).flushReq = s.flushReq := rfl
@[simp] theorem raiseAccessError_dinValid (c : AerrCause) (s : State) : (raiseAccessError c s).dinValid = s.dinValid := rfl
@[simp] theorem raiseAccessError_dinData (c : AerrCause) (s : State) : (raiseAccessError c s).dinData = s.dinData := rfl
@[simp] theorem raiseAccessError_doutValid (c : AerrCause) (s : State) : (raiseAccessError c s).doutValid = s.doutValid := rfl
@[simp] theorem raiseAccessError_doutData (c : AerrCause) (s : State) : (raiseAccessError c s).doutData = s.doutData := rfl
@[simp] theorem raiseAccessError_acc (c : AerrCause) (s : State) : (raiseAccessError c s).acc = s.acc := rfl
@[simp] theorem raiseAccessError_accN (c : AerrCause) (s : State) : (raiseAccessError c s).accN = s.accN := rfl
@[simp] theorem raiseAccessError_codeActive (c : AerrCause) (s : State) : (raiseAccessError c s).codeActive = s.codeActive := rfl
@[simp] theorem raiseAccessError_curSym (c : AerrCause) (s : State) : (raiseAccessError c s).curSym = s.curSym := rfl
@[simp] theorem raiseAccessError_curIdx (c : AerrCause) (s : State) : (raiseAccessError c s).curIdx = s.curIdx := rfl
@[simp] theorem raiseAccessError_sr (c : AerrCause) (s : State) : (raiseAccessError c s).sr = s.sr := rfl
@[simp] theorem raiseAccessError_srN (c : AerrCause) (s : State) : (raiseAccessError c s).srN = s.srN := rfl
@[simp] theorem raiseAccessError_cur (c : AerrCause) (s : State) : (raiseAccessError c s).cur = s.cur := rfl
@[simp] theorem raiseAccessError_symCount (c : AerrCause) (s : State) : (raiseAccessError c s).symCount = s.symCount := rfl
@[simp] theorem raiseAccessError_inCount (c : AerrCause) (s : State) : (raiseAccessError c s).inCount = s.inCount := rfl
@[simp] theorem raiseAccessError_outCount (c : AerrCause) (s : State) : (raiseAccessError c s).outCount = s.outCount := rfl
@[simp] theorem raiseAccessError_root (c : AerrCause) (s : State) : (raiseAccessError c s).root = s.root := rfl
@[simp] theorem raiseAccessError_ie (c : AerrCause) (s : State) : (raiseAccessError c s).ie = s.ie := rfl
@[simp] theorem raiseAccessError_aerr (c : AerrCause) (s : State) : (raiseAccessError c s).aerr = true := rfl
@[simp] theorem raiseAccessError_aerrCause (c : AerrCause) (s : State) : (raiseAccessError c s).aerrCause = (if s.aerr then s.aerrCause else c) := rfl
@[simp] theorem raiseAccessError_faultCause (c : AerrCause) (s : State) : (raiseAccessError c s).faultCause = s.faultCause := rfl
@[simp] theorem raiseAccessError_faultInfo (c : AerrCause) (s : State) : (raiseAccessError c s).faultInfo = s.faultInfo := rfl
@[simp] theorem raiseAccessError_mem (c : AerrCause) (s : State) : (raiseAccessError c s).mem = s.mem := rfl
@[simp] theorem raiseAccessError_epoch (c : AerrCause) (s : State) : (raiseAccessError c s).epoch = s.epoch := rfl
@[simp] theorem raiseAccessError_turns (c : AerrCause) (s : State) : (raiseAccessError c s).turns = s.turns := rfl
@[simp] theorem raiseAccessError_replies (c : AerrCause) (s : State) : (raiseAccessError c s).replies = s.replies := rfl

/-! ## `clearAccessError` -/

@[simp] theorem clearAccessError_mode (s : State) : (clearAccessError s).mode = s.mode := rfl
@[simp] theorem clearAccessError_flushReq (s : State) : (clearAccessError s).flushReq = s.flushReq := rfl
@[simp] theorem clearAccessError_dinValid (s : State) : (clearAccessError s).dinValid = s.dinValid := rfl
@[simp] theorem clearAccessError_dinData (s : State) : (clearAccessError s).dinData = s.dinData := rfl
@[simp] theorem clearAccessError_doutValid (s : State) : (clearAccessError s).doutValid = s.doutValid := rfl
@[simp] theorem clearAccessError_doutData (s : State) : (clearAccessError s).doutData = s.doutData := rfl
@[simp] theorem clearAccessError_acc (s : State) : (clearAccessError s).acc = s.acc := rfl
@[simp] theorem clearAccessError_accN (s : State) : (clearAccessError s).accN = s.accN := rfl
@[simp] theorem clearAccessError_codeActive (s : State) : (clearAccessError s).codeActive = s.codeActive := rfl
@[simp] theorem clearAccessError_curSym (s : State) : (clearAccessError s).curSym = s.curSym := rfl
@[simp] theorem clearAccessError_curIdx (s : State) : (clearAccessError s).curIdx = s.curIdx := rfl
@[simp] theorem clearAccessError_sr (s : State) : (clearAccessError s).sr = s.sr := rfl
@[simp] theorem clearAccessError_srN (s : State) : (clearAccessError s).srN = s.srN := rfl
@[simp] theorem clearAccessError_cur (s : State) : (clearAccessError s).cur = s.cur := rfl
@[simp] theorem clearAccessError_symCount (s : State) : (clearAccessError s).symCount = s.symCount := rfl
@[simp] theorem clearAccessError_inCount (s : State) : (clearAccessError s).inCount = s.inCount := rfl
@[simp] theorem clearAccessError_outCount (s : State) : (clearAccessError s).outCount = s.outCount := rfl
@[simp] theorem clearAccessError_root (s : State) : (clearAccessError s).root = s.root := rfl
@[simp] theorem clearAccessError_ie (s : State) : (clearAccessError s).ie = s.ie := rfl
@[simp] theorem clearAccessError_aerr (s : State) : (clearAccessError s).aerr = false := rfl
@[simp] theorem clearAccessError_aerrCause (s : State) : (clearAccessError s).aerrCause = .none := rfl
@[simp] theorem clearAccessError_faultCause (s : State) : (clearAccessError s).faultCause = s.faultCause := rfl
@[simp] theorem clearAccessError_faultInfo (s : State) : (clearAccessError s).faultInfo = s.faultInfo := rfl
@[simp] theorem clearAccessError_mem (s : State) : (clearAccessError s).mem = s.mem := rfl
@[simp] theorem clearAccessError_epoch (s : State) : (clearAccessError s).epoch = s.epoch := rfl
@[simp] theorem clearAccessError_turns (s : State) : (clearAccessError s).turns = s.turns := rfl
@[simp] theorem clearAccessError_replies (s : State) : (clearAccessError s).replies = s.replies := rfl

/-! ## `clearDatapath` -/

@[simp] theorem clearDatapath_mode (s : State) : (clearDatapath s).mode = s.mode := rfl
@[simp] theorem clearDatapath_flushReq (s : State) : (clearDatapath s).flushReq = false := rfl
@[simp] theorem clearDatapath_dinValid (s : State) : (clearDatapath s).dinValid = false := rfl
@[simp] theorem clearDatapath_dinData (s : State) : (clearDatapath s).dinData = 0 := rfl
@[simp] theorem clearDatapath_doutValid (s : State) : (clearDatapath s).doutValid = false := rfl
@[simp] theorem clearDatapath_doutData (s : State) : (clearDatapath s).doutData = 0 := rfl
@[simp] theorem clearDatapath_acc (s : State) : (clearDatapath s).acc = 0 := rfl
@[simp] theorem clearDatapath_accN (s : State) : (clearDatapath s).accN = 0 := rfl
@[simp] theorem clearDatapath_codeActive (s : State) : (clearDatapath s).codeActive = false := rfl
@[simp] theorem clearDatapath_curSym (s : State) : (clearDatapath s).curSym = 0 := rfl
@[simp] theorem clearDatapath_curIdx (s : State) : (clearDatapath s).curIdx = 0 := rfl
@[simp] theorem clearDatapath_sr (s : State) : (clearDatapath s).sr = 0 := rfl
@[simp] theorem clearDatapath_srN (s : State) : (clearDatapath s).srN = 0 := rfl
@[simp] theorem clearDatapath_cur (s : State) : (clearDatapath s).cur = 0 := rfl
@[simp] theorem clearDatapath_symCount (s : State) : (clearDatapath s).symCount = s.symCount := rfl
@[simp] theorem clearDatapath_inCount (s : State) : (clearDatapath s).inCount = 0 := rfl
@[simp] theorem clearDatapath_outCount (s : State) : (clearDatapath s).outCount = 0 := rfl
@[simp] theorem clearDatapath_root (s : State) : (clearDatapath s).root = s.root := rfl
@[simp] theorem clearDatapath_ie (s : State) : (clearDatapath s).ie = s.ie := rfl
@[simp] theorem clearDatapath_aerr (s : State) : (clearDatapath s).aerr = s.aerr := rfl
@[simp] theorem clearDatapath_aerrCause (s : State) : (clearDatapath s).aerrCause = s.aerrCause := rfl
@[simp] theorem clearDatapath_faultCause (s : State) : (clearDatapath s).faultCause = s.faultCause := rfl
@[simp] theorem clearDatapath_faultInfo (s : State) : (clearDatapath s).faultInfo = s.faultInfo := rfl
@[simp] theorem clearDatapath_mem (s : State) : (clearDatapath s).mem = s.mem := rfl
@[simp] theorem clearDatapath_epoch (s : State) : (clearDatapath s).epoch = s.epoch := rfl
@[simp] theorem clearDatapath_turns (s : State) : (clearDatapath s).turns = s.turns := rfl
@[simp] theorem clearDatapath_replies (s : State) : (clearDatapath s).replies = s.replies := rfl

/-! ## `emitOut` -/

@[simp] theorem emitOut_mode (b : Byte) (s : State) : (emitOut b s).mode = s.mode := rfl
@[simp] theorem emitOut_flushReq (b : Byte) (s : State) : (emitOut b s).flushReq = s.flushReq := rfl
@[simp] theorem emitOut_dinValid (b : Byte) (s : State) : (emitOut b s).dinValid = s.dinValid := rfl
@[simp] theorem emitOut_dinData (b : Byte) (s : State) : (emitOut b s).dinData = s.dinData := rfl
@[simp] theorem emitOut_doutValid (b : Byte) (s : State) : (emitOut b s).doutValid = true := rfl
@[simp] theorem emitOut_doutData (b : Byte) (s : State) : (emitOut b s).doutData = b := rfl
@[simp] theorem emitOut_acc (b : Byte) (s : State) : (emitOut b s).acc = s.acc := rfl
@[simp] theorem emitOut_accN (b : Byte) (s : State) : (emitOut b s).accN = s.accN := rfl
@[simp] theorem emitOut_codeActive (b : Byte) (s : State) : (emitOut b s).codeActive = s.codeActive := rfl
@[simp] theorem emitOut_curSym (b : Byte) (s : State) : (emitOut b s).curSym = s.curSym := rfl
@[simp] theorem emitOut_curIdx (b : Byte) (s : State) : (emitOut b s).curIdx = s.curIdx := rfl
@[simp] theorem emitOut_sr (b : Byte) (s : State) : (emitOut b s).sr = s.sr := rfl
@[simp] theorem emitOut_srN (b : Byte) (s : State) : (emitOut b s).srN = s.srN := rfl
@[simp] theorem emitOut_cur (b : Byte) (s : State) : (emitOut b s).cur = s.cur := rfl
@[simp] theorem emitOut_symCount (b : Byte) (s : State) : (emitOut b s).symCount = s.symCount := rfl
@[simp] theorem emitOut_inCount (b : Byte) (s : State) : (emitOut b s).inCount = s.inCount := rfl
@[simp] theorem emitOut_outCount (b : Byte) (s : State) : (emitOut b s).outCount = s.outCount + 1 := rfl
@[simp] theorem emitOut_root (b : Byte) (s : State) : (emitOut b s).root = s.root := rfl
@[simp] theorem emitOut_ie (b : Byte) (s : State) : (emitOut b s).ie = s.ie := rfl
@[simp] theorem emitOut_aerr (b : Byte) (s : State) : (emitOut b s).aerr = s.aerr := rfl
@[simp] theorem emitOut_aerrCause (b : Byte) (s : State) : (emitOut b s).aerrCause = s.aerrCause := rfl
@[simp] theorem emitOut_faultCause (b : Byte) (s : State) : (emitOut b s).faultCause = s.faultCause := rfl
@[simp] theorem emitOut_faultInfo (b : Byte) (s : State) : (emitOut b s).faultInfo = s.faultInfo := rfl
@[simp] theorem emitOut_mem (b : Byte) (s : State) : (emitOut b s).mem = s.mem := rfl
@[simp] theorem emitOut_epoch (b : Byte) (s : State) : (emitOut b s).epoch = s.epoch := rfl
@[simp] theorem emitOut_turns (b : Byte) (s : State) : (emitOut b s).turns = s.turns := rfl
@[simp] theorem emitOut_replies (b : Byte) (s : State) : (emitOut b s).replies = s.replies := rfl

/-! ## `takeDin` -/

@[simp] theorem takeDin_mode (s : State) : (takeDin s).mode = s.mode := rfl
@[simp] theorem takeDin_flushReq (s : State) : (takeDin s).flushReq = s.flushReq := rfl
@[simp] theorem takeDin_dinValid (s : State) : (takeDin s).dinValid = false := rfl
@[simp] theorem takeDin_dinData (s : State) : (takeDin s).dinData = 0 := rfl
@[simp] theorem takeDin_doutValid (s : State) : (takeDin s).doutValid = s.doutValid := rfl
@[simp] theorem takeDin_doutData (s : State) : (takeDin s).doutData = s.doutData := rfl
@[simp] theorem takeDin_acc (s : State) : (takeDin s).acc = s.acc := rfl
@[simp] theorem takeDin_accN (s : State) : (takeDin s).accN = s.accN := rfl
@[simp] theorem takeDin_codeActive (s : State) : (takeDin s).codeActive = s.codeActive := rfl
@[simp] theorem takeDin_curSym (s : State) : (takeDin s).curSym = s.curSym := rfl
@[simp] theorem takeDin_curIdx (s : State) : (takeDin s).curIdx = s.curIdx := rfl
@[simp] theorem takeDin_sr (s : State) : (takeDin s).sr = s.sr := rfl
@[simp] theorem takeDin_srN (s : State) : (takeDin s).srN = s.srN := rfl
@[simp] theorem takeDin_cur (s : State) : (takeDin s).cur = s.cur := rfl
@[simp] theorem takeDin_symCount (s : State) : (takeDin s).symCount = s.symCount := rfl
@[simp] theorem takeDin_inCount (s : State) : (takeDin s).inCount = s.inCount + 1 := rfl
@[simp] theorem takeDin_outCount (s : State) : (takeDin s).outCount = s.outCount := rfl
@[simp] theorem takeDin_root (s : State) : (takeDin s).root = s.root := rfl
@[simp] theorem takeDin_ie (s : State) : (takeDin s).ie = s.ie := rfl
@[simp] theorem takeDin_aerr (s : State) : (takeDin s).aerr = s.aerr := rfl
@[simp] theorem takeDin_aerrCause (s : State) : (takeDin s).aerrCause = s.aerrCause := rfl
@[simp] theorem takeDin_faultCause (s : State) : (takeDin s).faultCause = s.faultCause := rfl
@[simp] theorem takeDin_faultInfo (s : State) : (takeDin s).faultInfo = s.faultInfo := rfl
@[simp] theorem takeDin_mem (s : State) : (takeDin s).mem = s.mem := rfl
@[simp] theorem takeDin_epoch (s : State) : (takeDin s).epoch = s.epoch := rfl
@[simp] theorem takeDin_turns (s : State) : (takeDin s).turns = s.turns := rfl
@[simp] theorem takeDin_replies (s : State) : (takeDin s).replies = s.replies := rfl

/-! ## `reply` -/

@[simp] theorem reply_mode (v : Word) (s : State) : (reply v s).mode = s.mode := rfl
@[simp] theorem reply_flushReq (v : Word) (s : State) : (reply v s).flushReq = s.flushReq := rfl
@[simp] theorem reply_dinValid (v : Word) (s : State) : (reply v s).dinValid = s.dinValid := rfl
@[simp] theorem reply_dinData (v : Word) (s : State) : (reply v s).dinData = s.dinData := rfl
@[simp] theorem reply_doutValid (v : Word) (s : State) : (reply v s).doutValid = s.doutValid := rfl
@[simp] theorem reply_doutData (v : Word) (s : State) : (reply v s).doutData = s.doutData := rfl
@[simp] theorem reply_acc (v : Word) (s : State) : (reply v s).acc = s.acc := rfl
@[simp] theorem reply_accN (v : Word) (s : State) : (reply v s).accN = s.accN := rfl
@[simp] theorem reply_codeActive (v : Word) (s : State) : (reply v s).codeActive = s.codeActive := rfl
@[simp] theorem reply_curSym (v : Word) (s : State) : (reply v s).curSym = s.curSym := rfl
@[simp] theorem reply_curIdx (v : Word) (s : State) : (reply v s).curIdx = s.curIdx := rfl
@[simp] theorem reply_sr (v : Word) (s : State) : (reply v s).sr = s.sr := rfl
@[simp] theorem reply_srN (v : Word) (s : State) : (reply v s).srN = s.srN := rfl
@[simp] theorem reply_cur (v : Word) (s : State) : (reply v s).cur = s.cur := rfl
@[simp] theorem reply_symCount (v : Word) (s : State) : (reply v s).symCount = s.symCount := rfl
@[simp] theorem reply_inCount (v : Word) (s : State) : (reply v s).inCount = s.inCount := rfl
@[simp] theorem reply_outCount (v : Word) (s : State) : (reply v s).outCount = s.outCount := rfl
@[simp] theorem reply_root (v : Word) (s : State) : (reply v s).root = s.root := rfl
@[simp] theorem reply_ie (v : Word) (s : State) : (reply v s).ie = s.ie := rfl
@[simp] theorem reply_aerr (v : Word) (s : State) : (reply v s).aerr = s.aerr := rfl
@[simp] theorem reply_aerrCause (v : Word) (s : State) : (reply v s).aerrCause = s.aerrCause := rfl
@[simp] theorem reply_faultCause (v : Word) (s : State) : (reply v s).faultCause = s.faultCause := rfl
@[simp] theorem reply_faultInfo (v : Word) (s : State) : (reply v s).faultInfo = s.faultInfo := rfl
@[simp] theorem reply_mem (v : Word) (s : State) : (reply v s).mem = s.mem := rfl
@[simp] theorem reply_epoch (v : Word) (s : State) : (reply v s).epoch = s.epoch := rfl
@[simp] theorem reply_turns (v : Word) (s : State) : (reply v s).turns = s.turns := rfl
@[simp] theorem reply_replies (v : Word) (s : State) : (reply v s).replies = s.replies ++ [v] := rfl

/-! ## `consume` -/

@[simp] theorem consume_mode (s : State) : (consume s).mode = s.mode := rfl
@[simp] theorem consume_flushReq (s : State) : (consume s).flushReq = s.flushReq := rfl
@[simp] theorem consume_dinValid (s : State) : (consume s).dinValid = s.dinValid := rfl
@[simp] theorem consume_dinData (s : State) : (consume s).dinData = s.dinData := rfl
@[simp] theorem consume_doutValid (s : State) : (consume s).doutValid = s.doutValid := rfl
@[simp] theorem consume_doutData (s : State) : (consume s).doutData = s.doutData := rfl
@[simp] theorem consume_acc (s : State) : (consume s).acc = s.acc := rfl
@[simp] theorem consume_accN (s : State) : (consume s).accN = s.accN := rfl
@[simp] theorem consume_codeActive (s : State) : (consume s).codeActive = s.codeActive := rfl
@[simp] theorem consume_curSym (s : State) : (consume s).curSym = s.curSym := rfl
@[simp] theorem consume_curIdx (s : State) : (consume s).curIdx = s.curIdx := rfl
@[simp] theorem consume_sr (s : State) : (consume s).sr = s.sr <<< 1 := rfl
@[simp] theorem consume_srN (s : State) : (consume s).srN = s.srN - 1 := rfl
@[simp] theorem consume_cur (s : State) : (consume s).cur = s.cur := rfl
@[simp] theorem consume_symCount (s : State) : (consume s).symCount = s.symCount := rfl
@[simp] theorem consume_inCount (s : State) : (consume s).inCount = s.inCount := rfl
@[simp] theorem consume_outCount (s : State) : (consume s).outCount = s.outCount := rfl
@[simp] theorem consume_root (s : State) : (consume s).root = s.root := rfl
@[simp] theorem consume_ie (s : State) : (consume s).ie = s.ie := rfl
@[simp] theorem consume_aerr (s : State) : (consume s).aerr = s.aerr := rfl
@[simp] theorem consume_aerrCause (s : State) : (consume s).aerrCause = s.aerrCause := rfl
@[simp] theorem consume_faultCause (s : State) : (consume s).faultCause = s.faultCause := rfl
@[simp] theorem consume_faultInfo (s : State) : (consume s).faultInfo = s.faultInfo := rfl
@[simp] theorem consume_mem (s : State) : (consume s).mem = s.mem := rfl
@[simp] theorem consume_epoch (s : State) : (consume s).epoch = s.epoch := rfl
@[simp] theorem consume_turns (s : State) : (consume s).turns = s.turns := rfl
@[simp] theorem consume_replies (s : State) : (consume s).replies = s.replies := rfl

/-! ## `finishUnpack` -/

@[simp] theorem finishUnpack_mode (s : State) : (finishUnpack s).mode = .done := rfl
@[simp] theorem finishUnpack_flushReq (s : State) : (finishUnpack s).flushReq = s.flushReq := rfl
@[simp] theorem finishUnpack_dinValid (s : State) : (finishUnpack s).dinValid = false := rfl
@[simp] theorem finishUnpack_dinData (s : State) : (finishUnpack s).dinData = 0 := rfl
@[simp] theorem finishUnpack_doutValid (s : State) : (finishUnpack s).doutValid = s.doutValid := rfl
@[simp] theorem finishUnpack_doutData (s : State) : (finishUnpack s).doutData = s.doutData := rfl
@[simp] theorem finishUnpack_acc (s : State) : (finishUnpack s).acc = s.acc := rfl
@[simp] theorem finishUnpack_accN (s : State) : (finishUnpack s).accN = s.accN := rfl
@[simp] theorem finishUnpack_codeActive (s : State) : (finishUnpack s).codeActive = s.codeActive := rfl
@[simp] theorem finishUnpack_curSym (s : State) : (finishUnpack s).curSym = s.curSym := rfl
@[simp] theorem finishUnpack_curIdx (s : State) : (finishUnpack s).curIdx = s.curIdx := rfl
@[simp] theorem finishUnpack_sr (s : State) : (finishUnpack s).sr = 0 := rfl
@[simp] theorem finishUnpack_srN (s : State) : (finishUnpack s).srN = 0 := rfl
@[simp] theorem finishUnpack_cur (s : State) : (finishUnpack s).cur = s.cur := rfl
@[simp] theorem finishUnpack_symCount (s : State) : (finishUnpack s).symCount = s.symCount := rfl
@[simp] theorem finishUnpack_inCount (s : State) : (finishUnpack s).inCount = s.inCount := rfl
@[simp] theorem finishUnpack_outCount (s : State) : (finishUnpack s).outCount = s.outCount := rfl
@[simp] theorem finishUnpack_root (s : State) : (finishUnpack s).root = s.root := rfl
@[simp] theorem finishUnpack_ie (s : State) : (finishUnpack s).ie = s.ie := rfl
@[simp] theorem finishUnpack_aerr (s : State) : (finishUnpack s).aerr = s.aerr := rfl
@[simp] theorem finishUnpack_aerrCause (s : State) : (finishUnpack s).aerrCause = s.aerrCause := rfl
@[simp] theorem finishUnpack_faultCause (s : State) : (finishUnpack s).faultCause = s.faultCause := rfl
@[simp] theorem finishUnpack_faultInfo (s : State) : (finishUnpack s).faultInfo = s.faultInfo := rfl
@[simp] theorem finishUnpack_mem (s : State) : (finishUnpack s).mem = s.mem := rfl
@[simp] theorem finishUnpack_epoch (s : State) : (finishUnpack s).epoch = s.epoch := rfl
@[simp] theorem finishUnpack_turns (s : State) : (finishUnpack s).turns = s.turns := rfl
@[simp] theorem finishUnpack_replies (s : State) : (finishUnpack s).replies = s.replies := rfl

/-! ## `State.atTurn` -/

@[simp] theorem State.atTurn_mode (s : State) (t : Turn) : (s.atTurn t).mode = s.mode := rfl
@[simp] theorem State.atTurn_flushReq (s : State) (t : Turn) : (s.atTurn t).flushReq = s.flushReq := rfl
@[simp] theorem State.atTurn_dinValid (s : State) (t : Turn) : (s.atTurn t).dinValid = s.dinValid := rfl
@[simp] theorem State.atTurn_dinData (s : State) (t : Turn) : (s.atTurn t).dinData = s.dinData := rfl
@[simp] theorem State.atTurn_doutValid (s : State) (t : Turn) : (s.atTurn t).doutValid = s.doutValid := rfl
@[simp] theorem State.atTurn_doutData (s : State) (t : Turn) : (s.atTurn t).doutData = s.doutData := rfl
@[simp] theorem State.atTurn_acc (s : State) (t : Turn) : (s.atTurn t).acc = s.acc := rfl
@[simp] theorem State.atTurn_accN (s : State) (t : Turn) : (s.atTurn t).accN = s.accN := rfl
@[simp] theorem State.atTurn_codeActive (s : State) (t : Turn) : (s.atTurn t).codeActive = s.codeActive := rfl
@[simp] theorem State.atTurn_curSym (s : State) (t : Turn) : (s.atTurn t).curSym = s.curSym := rfl
@[simp] theorem State.atTurn_curIdx (s : State) (t : Turn) : (s.atTurn t).curIdx = s.curIdx := rfl
@[simp] theorem State.atTurn_sr (s : State) (t : Turn) : (s.atTurn t).sr = s.sr := rfl
@[simp] theorem State.atTurn_srN (s : State) (t : Turn) : (s.atTurn t).srN = s.srN := rfl
@[simp] theorem State.atTurn_cur (s : State) (t : Turn) : (s.atTurn t).cur = s.cur := rfl
@[simp] theorem State.atTurn_symCount (s : State) (t : Turn) : (s.atTurn t).symCount = s.symCount := rfl
@[simp] theorem State.atTurn_inCount (s : State) (t : Turn) : (s.atTurn t).inCount = s.inCount := rfl
@[simp] theorem State.atTurn_outCount (s : State) (t : Turn) : (s.atTurn t).outCount = s.outCount := rfl
@[simp] theorem State.atTurn_root (s : State) (t : Turn) : (s.atTurn t).root = s.root := rfl
@[simp] theorem State.atTurn_ie (s : State) (t : Turn) : (s.atTurn t).ie = s.ie := rfl
@[simp] theorem State.atTurn_aerr (s : State) (t : Turn) : (s.atTurn t).aerr = s.aerr := rfl
@[simp] theorem State.atTurn_aerrCause (s : State) (t : Turn) : (s.atTurn t).aerrCause = s.aerrCause := rfl
@[simp] theorem State.atTurn_faultCause (s : State) (t : Turn) : (s.atTurn t).faultCause = s.faultCause := rfl
@[simp] theorem State.atTurn_faultInfo (s : State) (t : Turn) : (s.atTurn t).faultInfo = s.faultInfo := rfl
@[simp] theorem State.atTurn_mem (s : State) (t : Turn) : (s.atTurn t).mem = s.mem := rfl
@[simp] theorem State.atTurn_epoch (s : State) (t : Turn) : (s.atTurn t).epoch = s.epoch := rfl
@[simp] theorem State.atTurn_turns (s : State) (t : Turn) : (s.atTurn t).turns = [t] := rfl
@[simp] theorem State.atTurn_replies (s : State) (t : Turn) : (s.atTurn t).replies = s.replies := rfl

/-! ## The views that read one part of the state only -/

@[simp] theorem raiseAccessError_busy (c : AerrCause) (s : State) : (raiseAccessError c s).busy = s.busy := rfl
@[simp] theorem reply_busy (v : Word) (s : State) : (reply v s).busy = s.busy := rfl
@[simp] theorem raiseAccessError_dinReady (c : AerrCause) (s : State) : (raiseAccessError c s).dinReady = s.dinReady := rfl
@[simp] theorem reply_dinReady (v : Word) (s : State) : (reply v s).dinReady = s.dinReady := rfl

theorem State.busy_iff (s : State) : s.busy = true ↔ s.mode = .pack ∨ s.mode = .unpack := by
  simp [State.busy]

theorem State.not_busy_iff (s : State) : s.busy = false ↔ s.mode = .idle ∨ s.mode = .done ∨ s.mode = .fault := by
  cases h : s.mode <;> simp [State.busy, h]

theorem State.accepting_iff (s : State) :
    s.accepting = true ↔ s.mode = .unpack ∨ (s.mode = .pack ∧ s.flushReq = false) := by
  simp [State.accepting]

theorem State.dinReady_iff (s : State) :
    s.dinReady = true ↔ s.dinValid = false ∧ (s.mode = .unpack ∨ (s.mode = .pack ∧ s.flushReq = false)) := by
  simp [State.dinReady, State.accepting]

end Sys2Proof.Machine
end

