-- ==== Sys2Proof/Laws/Engine.lean ====
section
/-! SUPPORT. What each shared operation and each transition can do, said once: later proofs cite these and do not
unfold the step. -/

namespace Sys2Proof.Machine

/-! ## When a step is enabled -/

theorem pTakeEnabled_iff (s : State) :
    pTakeEnabled s = true ↔ s.mode = .pack ∧ s.codeActive = false ∧ s.dinValid = true := by
  simp [pTakeEnabled, and_assoc]

theorem pShiftEnabled_iff (s : State) :
    pShiftEnabled s = true ↔ s.mode = .pack ∧ s.codeActive = true ∧ (s.accN.toNat < 7 ∨ s.doutValid = false) := by
  simp [pShiftEnabled, and_assoc]

theorem pFlushEnabled_iff (s : State) :
    pFlushEnabled s = true ↔
      s.mode = .pack ∧ s.flushReq = true ∧ s.codeActive = false ∧ s.dinValid = false ∧
        (s.accN = 0 ∨ s.doutValid = false) := by
  simp [pFlushEnabled, and_assoc]

theorem uLoadEnabled_iff (s : State) :
    uLoadEnabled s = true ↔ s.mode = .unpack ∧ s.srN = 0 ∧ s.dinValid = true := by
  simp [uLoadEnabled, and_assoc]

theorem uBitEnabled_iff (s : State) :
    uBitEnabled s = true ↔ s.mode = .unpack ∧ 0 < s.srN.toNat ∧ s.doutValid = false := by
  simp [uBitEnabled, and_assoc]

/-! ## The engine steps -/

/-- Every way P_TAKE can answer with a next state. -/
theorem pTake_cases {s t : State} (h : pTake s = .next t) :
    (s.mem.codeLen? s.dinData = some 0 ∧ t = raiseFault .noCode (BitVec.zeroExtend 9 s.dinData) s) ∨
      (∃ len, s.mem.codeLen? s.dinData = some len ∧ len ≠ 0 ∧
        t = { takeDin s with curSym := s.dinData, curIdx := 0, codeActive := true }) := by
  unfold pTake at h
  split at h
  · cases h
  · rename_i len hl
    split at h
    · rename_i h0
      cases h
      exact .inl ⟨h0 ▸ hl, rfl⟩
    · rename_i h0
      cases h
      exact .inr ⟨len, hl, h0, rfl⟩

/-- The one way P_SHIFT can answer with a next state. -/
theorem pShift_cases {s t : State} (h : pShift s = .next t) :
    ∃ b len, s.mem.codeBit? s.curSym s.curIdx = some b ∧ s.mem.codeLen? s.curSym = some len ∧
      t = { shiftInto b s with
            curIdx := s.curIdx + 1
            codeActive := if s.curIdx + 1 = len then false else (shiftInto b s).codeActive } := by
  unfold pShift at h
  split at h
  · cases h
  · rename_i b hb
    split at h
    · cases h
    · rename_i len hl
      cases h
      exact ⟨b, len, hb, hl, rfl⟩

/-- The two things a shift of one bit can do. -/
theorem shiftInto_cases (b : Bool) (s : State) :
    (s.accN = 7 ∧ shiftInto b s =
        { emitOut ((BitVec.zeroExtend 8 s.acc <<< 1) ||| BitVec.zeroExtend 8 (BitVec.ofBool b)) s with
          acc := 0, accN := 0 }) ∨
      (s.accN ≠ 7 ∧ shiftInto b s =
        { s with acc := (s.acc <<< 1) ||| BitVec.zeroExtend 7 (BitVec.ofBool b), accN := s.accN + 1 }) := by
  unfold shiftInto
  split
  · rename_i h; exact .inl ⟨h, rfl⟩
  · rename_i h; exact .inr ⟨h, rfl⟩

/-- The two things P_FLUSH can do. -/
theorem pFlush_cases (s : State) :
    (s.accN = 0 ∧ pFlush s = .next { s with mode := .done }) ∨
      (s.accN ≠ 0 ∧ pFlush s =
        .next { emitOut (BitVec.zeroExtend 8 s.acc <<< (8 - s.accN.toNat)) s with acc := 0, accN := 0, mode := .done }) := by
  unfold pFlush
  by_cases h : s.accN = 0
  · exact .inl ⟨h, by rw [if_pos h]⟩
  · exact .inr ⟨h, by rw [if_neg h]⟩

/-- The two things the emission of a symbol can do. -/
theorem symOut_cases (v : Symbol) (s : State) :
    (s.symCount - 1 = 0 ∧ symOut v s = finishUnpack { emitOut v s with symCount := s.symCount - 1, cur := s.root }) ∨
      (s.symCount - 1 ≠ 0 ∧ symOut v s = { emitOut v s with symCount := s.symCount - 1, cur := s.root }) := by
  unfold symOut
  by_cases h : s.symCount - 1 = 0
  · exact .inl ⟨h, if_pos h⟩
  · exact .inr ⟨h, if_neg h⟩

/-- Every way U_BIT can answer with a next state. -/
theorem uBit_cases {s t : State} (h : uBit s = .next t) :
    (∃ n, s.mem.node? s.cur.toNat = some n ∧ n.leaf = true ∧ s.sr.getLsbD 7 = true ∧ t = raiseFault .badCode s.cur s) ∨
      (∃ n, s.mem.node? s.cur.toNat = some n ∧ n.leaf = true ∧ s.sr.getLsbD 7 = false ∧
        t = symOut n.sym (consume s)) ∨
      (∃ n, s.mem.node? s.cur.toNat = some n ∧ n.leaf = false ∧
        510 < (if s.sr.getLsbD 7 then n.lo else n.hi).toNat ∧ t = raiseFault .badNode s.cur s) ∨
      (∃ n m, s.mem.node? s.cur.toNat = some n ∧ n.leaf = false ∧
        (if s.sr.getLsbD 7 then n.lo else n.hi).toNat ≤ 510 ∧
        s.mem.node? (if s.sr.getLsbD 7 then n.lo else n.hi).toNat = some m ∧ m.leaf = true ∧
        t = symOut m.sym (consume s)) ∨
      (∃ n m, s.mem.node? s.cur.toNat = some n ∧ n.leaf = false ∧
        (if s.sr.getLsbD 7 then n.lo else n.hi).toNat ≤ 510 ∧
        s.mem.node? (if s.sr.getLsbD 7 then n.lo else n.hi).toNat = some m ∧ m.leaf = false ∧
        t = { consume s with cur := if s.sr.getLsbD 7 then n.lo else n.hi }) := by
  unfold uBit at h
  simp only at h
  split at h
  · cases h
  · rename_i n hn
    split at h
    · rename_i hl
      split at h
      · rename_i hb
        cases h
        exact .inl ⟨n, hn, hl, hb, rfl⟩
      · rename_i hb
        cases h
        exact .inr (.inl ⟨n, hn, hl, by simpa using hb, rfl⟩)
    · rename_i hl
      have hl' : n.leaf = false := by simpa using hl
      generalize hnx : (if s.sr.getLsbD 7 = true then n.lo else n.hi) = nxt at h
      split at h
      · rename_i hx
        cases h
        exact .inr (.inr (.inl ⟨n, hn, hl', hnx ▸ hx, rfl⟩))
      · rename_i hx
        have hx' := Nat.le_of_not_lt hx
        split at h
        · cases h
        · rename_i m hm
          split at h
          · rename_i hml
            cases h
            exact .inr (.inr (.inr (.inl ⟨n, m, hn, hl', hnx ▸ hx', hnx ▸ hm, hml, rfl⟩)))
          · rename_i hml
            cases h
            exact .inr (.inr (.inr (.inr ⟨n, m, hn, hl', hnx ▸ hx', hnx ▸ hm, by simpa using hml, by rw [hnx]⟩)))

/-! ## The engine's turn -/

/-- The engine's turn is one enabled step, or nothing. -/
theorem engineTurn_cases (s : State) :
    (pTakeEnabled s = true ∧ engineTurn s = pTake s) ∨ (pShiftEnabled s = true ∧ engineTurn s = pShift s) ∨
      (pFlushEnabled s = true ∧ engineTurn s = pFlush s) ∨ (uLoadEnabled s = true ∧ engineTurn s = uLoad s) ∨
      (uBitEnabled s = true ∧ engineTurn s = uBit s) ∨ (enabledStep s = none ∧ engineTurn s = .next s) := by
  unfold engineTurn enabledStep
  by_cases h1 : pTakeEnabled s
  · exact .inl ⟨h1, by simp [h1, runEngineStep]⟩
  by_cases h2 : pShiftEnabled s
  · exact .inr (.inl ⟨h2, by simp [h1, h2, runEngineStep]⟩)
  by_cases h3 : pFlushEnabled s
  · exact .inr (.inr (.inl ⟨h3, by simp [h1, h2, h3, runEngineStep]⟩))
  by_cases h4 : uLoadEnabled s
  · exact .inr (.inr (.inr (.inl ⟨h4, by simp [h1, h2, h3, h4, runEngineStep]⟩)))
  by_cases h5 : uBitEnabled s
  · exact .inr (.inr (.inr (.inr (.inl ⟨h5, by simp [h1, h2, h3, h4, h5, runEngineStep]⟩))))
  exact .inr (.inr (.inr (.inr (.inr ⟨by simp [h1, h2, h3, h4, h5], by simp [h1, h2, h3, h4, h5]⟩))))

/-! ## Configuration writes -/

/-- The two things a configuration write can do. -/
theorem configWrite_cases (store : State → State) (s : State) :
    (s.busy = true ∧ configWrite store s = raiseAccessError .cfgBusy s) ∨
      (s.busy = false ∧ configWrite store s = store s) := by
  unfold configWrite
  cases h : s.busy <;> simp

/-! ## The step -/

theorem step_nil {s : State} (h : s.turns = []) : step s = engineTurn s := by
  simp [step, h]

@[simp] theorem step_atTurn_engine (s : State) : step (s.atTurn .engine) = engineTurn { s with turns := [] } := rfl

@[simp] theorem step_atTurn_reset (s : State) : step (s.atTurn .reset) = .next (resetTurn { s with turns := [] }) := rfl

theorem step_atTurn_access {s : State} {a : Access} {i : Instr} (h : decode a = .ok i) :
    step (s.atTurn (.access a)) = exec i { s with turns := [] } := by
  simp [step, State.atTurn, h]

/-- Everything a step that answers a next state can be: the engine's turn, a reset, or the meaning of a decoded
access, each in the state with that turn taken. -/
theorem step_cases {s t : State} (h : step s = .next t) :
    (∃ ts, engineTurn { s with turns := ts } = .next t) ∨
      (∃ ts, t = resetTurn { s with turns := ts }) ∨
      (∃ a ts i, s.turns = .access a :: ts ∧ decode a = .ok i ∧ exec i { s with turns := ts } = .next t) := by
  unfold step at h
  split at h
  · rename_i hn
    exact .inl ⟨[], by rw [← hn]; exact h⟩
  · rename_i ts _
    exact .inl ⟨ts, h⟩
  · rename_i ts _
    cases h
    exact .inr (.inl ⟨ts, rfl⟩)
  · rename_i a ts ht
    split at h
    · rename_i i hi
      exact .inr (.inr ⟨a, ts, i, ht, hi, h⟩)
    · cases h

end Sys2Proof.Machine
end

