-- ==== Sys2Proof/Laws/HostRuns.lean ====
section
/-! SUPPORT. What a host's transition can do to the block: one step of a turn, or nothing. So what is said of the runs of
every list of turns is said of the runs of a host that keeps its duties and of the host's procedures. -/

namespace Sys2Proof.Machine

/-- A step of a turn, before the rest of a run. -/
theorem runTurns_cons {t : Turn} {ts : List Turn} {s s' : State} {r : State × Transcript}
    (h : step (s.atTurn t) = .next s') (hr : runTurns ts s' = some r) :
    runTurns (t :: ts) s =
      some (r.1, { fed := fedBy t s ++ r.2.fed, got := gotBy t s ++ r.2.got }) := by
  simp [runTurns, h, hr]

/-- The one way a dutiful turn can answer with a next state: the duty is kept, and the block takes the step of that
turn. -/
theorem dutifulTurn_cases {t : Turn} {h h' : HostSession} {s s' : State}
    (e : dutifulTurn t h s = some (.next (h', s'))) :
    dutyAfter t h s = some h' ∧ step (s.atTurn t) = .next s' := by
  obtain ⟨h₁, hd, hs⟩ := Option.map_eq_some_iff.mp e
  cases hst : step (s.atTurn t) <;> rw [hst] at hs <;> cases hs
  exact ⟨hd, rfl⟩

/-- A run of a host that keeps its duties is a run of its turns. -/
theorem runDutiful_isRun {ts : List Turn} {h h' : HostSession} {s s' : State}
    (e : runDutiful ts h s = some (h', s')) : ∃ tr, runTurns ts s = some (s', tr) := by
  induction ts generalizing h s with
  | nil => cases e; exact ⟨_, rfl⟩
  | cons t ts ih =>
    unfold runDutiful at e
    split at e
    · rename_i h₁ s₁ hd
      obtain ⟨tr, hr⟩ := ih e
      exact ⟨_, runTurns_cons (dutifulTurn_cases hd).2 hr⟩
    all_goals cases e

/-- What one transition of a procedure does to the block: nothing, or the step of one access or of the engine. -/
theorem procedureTurn_cases {m : Bool} {p p' : Procedure} {s s' : State}
    (e : procedureTurn m p s = .next (p', s')) : s' = s ∨ ∃ t, step (s.atTurn t) = .next s' := by
  unfold procedureTurn at e
  split at e
  · cases e; exact .inl rfl
  · split at e <;> cases e
    exact .inr ⟨_, by assumption⟩
  · split at e <;> cases e
    exact .inr ⟨_, by assumption⟩

/-- A run of a procedure is, for the block, a run of some list of turns. -/
theorem runProcedure_isRun {ms : List Bool} {p p' : Procedure} {s s' : State}
    (e : runProcedure ms p s = .next (p', s')) : ∃ ts tr, runTurns ts s = some (s', tr) := by
  induction ms generalizing p s with
  | nil => cases e; exact ⟨[], _, rfl⟩
  | cons m ms ih =>
    unfold runProcedure at e
    split at e
    · rename_i p₁ s₁ hp
      obtain ⟨ts, tr, hr⟩ := ih e
      rcases procedureTurn_cases hp with rfl | ⟨t, ht⟩
      · exact ⟨ts, tr, hr⟩
      · exact ⟨t :: ts, _, runTurns_cons ht hr⟩
    all_goals cases e

end Sys2Proof.Machine
end

