-- ==== Sys2Proof/Laws/Memory.lean ====
section
/-! SUPPORT. The laws of the memory: every write keeps the canonical form, a read gives the last value written there,
and a write leaves every other byte alone; then the same for words and table entries. -/

namespace Sys2Proof.Machine

/-! ## The canonical form -/

theorem Memory.risesFrom_mono {lo lo' : Nat} (h : lo' ≤ lo) :
    ∀ {m : Memory}, m.risesFrom lo = true → m.risesFrom lo' = true
  | [], _ => rfl
  | c :: m, hm => by
    simp only [Memory.risesFrom, Bool.and_eq_true, decide_eq_true_eq] at hm ⊢
    exact ⟨Nat.le_trans h hm.1, hm.2⟩

theorem Memory.writeByte_risesFrom {lo a : Nat} (b : Byte) (ha : lo ≤ a) :
    ∀ {m : Memory}, m.risesFrom lo = true → (m.writeByte a b).risesFrom lo = true
  | [], _ => by simp [Memory.writeByte, Memory.risesFrom, ha]
  | c :: m, hm => by
    simp only [Memory.risesFrom, Bool.and_eq_true, decide_eq_true_eq] at hm
    simp only [Memory.writeByte]
    split
    · simp only [Memory.risesFrom, Bool.and_eq_true, decide_eq_true_eq]
      exact ⟨ha, by omega, hm.2⟩
    · split
      · rename_i h₁ h₂
        subst h₂
        simp only [Memory.risesFrom, Bool.and_eq_true, decide_eq_true_eq]
        exact ⟨ha, hm.2⟩
      · simp only [Memory.risesFrom, Bool.and_eq_true, decide_eq_true_eq]
        exact ⟨hm.1, Memory.writeByte_risesFrom b (by omega) hm.2⟩

/-- A byte write keeps the canonical form. -/
theorem Memory.writeByte_wf (a : Nat) (b : Byte) {m : Memory} (h : m.wf = true) : (m.writeByte a b).wf = true :=
  Memory.writeByte_risesFrom b (Nat.zero_le a) h

/-- A word write keeps the canonical form. -/
theorem Memory.writeWord_wf (a : Nat) (v : Word) {m : Memory} (h : m.wf = true) : (m.writeWord a v).wf = true :=
  writeByte_wf _ _ (writeByte_wf _ _ (writeByte_wf _ _ (writeByte_wf _ _ h)))

theorem Memory.setCodeLen_wf (y : Symbol) (len : Byte) {m : Memory} (h : m.wf = true) :
    (m.setCodeLen y len).wf = true := writeByte_wf _ _ h

theorem Memory.setCodeW_wf (y : Symbol) (k : Nat) (v : Word) {m : Memory} (h : m.wf = true) :
    (m.setCodeW y k v).wf = true := writeWord_wf _ _ h

theorem Memory.setNode_wf (n : Nat) (e : NodeEntry) {m : Memory} (h : m.wf = true) :
    (m.setNode n e).wf = true := writeWord_wf _ _ h

/-- The memory after reset is in canonical form. -/
theorem reset_mem_wf : State.reset.mem.wf = true := rfl

/-! ## Reading bytes -/

/-- A byte reads as it was last written. -/
theorem Memory.readByte_writeByte_same (a : Nat) (b : Byte) : ∀ m : Memory, (m.writeByte a b).readByte a = some b
  | [] => by simp [Memory.writeByte, Memory.readByte]
  | c :: m => by
    simp only [Memory.writeByte]
    split
    · simp [Memory.readByte]
    · split
      · simp [Memory.readByte]
      · rename_i h₁ h₂
        simp only [Memory.readByte, if_neg (Ne.symm h₂)]
        exact Memory.readByte_writeByte_same a b m

/-- A byte write leaves every other byte alone. -/
theorem Memory.readByte_writeByte_other {a x : Nat} (b : Byte) (h : x ≠ a) :
    ∀ m : Memory, (m.writeByte a b).readByte x = m.readByte x
  | [] => by simp [Memory.writeByte, Memory.readByte, Ne.symm h]
  | c :: m => by
    simp only [Memory.writeByte]
    split
    · simp [Memory.readByte, Ne.symm h]
    · split
      · rename_i h₁ h₂
        simp [Memory.readByte, Ne.symm h, ← h₂]
      · simp only [Memory.readByte]
        rw [Memory.readByte_writeByte_other b h m]

theorem Memory.readByte_writeByte (a x : Nat) (b : Byte) (m : Memory) :
    (m.writeByte a b).readByte x = if x = a then some b else m.readByte x := by
  split
  · rename_i h; subst h; exact readByte_writeByte_same _ _ _
  · rename_i h; exact readByte_writeByte_other _ h _

/-- A word write leaves every byte outside its four alone. -/
theorem Memory.readByte_writeWord_other {a x : Nat} (v : Word) (m : Memory) (h : x < a ∨ a + 4 ≤ x) :
    (m.writeWord a v).readByte x = m.readByte x := by
  simp only [Memory.writeWord]
  rw [readByte_writeByte_other _ (by omega), readByte_writeByte_other _ (by omega),
    readByte_writeByte_other _ (by omega), readByte_writeByte_other _ (by omega)]

/-! ## Reading words -/

/-- A word reads as it was last written. -/
theorem Memory.readWord_writeWord_same (a : Nat) (v : Word) (m : Memory) : (m.writeWord a v).readWord a = some v := by
  have e : ∀ v : Word, v.extractLsb' 24 8 ++ v.extractLsb' 16 8 ++ v.extractLsb' 8 8 ++ v.extractLsb' 0 8 = v := by
    intro v
    ext i hi
    simp only [BitVec.getElem_append, BitVec.getElem_extractLsb']
    split
    · simp [BitVec.getLsbD_eq_getElem hi]
    · split
      · rw [← BitVec.getLsbD_eq_getElem hi]; congr 1; omega
      · split
        · rw [← BitVec.getLsbD_eq_getElem hi]; congr 1; omega
        · rw [← BitVec.getLsbD_eq_getElem hi]; congr 1; omega
  simp [Memory.readWord, Memory.writeWord, readByte_writeByte, e v]

/-- A word read elsewhere is as before: the two words share no byte. -/
theorem Memory.readWord_writeWord_other {a x : Nat} (v : Word) (m : Memory) (h : x + 4 ≤ a ∨ a + 4 ≤ x) :
    (m.writeWord a v).readWord x = m.readWord x := by
  simp only [Memory.readWord]
  rw [readByte_writeWord_other v m (x := x) (by omega), readByte_writeWord_other v m (x := x + 1) (by omega),
    readByte_writeWord_other v m (x := x + 2) (by omega), readByte_writeWord_other v m (x := x + 3) (by omega)]

/-- A word read elsewhere is as before a byte write. -/
theorem Memory.readWord_writeByte_other {a x : Nat} (b : Byte) (m : Memory) (h : a < x ∨ x + 4 ≤ a) :
    (m.writeByte a b).readWord x = m.readWord x := by
  simp only [Memory.readWord]
  rw [readByte_writeByte_other b (x := x) (by omega), readByte_writeByte_other b (x := x + 1) (by omega),
    readByte_writeByte_other b (x := x + 2) (by omega), readByte_writeByte_other b (x := x + 3) (by omega)]

/-! ## Where the memory has storage -/

theorem Memory.all_writeByte {p : Nat → Bool} {a : Nat} (b : Byte) (ha : p a = true) :
    ∀ {m : Memory}, (m.all fun c => p c.1) = true → ((m.writeByte a b).all fun c => p c.1) = true
  | [], _ => by simp [Memory.writeByte, ha]
  | c :: m, hm => by
    simp only [List.all_cons, Bool.and_eq_true] at hm
    simp only [Memory.writeByte]
    split
    · simp only [List.all_cons, Bool.and_eq_true]; exact ⟨ha, hm⟩
    · split
      · simp only [List.all_cons, Bool.and_eq_true]; exact ⟨ha, hm.2⟩
      · simp only [List.all_cons, Bool.and_eq_true]; exact ⟨hm.1, Memory.all_writeByte b ha hm.2⟩

theorem Memory.all_writeWord {p : Nat → Bool} {a : Nat} (v : Word) {m : Memory}
    (h0 : p a = true) (h1 : p (a + 1) = true) (h2 : p (a + 2) = true) (h3 : p (a + 3) = true)
    (hm : (m.all fun c => p c.1) = true) : ((m.writeWord a v).all fun c => p c.1) = true :=
  all_writeByte _ h3 (all_writeByte _ h2 (all_writeByte _ h1 (all_writeByte _ h0 hm)))

theorem storedAt_iff (a : Nat) :
    Memory.storedAt a = true ↔
      (0x1000 ≤ a ∧ a < 0x5000 ∧ (a % 0x40 = 0 ∨ (4 ≤ a % 0x40 ∧ a % 0x40 < 0x24))) ∨ (0x8000 ≤ a ∧ a < 0x87FC) := by
  simp only [Memory.storedAt, Bool.or_eq_true, Bool.and_eq_true, decide_eq_true_eq, and_assoc]

theorem storedAt_codeLen (y : Symbol) : Memory.storedAt (codeOffset y 0) = true := by
  have := y.isLt
  rw [storedAt_iff]
  simp only [codeOffset]
  omega

theorem storedAt_codeW (y : Symbol) {k j : Nat} (hk : k < 8) (hj : j < 4) :
    Memory.storedAt (codeOffset y (k + 1) + j) = true := by
  have := y.isLt
  rw [storedAt_iff]
  simp only [codeOffset]
  omega

theorem storedAt_node {n j : Nat} (hn : n < 511) (hj : j < 4) : Memory.storedAt (nodeOffset n + j) = true := by
  rw [storedAt_iff]
  simp only [nodeOffset]
  omega

/-- A write of a CODE_LEN byte stays within the storage. -/
theorem Memory.setCodeLen_stored (y : Symbol) (len : Byte) {m : Memory}
    (h : (m.all fun c => Memory.storedAt c.1) = true) :
    ((m.setCodeLen y len).all fun c => Memory.storedAt c.1) = true :=
  all_writeByte len (storedAt_codeLen y) h

/-- A write of a CODE_W word stays within the storage. -/
theorem Memory.setCodeW_stored (y : Symbol) {k : Nat} (hk : k < 8) (v : Word) {m : Memory}
    (h : (m.all fun c => Memory.storedAt c.1) = true) :
    ((m.setCodeW y k v).all fun c => Memory.storedAt c.1) = true :=
  all_writeWord v (storedAt_codeW (j := 0) y hk (by omega)) (storedAt_codeW y hk (by omega))
    (storedAt_codeW y hk (by omega)) (storedAt_codeW y hk (by omega)) h

/-- A write of a NODE word stays within the storage. -/
theorem Memory.setNode_stored {n : Nat} (hn : n < 511) (e : NodeEntry) {m : Memory}
    (h : (m.all fun c => Memory.storedAt c.1) = true) :
    ((m.setNode n e).all fun c => Memory.storedAt c.1) = true :=
  all_writeWord e.toWord (storedAt_node (j := 0) hn (by omega)) (storedAt_node hn (by omega))
    (storedAt_node hn (by omega)) (storedAt_node hn (by omega)) h

/-! ## Table entries -/

/-- The fields survive the word of an entry. -/
@[simp] theorem NodeEntry.ofWord_toWord (e : NodeEntry) : NodeEntry.ofWord e.toWord = e := by
  obtain ⟨leaf, hi, lo⟩ := e
  simp only [NodeEntry.ofWord, NodeEntry.toWord, NodeEntry.mk.injEq]
  refine ⟨?_, ?_, ?_⟩
  · cases leaf <;> simp
  · ext i h
    have h31 : 16 + i < 31 := by omega
    have h32 : 16 + i < 32 := by omega
    have hlo : lo.getLsbD (16 + i) = false := BitVec.getLsbD_of_ge _ _ (by omega)
    simp [h31, h32, h, hlo]
  · ext i h
    simp [show i < 31 by omega, show i < 16 by omega, show i < 32 by omega, BitVec.getLsbD_eq_getElem h]

/-- CODE_LEN reads as it was last written. -/
@[simp] theorem Memory.codeLen?_setCodeLen_same (m : Memory) (y : Symbol) (len : Byte) :
    (m.setCodeLen y len).codeLen? y = some len := readByte_writeByte_same _ _ _

theorem codeOffset_ne_of_sym_ne {y z : Symbol} (h : z ≠ y) : z.toNat ≠ y.toNat := fun e => h (BitVec.eq_of_toNat_eq e)

/-- A write of one CODE_LEN leaves every other one alone. -/
theorem Memory.codeLen?_setCodeLen_other (m : Memory) {y z : Symbol} (len : Byte) (h : z ≠ y) :
    (m.setCodeLen y len).codeLen? z = m.codeLen? z := by
  have := codeOffset_ne_of_sym_ne h
  exact readByte_writeByte_other len (by simp only [codeOffset]; omega) m

/-- A write of a CODE_W word leaves every CODE_LEN alone. -/
theorem Memory.codeLen?_setCodeW (m : Memory) (y z : Symbol) {k : Nat} (hk : k < 8) (v : Word) :
    (m.setCodeW y k v).codeLen? z = m.codeLen? z :=
  readByte_writeWord_other v m (by simp only [codeOffset]; omega)

/-- A write of a NODE word leaves every CODE_LEN alone. -/
theorem Memory.codeLen?_setNode (m : Memory) (n : Nat) (e : NodeEntry) (z : Symbol) :
    (m.setNode n e).codeLen? z = m.codeLen? z := by
  have := z.isLt
  exact readByte_writeWord_other e.toWord m (by simp only [codeOffset, nodeOffset]; omega)

/-- CODE_W reads as it was last written. -/
@[simp] theorem Memory.codeW?_setCodeW_same (m : Memory) (y : Symbol) (k : Nat) (v : Word) :
    (m.setCodeW y k v).codeW? y k = some v := readWord_writeWord_same _ _ _

/-- A write of one CODE_W word leaves every other one alone. -/
theorem Memory.codeW?_setCodeW_other (m : Memory) {y z : Symbol} {k j : Nat} (hk : k < 8) (hj : j < 8) (v : Word)
    (h : z ≠ y ∨ j ≠ k) : (m.setCodeW y k v).codeW? z j = m.codeW? z j := by
  refine readWord_writeWord_other v m ?_
  simp only [codeOffset]
  rcases h with h | h
  · have := codeOffset_ne_of_sym_ne h
    omega
  · omega

/-- A write of a CODE_LEN leaves every CODE_W word alone. -/
theorem Memory.codeW?_setCodeLen (m : Memory) (y z : Symbol) {j : Nat} (hj : j < 8) (len : Byte) :
    (m.setCodeLen y len).codeW? z j = m.codeW? z j :=
  readWord_writeByte_other len m (by simp only [codeOffset]; omega)

/-- A write of a NODE word leaves every CODE_W word alone. -/
theorem Memory.codeW?_setNode (m : Memory) (n : Nat) (e : NodeEntry) (z : Symbol) {j : Nat} (hj : j < 8) :
    (m.setNode n e).codeW? z j = m.codeW? z j := by
  have := z.isLt
  exact readWord_writeWord_other e.toWord m (by simp only [codeOffset, nodeOffset]; omega)

/-- NODE reads as it was last written. -/
@[simp] theorem Memory.node?_setNode_same (m : Memory) (n : Nat) (e : NodeEntry) :
    (m.setNode n e).node? n = some e := by
  simp [Memory.node?, Memory.setNode, readWord_writeWord_same]

/-- A write of one NODE entry leaves every other one alone. -/
theorem Memory.node?_setNode_other (m : Memory) {n p : Nat} (e : NodeEntry) (h : p ≠ n) :
    (m.setNode n e).node? p = m.node? p := by
  simp only [Memory.node?, Memory.setNode]
  rw [readWord_writeWord_other e.toWord m (by simp only [nodeOffset]; omega)]

/-- A write of a CODE_LEN leaves every NODE entry alone. -/
theorem Memory.node?_setCodeLen (m : Memory) (y : Symbol) (len : Byte) (p : Nat) :
    (m.setCodeLen y len).node? p = m.node? p := by
  have := y.isLt
  simp only [Memory.node?, Memory.setCodeLen]
  rw [readWord_writeByte_other len m (by simp only [codeOffset, nodeOffset]; omega)]

/-- A write of a CODE_W word leaves every NODE entry alone. -/
theorem Memory.node?_setCodeW (m : Memory) (y : Symbol) {k : Nat} (hk : k < 8) (v : Word) (p : Nat) :
    (m.setCodeW y k v).node? p = m.node? p := by
  have := y.isLt
  simp only [Memory.node?, Memory.setCodeW]
  rw [readWord_writeWord_other v m (by simp only [codeOffset, nodeOffset]; omega)]

end Sys2Proof.Machine
end

