-- ==== Sys2Proof/Laws/PerInstr.lean ====
section
/-! SUPPORT. Statements made once per instruction. `WordAccess`: every well-formed instruction is carried by a command
word or by one aligned 32-bit access, the only kind the block takes (20_memory.md R63). -/

namespace Sys2Proof.Laws

/-- An access of 4 bytes at an aligned offset, or a command word (20_memory.md R63, 30_encoding.md R80). -/
def isWordAccess : Access → Bool
  | .cmd _ => true
  | .rd off size => decide (size = 4) && decide (off.toNat % 4 = 0)
  | .wr off size _ => decide (size = 4) && decide (off.toNat % 4 = 0)

/-- A read of a register is a word access. -/
theorem isWordAccess_read (r : Reg) : isWordAccess r.read = true := by cases r <;> rfl

/-- A write of a register is a word access. -/
theorem isWordAccess_write (r : Reg) (v : Word) : isWordAccess (r.write v) = true := by cases r <;> rfl

/-- The encoding of a well-formed instruction is a word access. -/
def WordAccess.Statement (i : Instr) : Prop := i.wellFormed = true → isWordAccess (encode i) = true

namespace WordAccess

theorem nop : Statement .nop := fun _ => rfl
theorem clear : Statement .clear := fun _ => rfl
theorem startPack : Statement .startPack := fun _ => rfl
theorem startUnpack : Statement .startUnpack := fun _ => rfl
theorem flush : Statement .flush := fun _ => rfl
theorem clrAerr : Statement .clrAerr := fun _ => rfl
theorem reserved (w : Word) : Statement (.reserved w) := fun _ => rfl
theorem rdId : Statement .rdId := fun _ => isWordAccess_read _
theorem rdCtrl : Statement .rdCtrl := fun _ => isWordAccess_read _
theorem wrCtrl (w : Word) : Statement (.wrCtrl w) := fun _ => isWordAccess_write _ w
theorem rdStatus : Statement .rdStatus := fun _ => isWordAccess_read _
theorem rdIe : Statement .rdIe := fun _ => isWordAccess_read _
theorem wrIe (v : Word) : Statement (.wrIe v) := fun _ => isWordAccess_write _ v
theorem wrSymcount (v : Word) : Statement (.wrSymcount v) := fun _ => isWordAccess_write _ v
theorem rdSymcount : Statement .rdSymcount := fun _ => isWordAccess_read _
theorem rdRoot : Statement .rdRoot := fun _ => isWordAccess_read _
theorem wrRoot (v : Word) : Statement (.wrRoot v) := fun _ => isWordAccess_write _ v
theorem wrDin (v : Word) : Statement (.wrDin v) := fun _ => isWordAccess_write _ v
theorem rdDin : Statement .rdDin := fun _ => isWordAccess_read _
theorem rdDout : Statement .rdDout := fun _ => isWordAccess_read _
theorem rdInCount : Statement .rdInCount := fun _ => isWordAccess_read _
theorem rdOutCount : Statement .rdOutCount := fun _ => isWordAccess_read _
theorem rdFaultInfo : Statement .rdFaultInfo := fun _ => isWordAccess_read _
theorem rdDbgPack : Statement .rdDbgPack := fun _ => isWordAccess_read _
theorem rdDbgUnpack : Statement .rdDbgUnpack := fun _ => isWordAccess_read _
theorem rdParam : Statement .rdParam := fun _ => isWordAccess_read _
theorem wrId (v : Word) : Statement (.wrId v) := fun _ => isWordAccess_write _ v
theorem wrStatus (v : Word) : Statement (.wrStatus v) := fun _ => isWordAccess_write _ v
theorem wrDout (v : Word) : Statement (.wrDout v) := fun _ => isWordAccess_write _ v
theorem wrInCount (v : Word) : Statement (.wrInCount v) := fun _ => isWordAccess_write _ v
theorem wrOutCount (v : Word) : Statement (.wrOutCount v) := fun _ => isWordAccess_write _ v
theorem wrFaultInfo (v : Word) : Statement (.wrFaultInfo v) := fun _ => isWordAccess_write _ v
theorem wrDbgPack (v : Word) : Statement (.wrDbgPack v) := fun _ => isWordAccess_write _ v
theorem wrDbgUnpack (v : Word) : Statement (.wrDbgUnpack v) := fun _ => isWordAccess_write _ v
theorem wrParam (v : Word) : Statement (.wrParam v) := fun _ => isWordAccess_write _ v

theorem wrCodeLen (y : Symbol) (v : Word) : Statement (.wrCodeLen y v) := fun _ => by
  simp only [encode, isWordAccess, toNat_codeOffset y (show 0 < 9 by decide), codeOffset_aligned]; rfl

theorem wrCodeW (y : Symbol) (k : Fin 8) (v : Word) : Statement (.wrCodeW y k v) := fun _ => by
  simp only [encode, isWordAccess, toNat_codeOffset y (show k.val + 1 < 9 by omega), codeOffset_aligned]; rfl

theorem rdCode (y : Symbol) (j : Fin 9) : Statement (.rdCode y j) := fun _ => by
  simp only [encode, isWordAccess, toNat_codeOffset y j.isLt, codeOffset_aligned]; rfl

theorem wrNode (n : Fin 511) (v : Word) : Statement (.wrNode n v) := fun _ => by
  simp only [encode, isWordAccess, toNat_nodeOffset n.isLt, nodeOffset_aligned]; rfl

theorem rdNode (n : Fin 511) : Statement (.rdNode n) := fun _ => by
  simp only [encode, isWordAccess, toNat_nodeOffset n.isLt, nodeOffset_aligned]; rfl

theorem unmapped (off : Offset) (use : UnmappedUse) : Statement (.unmapped off use) := fun h => by
  simp only [Instr.wellFormed, Bool.and_eq_true, decide_eq_true_eq] at h
  cases use <;> simp [encode, isWordAccess, h.1]

end WordAccess

end Sys2Proof.Laws
end

