-- ==== Sys2Proof/Laws/Progress.lean ====
section
/-! SUPPORT. Progress (70_reset_and_hazards.md R284): under weak fairness of the engine, a pack run and a valid unpack run
of a host that keeps its duties reach DONE. -/

namespace Sys2Proof.Machine

/-! ## Endless runs and their beginnings -/

/-- Every stretch of an endless dutiful run is a run of `runDutiful`. -/
theorem Execution.Dutiful.stretch {e : Execution} (hd : e.Dutiful) (n k : Nat) :
    runDutiful ((List.range' n k).map e.turn) (e.session n) (e.state n) = some (e.session (n + k), e.state (n + k)) := by
  induction k generalizing n with
  | zero => rfl
  | succ k ih =>
    rw [List.range'_succ, List.map_cons, runDutiful, hd n]
    simpa [Nat.add_assoc, Nat.add_comm 1 k] using ih (n + 1)

/-- What a procedure's transition is when `engineMoves` says that it is the engine's turn. -/
theorem procedureTurn_of_engineMoves {m : Bool} {p p' : Procedure} {s s' : State} (h : p.engineMoves m = true)
    (e : procedureTurn m p s = .next (p', s')) : p' = p ∧ step (s.atTurn .engine) = .next s' := by
  unfold procedureTurn at e
  split at e
  · rename_i ht; simp [Procedure.engineMoves, ht] at h
  · rename_i _ ha; simp [Procedure.engineMoves, ha] at h
  · split at e <;> cases e
    exact ⟨rfl, by assumption⟩

/-! ## What a turn within a run does -/

/-- `t` is `s` but for what a run does not look at. -/
def Chatter (s t : State) : Prop :=
  ∃ turns replies ie aerr aerrCause,
    t = { s with turns := turns, replies := replies, ie := ie, aerr := aerr, aerrCause := aerrCause }

/-- What a turn of a run does that neither aborts it nor breaks a duty. -/
inductive Move (t : Turn) (h : HostSession) (s : State) (h' : HostSession) (s' : State) : Prop
  | engine (ht : t = .engine) (hh : h' = h) (hs : engineTurn { s with turns := [] } = .next s')
  | idle (ht : t ≠ .engine) (hc : h'.current = h.current) (hm : s'.mode = s.mode) (hd : s'.doutValid = s.doutValid)
      (hb : s.busy = true → Chatter s s') (hp : ∀ d : Duty, d.owed h s = true → d.paid t s = false)
  | feed (o : Operation) (b : Byte) (bs : List Byte) (hr : s.dinReady = true) (ho : h.current = some o)
      (hb : o.bytes = b :: bs) (hc : h'.current = some { o with bytes := bs })
      (hs : s' = { s with turns := [], dinValid := true, dinData := b })
  | drain (replies : List Word) (hv : s.doutValid = true) (hc : h'.current = h.current)
      (hs : s' = { s with turns := [], replies := replies, doutValid := false, doutData := 0 })
  | flush (hm : s.mode = .pack) (hf : s.flushReq = false) (ho : h.current = some { kind := .pack, bytes := [] })
      (hc : h'.current = h.current) (hs : s' = { s with turns := [], flushReq := true })

/-- A run is in progress: it is not over, and DOUT still holds a byte if it is DONE. -/
def InRun (h : HostSession) (s : State) : Prop :=
  h.current.isSome = true ∧ (s.mode = .pack ∨ s.mode = .unpack ∨ (s.mode = .done ∧ s.doutValid = true))

theorem runOver_of_inRun {h : HostSession} {s : State} (hr : InRun h s) : s.runOver = false := by
  obtain ⟨_, hm | hm | ⟨hm, hd⟩⟩ := hr <;> simp [State.runOver, State.runCompleted, State.runFailed, *]

/-- Within a run no START is allowed. -/
theorem mayStart_of_inRun {h : HostSession} {s : State} (hr : InRun h s) (k : RunKind) : h.mayStart k s = false := by
  have ho := runOver_of_inRun hr
  have hc : h.current.isNone = false := by simpa using hr.1
  unfold HostSession.mayStart
  split <;> simp [ho, hc]

/-- An access that is no write of DIN, no read of DOUT and no FLUSH pays no duty. -/
theorem unpaid {a : Access} {i : Instr} (hd : decode a = .ok i) (s : State) (h1 : ∀ v, i ≠ .wrDin v) (h2 : i ≠ .rdDout)
    (h3 : commandOf i ≠ some .flush) (d : Duty) : d.paid (.access a) s = false := by
  cases d <;> simp only [Duty.paid, fedBy, gotBy, turnCommand, hd]
  · cases i <;> simp_all
  · simpa using h3
  · cases i <;> simp_all

/-- What a CTRL write of a command does, by the command. -/
def perform (c : Command) (s : State) : Result :=
  match c with
  | .nop => execNop s
  | .clear => execClear s
  | .startPack => execStartPack s
  | .startUnpack => execStartUnpack s
  | .flush => execFlush s
  | .clrAerr => execClrAerr s
  | .reserved w => execReserved w s

/-- DIN takes a byte when it is ready. -/
theorem execWrDin_ready (v : Word) {s : State} (h : s.dinReady = true) :
    execWrDin v s = .next { s with dinData := dinOperand v, dinValid := true } := by
  have ⟨h1, h2⟩ : s.dinValid = false ∧ s.accepting = true := by simpa [State.dinReady] using h
  simp [execWrDin, h1, h2]

/-- DIN refuses a byte when it is not ready. -/
theorem execWrDin_refused (v : Word) {s : State} (h : s.dinReady = false) :
    ∃ c, execWrDin v s = .next (raiseAccessError c s) := by
  unfold execWrDin
  cases h2 : s.accepting with
  | false => exact ⟨_, rfl⟩
  | true => exact ⟨.dinOverflow, by have h1 : s.dinValid = true := by { simpa [State.dinReady, h2] using h }; simp [h1]⟩

/-- A command within a run. -/
theorem move_of_command {a : Access} {i : Instr} {c : Command} {h : HostSession} {s s' : State}
    (hd : decode a = .ok i) (hi : commandOf i = some c) (hr : InRun h s) (hm : h.mayCommand c s = true)
    (hx : perform c { s with turns := [] } = .next s') (hc : c ≠ .clear) :
    Move (.access a) h s (h.afterCommand c) s' := by
  have hu (hf : c ≠ .flush) (d : Duty) : d.paid (.access a) s = false :=
    unpaid hd s (by rintro v rfl; simp [commandOf] at hi) (by rintro rfl; simp [commandOf] at hi) (by simpa [hi] using hf) d
  cases c with
  | clear => exact absurd rfl hc
  | startPack => exact absurd hm (by simp [HostSession.mayCommand, mayStart_of_inRun hr])
  | startUnpack => exact absurd hm (by simp [HostSession.mayCommand, mayStart_of_inRun hr])
  | nop => cases hx; exact .idle nofun rfl rfl rfl (fun _ => ⟨_, _, _, _, _, rfl⟩) fun d _ => hu nofun d
  | clrAerr => cases hx; exact .idle nofun rfl rfl rfl (fun _ => ⟨_, _, _, _, _, rfl⟩) fun d _ => hu nofun d
  | reserved w => cases hx; exact .idle nofun rfl rfl rfl (fun _ => ⟨_, _, _, _, _, rfl⟩) fun d _ => hu nofun d
  | flush =>
    have ho : h.current = some { kind := .pack, bytes := [] } := by
      simpa [HostSession.mayCommand, HostSession.mayFlush] using hm
    by_cases hp : s.mode = .pack
    · have hs : s' = { s with turns := [], flushReq := true } := by
        have := (if_pos hp).symm.trans hx
        cases this
        rfl
      cases hf : s.flushReq with
      | false => exact .flush hp hf ho rfl hs
      | true =>
        subst hs
        refine .idle nofun rfl rfl rfl (fun _ => ⟨[], s.replies, s.ie, s.aerr, s.aerrCause, by rw [← hf]⟩) fun d hd' => ?_
        cases d with
        | endInput => simp [Duty.owed, hf] at hd'
        | feed => simp only [Duty.paid, fedBy, hd]; cases i <;> simp [commandOf] at hi ⊢
        | drain => simp only [Duty.paid, gotBy, hd]; cases i <;> simp [commandOf] at hi ⊢
    · have := (if_neg hp).symm.trans hx
      cases this
      refine .idle nofun rfl rfl rfl (fun _ => ⟨_, _, _, _, _, rfl⟩) fun d hd' => ?_
      cases d with
      | endInput => simp [Duty.owed, hp] at hd'
      | feed => simp only [Duty.paid, fedBy, hd]; cases i <;> simp [commandOf] at hi ⊢
      | drain => simp only [Duty.paid, gotBy, hd]; cases i <;> simp [commandOf] at hi ⊢

/-- A configuration write within a run: not while busy, and then no part of the run. -/
theorem move_of_config {a : Access} {h : HostSession} {s : State} (store : State → State)
    (hb : s.busy = false) (hm : (store { s with turns := [] }).mode = s.mode)
    (hv : (store { s with turns := [] }).doutValid = s.doutValid)
    (hu : ∀ d : Duty, d.paid (.access a) s = false) :
    Move (.access a) h s h (configWrite store { s with turns := [] }) := by
  have hb' : State.busy { s with turns := [] } = false := hb
  rcases configWrite_cases store { s with turns := [] } with ⟨hx, _⟩ | ⟨_, hx⟩
  · exact absurd hx (by simp [hb'])
  · rw [hx]
    exact .idle nofun rfl hm hv (fun h => absurd h (by simp [hb])) fun d _ => hu d

/-- An access within a run. -/
theorem move_of_access {a : Access} {i : Instr} {h : HostSession} {s s' : State} (hd : decode a = .ok i)
    (hr : InRun h s) (hm : h.may i s = true) (hx : exec i { s with turns := [] } = .next s')
    (hc : commandOf i ≠ some .clear) : Move (.access a) h s (h.after i s) s' := by
  cases i
  case startPack => exact move_of_command hd rfl hr hm hx (by simp)
  case startUnpack => exact move_of_command hd rfl hr hm hx (by simp)
  case flush => exact move_of_command hd rfl hr hm hx (by simp)
  case wrCtrl w => exact move_of_command hd rfl hr hm hx (by simpa [commandOf] using hc)
  case wrDin v =>
    obtain ⟨o, ho, hb⟩ : ∃ o, h.current = some o ∧ o.bytes.head? = some (dinOperand v) := by
      simpa [HostSession.may, HostSession.mayFeed, Option.bind_eq_some_iff] using (Bool.and_eq_true_iff.mp hm).2
    obtain ⟨bs, hbs⟩ := List.head?_eq_some_iff.mp hb
    by_cases hready : s.dinReady = true
    · have hs : s' = { s with turns := [], dinValid := true, dinData := dinOperand v } := by
        have := (execWrDin_ready v (s := { s with turns := [] }) hready).symm.trans hx
        cases this
        rfl
      exact .feed o _ bs hready ho hbs (by simp [HostSession.after, HostSession.fed, hready, ho, hbs]) hs
    · obtain ⟨c, hs⟩ := execWrDin_refused v (s := { s with turns := [] }) (Bool.eq_false_iff.mpr hready)
      have := hs.symm.trans hx
      cases this
      refine .idle nofun (by simp [HostSession.after, HostSession.fed, hready]) rfl rfl
        (fun _ => ⟨_, _, _, _, _, rfl⟩) fun d _ => ?_
      cases d <;> simp [Duty.paid, fedBy, gotBy, turnCommand, commandOf, hd, hready]
  case rdDout =>
    cases hv : s.doutValid with
    | true =>
      have := (if_pos hv).symm.trans hx
      cases this
      exact .drain _ hv rfl rfl
    | false =>
      have := (if_neg (by simp [hv])).symm.trans hx
      cases this
      refine .idle nofun rfl rfl rfl (fun _ => ⟨_, _, _, _, _, rfl⟩) fun d _ => ?_
      cases d <;> simp [Duty.paid, fedBy, gotBy, turnCommand, commandOf, hd, hv]
  case unmapped off use =>
    have hu := unpaid hd s (by simp) (by simp) (by simp [commandOf])
    cases use <;> cases hx <;>
      exact .idle nofun rfl rfl rfl (fun _ => ⟨_, _, _, _, _, rfl⟩) fun d _ => hu d
  case wrSymcount | wrRoot | wrCodeLen | wrCodeW | wrNode =>
    cases hx
    exact move_of_config _ (by simpa [HostSession.may] using hm) rfl rfl
      (unpaid hd s (by simp) (by simp) (by simp [commandOf]))
  case clear => exact absurd rfl hc
  all_goals
    cases hx
    exact .idle nofun rfl rfl rfl (fun _ => ⟨_, _, _, _, _, rfl⟩)
      (fun d _ => unpaid hd s (by simp) (by simp) (by simp [commandOf]) d)

/-- Every transition of a run that neither aborts it nor breaks a duty. -/
theorem move_of_dutifulTurn {t : Turn} {h h' : HostSession} {s s' : State} (hr : InRun h s)
    (ha : abortsRun t = false) (e : dutifulTurn t h s = some (.next (h', s'))) : Move t h s h' s' := by
  obtain ⟨hd, hs⟩ := dutifulTurn_cases e
  cases t with
  | engine =>
    cases hd
    exact .engine rfl rfl hs
  | reset => simp [abortsRun] at ha
  | access a =>
    simp only [dutyAfter] at hd
    split at hd
    · rename_i i hi
      split at hd
      · rename_i hm
        cases hd
        rw [step_atTurn_access hi] at hs
        exact move_of_access hi hr hm hs (by simpa [abortsRun, turnCommand, hi] using ha)
      · cases hd
    · cases hd

/-! ## The measure of a run -/

/-- The bytes a host has still to give. -/
def HostSession.bytesLeft (h : HostSession) : Nat :=
  match h.current with
  | none => 0
  | some o => o.bytes.length

/-- What is still to be done in a run: by the host, by the engine, and with the byte of DOUT. -/
def runMeasure (h : HostSession) (s : State) : Nat :=
  match s.mode with
  | .pack => 600 * h.bytesLeft + 2 * engineWork s + (if s.flushReq then 0 else 1) + s.doutValid.toNat
  | .unpack => 600 * h.bytesLeft + 2 * engineWork s + s.doutValid.toNat
  | .idle => 0
  | .done => s.doutValid.toNat
  | .fault => 0

/-- A transition that does nothing of what is to be done: it leaves what is enabled and what is owed as they are, takes no
enabled step, and pays no owed duty. -/
structure Idles (t : Turn) (h : HostSession) (s : State) (h' : HostSession) (s' : State) : Prop where
  enabled : ∀ x : EngineStep, x.enabled s' = x.enabled s
  owed : ∀ d : Duty, d.owed h' s' = d.owed h s
  engine : t = .engine → ∀ x : EngineStep, x.enabled s = false
  pays : ∀ d : Duty, d.owed h s = true → d.paid t s = false

/-- What a transition of a run does to its measure. -/
def Advances (R : HostSession → State → Prop) (t : Turn) (h : HostSession) (s : State) (h' : HostSession) (s' : State) :
    Prop :=
  s'.runCompleted = true ∨
    (R h' s' ∧ (runMeasure h' s' < runMeasure h s ∨ (runMeasure h' s' = runMeasure h s ∧ Idles t h s h' s')))

/-- A run in which every transition advances, and in which there is always something to do, reaches DONE. -/
theorem reachesDone_of_advances {e : Execution} (R : HostSession → State → Prop) (hk : e.KeepsDuties)
    (hf : e.WeaklyFair) (ha : ∀ n, abortsRun (e.turn n) = true → ∃ m, 0 < m ∧ m ≤ n ∧ (e.state m).runCompleted = true)
    (hrun : ∀ {h s}, R h s → InRun h s)
    (hmove : ∀ {t h s h' s'}, R h s → Move t h s h' s' → Advances R t h s h' s')
    (hwork : ∀ {h s}, R h s → (∃ x : EngineStep, x.enabled s = true) ∨ ∃ d : Duty, d.owed h s = true)
    (h0 : (e.state 1).runCompleted = true ∨ R (e.session 1) (e.state 1)) : e.ReachesDone := by
  by_contra hn
  have hn' : ∀ m, 0 < m → (e.state m).runCompleted ≠ true := fun m hm hc => hn ⟨m, hm, hc⟩
  have habort : ∀ n, abortsRun (e.turn n) = false := fun n => by
    by_contra h
    obtain ⟨m, hm, _, hc⟩ := ha n (by simpa using h)
    exact hn' m hm hc
  have hstep : ∀ n, R (e.session n) (e.state n) →
      Advances R (e.turn n) (e.session n) (e.state n) (e.session (n + 1)) (e.state (n + 1)) := fun n hr =>
    hmove hr (move_of_dutifulTurn (hrun hr) (habort n) (hk.1 n))
  have hR : ∀ n, R (e.session (n + 1)) (e.state (n + 1)) := fun n => by
    induction n with
    | zero => exact h0.resolve_left (hn' 1 Nat.one_pos)
    | succ n ih => exact ((hstep _ ih).resolve_left (hn' _ (Nat.succ_pos _))).1
  have hadv : ∀ n, _ := fun n => ((hstep _ (hR n)).resolve_left (hn' _ (Nat.succ_pos _))).2
  -- no measure is the last one
  have key : ∀ k n, runMeasure (e.session (n + 1)) (e.state (n + 1)) = k → False := fun k => by
    induction k using Nat.strong_induction_on with
    | _ k ih =>
      intro n hk'
      -- from here on nothing is done
      have hidle : ∀ j,
          runMeasure (e.session (n + j + 1)) (e.state (n + j + 1)) = k ∧
            (∀ x : EngineStep, x.enabled (e.state (n + j + 1)) = x.enabled (e.state (n + 1))) ∧
            ∀ d : Duty, d.owed (e.session (n + j + 1)) (e.state (n + j + 1)) = d.owed (e.session (n + 1)) (e.state (n + 1)) :=
        fun j => by
        induction j with
        | zero => exact ⟨hk', fun _ => rfl, fun _ => rfl⟩
        | succ j ihj =>
          rcases hadv (n + j) with hlt | ⟨he, hi⟩
          · exact (ih _ (ihj.1 ▸ hlt) (n + j + 1) rfl).elim
          · exact ⟨he.trans ihj.1, fun x => (hi.enabled x).trans (ihj.2.1 x), fun d => (hi.owed d).trans (ihj.2.2 d)⟩
      have htail : ∀ m, n + 1 ≤ m → ∃ j, m = n + j + 1 := fun m hm => ⟨m - (n + 1), by omega⟩
      have hquiet : ∀ j, Idles (e.turn (n + j + 1)) (e.session (n + j + 1)) (e.state (n + j + 1))
          (e.session (n + j + 2)) (e.state (n + j + 2)) := fun j => by
        rcases hadv (n + j) with hlt | ⟨_, hi⟩
        · exact (ih _ ((hidle j).1 ▸ hlt) (n + j + 1) rfl).elim
        · exact hi
      rcases hwork (hR n) with ⟨x, hx⟩ | ⟨d, hd⟩
      · obtain ⟨m, hm, hturn⟩ := hf x (n + 1) fun m hm => by
          obtain ⟨j, rfl⟩ := htail m hm
          exact ((hidle j).2.1 x).trans hx
        obtain ⟨j, rfl⟩ := htail m hm
        have := (hquiet j).engine (of_decide_eq_true hturn) x
        rw [(hidle j).2.1 x, hx] at this
        cases this
      · obtain ⟨m, hm, hpaid⟩ := hk.2 d (n + 1) fun m hm => by
          obtain ⟨j, rfl⟩ := htail m hm
          exact ((hidle j).2.2 d).trans hd
        obtain ⟨j, rfl⟩ := htail m hm
        have := (hquiet j).pays d (((hidle j).2.2 d).trans hd)
        rw [hpaid] at this
        cases this
  exact key _ 0 rfl

/-! ## What is common to both kinds of run -/

theorem owed_congr {h h' : HostSession} (s : State) (hc : h'.current = h.current) (d : Duty) :
    d.owed h' s = d.owed h s := by
  cases d <;> simp [Duty.owed, HostSession.mayFlush, hc]

theorem bytesLeft_congr {h h' : HostSession} (hc : h'.current = h.current) : h'.bytesLeft = h.bytesLeft := by
  simp [HostSession.bytesLeft, hc]

theorem runMeasure_congr {h h' : HostSession} (s : State) (hc : h'.current = h.current) :
    runMeasure h' s = runMeasure h s := by
  simp [runMeasure, bytesLeft_congr hc]

/-- No step is enabled when `enabledStep` finds none. -/
theorem enabled_of_none {s : State} (h : enabledStep s = none) (x : EngineStep) : x.enabled s = false := by
  unfold enabledStep at h
  split at h <;> [cases h; skip]
  split at h <;> [cases h; skip]
  split at h <;> [cases h; skip]
  split at h <;> [cases h; skip]
  split at h <;> [cases h; skip]
  cases x <;> simp_all [EngineStep.enabled]

/-- A run that is DONE with a byte still in DOUT. -/
structure Draining (h : HostSession) (s : State) : Prop where
  current : h.current.isSome = true
  mode : s.mode = .done
  dout : s.doutValid = true

theorem Draining.enabled {h : HostSession} {s : State} (hd : Draining h s) (x : EngineStep) : x.enabled s = false := by
  cases x <;>
    simp [EngineStep.enabled, pTakeEnabled, pShiftEnabled, pFlushEnabled, uLoadEnabled, uBitEnabled, hd.mode]

theorem Draining.owes {h : HostSession} {s : State} (hd : Draining h s) : Duty.owed h s .drain = true := by
  simp [Duty.owed, State.runOver, State.runCompleted, State.runFailed, hd.current, hd.mode, hd.dout]

theorem Draining.owed {h : HostSession} {s : State} (hd : Draining h s) (d : Duty) :
    d.owed h s = decide (d = .drain) := by
  cases d with
  | drain => exact hd.owes
  | feed => simp [Duty.owed, State.dinReady, State.accepting, hd.mode]
  | endInput => simp [Duty.owed, hd.mode]

theorem Draining.measure {h : HostSession} {s : State} (hd : Draining h s) : runMeasure h s = 1 := by
  simp [runMeasure, hd.mode, hd.dout]

/-- A transition that advances from a state that differs only in the turns to come. -/
theorem Advances.of_turns {R : HostSession → State → Prop} {t : Turn} {h h' : HostSession} {s s' : State}
    (ha : Advances R t h { s with turns := [] } h' s') : Advances R t h s h' s' := by
  rcases ha with hc | ⟨hr, hlt | ⟨he, hi⟩⟩
  · exact .inl hc
  · exact .inr ⟨hr, .inl hlt⟩
  · exact .inr ⟨hr, .inr ⟨he, hi.enabled, hi.owed, hi.engine, hi.pays⟩⟩

/-- A transition that does nothing of the run. -/
theorem advances_of_chatter {R : HostSession → State → Prop} {t : Turn} {h h' : HostSession} {s s' : State}
    (hch : Chatter s s') (hc : h'.current = h.current) (hr : R h' s')
    (he : t = .engine → ∀ x : EngineStep, x.enabled s = false)
    (hp : ∀ d : Duty, d.owed h s = true → d.paid t s = false) : Advances R t h s h' s' := by
  obtain ⟨_, _, _, _, _, rfl⟩ := hch
  exact .inr ⟨hr, .inr ⟨runMeasure_congr s hc, fun x => by cases x <;> rfl,
    fun d => (owed_congr s hc d ▸ by cases d <;> rfl), he, hp⟩⟩

/-- The engine's turn pays no duty. -/
theorem paid_engine (s : State) (d : Duty) : d.paid .engine s = false := by cases d <;> rfl

/-- What a transition does while a run is drained. -/
theorem Draining.advances {R : HostSession → State → Prop} {t : Turn} {h h' : HostSession} {s s' : State}
    (hd : Draining h s) (hR : ∀ {h s}, Draining h s → R h s) (hm : Move t h s h' s') : Advances R t h s h' s' := by
  cases hm with
  | engine ht hh hs =>
    have hn : engineTurn { s with turns := [] } = .next { s with turns := [] } := by
      have hx := hd.enabled
      have : enabledStep { s with turns := [] } = none := by
        simp [enabledStep, pTakeEnabled, pShiftEnabled, pFlushEnabled, uLoadEnabled, uBitEnabled, hd.mode]
      simp [engineTurn, this]
    have := hn.symm.trans hs
    cases this
    subst hh
    exact advances_of_chatter ⟨_, _, _, _, _, rfl⟩ rfl (hR ⟨hd.current, hd.mode, hd.dout⟩) (fun _ => hd.enabled)
      fun d _ => by rw [ht]; exact paid_engine s d
  | idle ht hc hm hdv hb hp =>
    have hd' : Draining h' s' := ⟨hc ▸ hd.current, hm.trans hd.mode, hdv.trans hd.dout⟩
    exact .inr ⟨hR hd', .inr ⟨hd'.measure.trans hd.measure.symm, fun x => (hd'.enabled x).trans (hd.enabled x).symm,
      fun d => (hd'.owed d).trans (hd.owed d).symm, fun h => absurd h ht, hp⟩⟩
  | feed o b bs hr => simp [State.dinReady, State.accepting, hd.mode] at hr
  | drain replies hv hc hs => subst hs; exact .inl (by simp [State.runCompleted, hd.mode])
  | flush hm => simp [hd.mode] at hm

/-! ## The pack run -/

/-- A pack run in progress, of symbols that all have codes. -/
structure PackRun (h : HostSession) (s : State) : Prop where
  mode : s.mode = .pack
  current : ∃ bs, h.current = some { kind := .pack, bytes := bs } ∧ (s.flushReq = true → bs = []) ∧
    ∀ b ∈ bs, s.mem.codeLen? b ≠ some 0
  din : s.dinValid = true → s.mem.codeLen? s.dinData ≠ some 0
  active : s.codeActive = true → ∃ len, s.mem.codeLen? s.curSym = some len ∧ s.curIdx.toNat < len.toNat

/-- A pack run until it is completed. -/
def PackOrDrain (h : HostSession) (s : State) : Prop := PackRun h s ∨ Draining h s

theorem PackRun.measure {h : HostSession} {s : State} (hr : PackRun h s) :
    runMeasure h s =
      600 * h.bytesLeft + 2 * engineWork s + (if s.flushReq then 0 else 1) + s.doutValid.toNat := by
  simp [runMeasure, hr.mode]

theorem PackRun.work {h : HostSession} {s : State} (hr : PackRun h s) :
    engineWork s = (if s.codeActive then ((s.mem.codeLen? s.curSym).getD 0).toNat - s.curIdx.toNat else 0)
      + (if s.dinValid then 257 else 0) + 1 := by
  simp [engineWork, hr.mode]

/-- There is always something to do in a pack run. -/
theorem PackRun.hasWork {h : HostSession} {s : State} (hr : PackRun h s) :
    (∃ x : EngineStep, x.enabled s = true) ∨ ∃ d : Duty, d.owed h s = true := by
  obtain ⟨bs, hc, hf, _⟩ := hr.current
  cases hv : s.doutValid with
  | true =>
    exact .inr ⟨.drain, by simp [Duty.owed, State.runOver, State.runCompleted, State.runFailed, hc, hr.mode, hv]⟩
  | false =>
    cases ha : s.codeActive with
    | true => exact .inl ⟨.pShift, (pShiftEnabled_iff s).mpr ⟨hr.mode, ha, .inr hv⟩⟩
    | false =>
      cases hd : s.dinValid with
      | true => exact .inl ⟨.pTake, (pTakeEnabled_iff s).mpr ⟨hr.mode, ha, hd⟩⟩
      | false =>
        cases hq : s.flushReq with
        | true => exact .inl ⟨.pFlush, (pFlushEnabled_iff s).mpr ⟨hr.mode, hq, ha, hd, .inr hv⟩⟩
        | false =>
          cases bs with
          | nil => exact .inr ⟨.endInput, by simp [Duty.owed, HostSession.mayFlush, hc, hr.mode, hq]⟩
          | cons b bs => exact .inr ⟨.feed, by simp [Duty.owed, State.dinReady, State.accepting, hc, hr.mode, hq, hd]⟩

/-- What the engine's turn does in a pack run. -/
theorem PackRun.engine {h : HostSession} {s s' : State} (hr : PackRun h s) (hs : engineTurn s = .next s') :
    Advances PackOrDrain .engine h s h s' := by
  obtain ⟨bs, hc, hf, hcodes⟩ := hr.current
  have hm := hr.measure
  have hw := hr.work
  rcases engineTurn_cases s with ⟨he, hx⟩ | ⟨he, hx⟩ | ⟨he, hx⟩ | ⟨he, hx⟩ | ⟨he, hx⟩ | ⟨he, hx⟩
  · -- P_TAKE
    obtain ⟨_, ha, hd⟩ := (pTakeEnabled_iff s).mp he
    rcases pTake_cases (hx ▸ hs) with ⟨h0, _⟩ | ⟨len, hl, h0, rfl⟩
    · exact absurd h0 (hr.din hd)
    · have hpos : 0 < len.toNat := by
        rcases Nat.eq_zero_or_pos len.toNat with h | h
        · exact absurd (BitVec.eq_of_toNat_eq h) h0
        · exact h
      have hr' : PackRun h { takeDin s with curSym := s.dinData, curIdx := 0, codeActive := true } :=
        ⟨hr.mode, ⟨bs, hc, hf, hcodes⟩, nofun, fun _ => ⟨len, hl, hpos⟩⟩
      refine .inr ⟨.inl hr', .inl ?_⟩
      have hlen : len.toNat < 256 := len.isLt
      rw [hm, hw, hr'.measure, hr'.work]
      simp [takeDin, ha, hd, hl]
      omega
  · -- P_SHIFT
    obtain ⟨_, ha, _⟩ := (pShiftEnabled_iff s).mp he
    obtain ⟨len, hl, hi⟩ := hr.active ha
    obtain ⟨b, len', _, hl', rfl⟩ := pShift_cases (hx ▸ hs)
    cases hl.symm.trans hl'
    have hlen : len.toNat < 256 := len.isLt
    have hi1 : (s.curIdx + 1).toNat = s.curIdx.toNat + 1 := by
      rw [BitVec.toNat_add]
      exact Nat.mod_eq_of_lt (by simpa using (by omega : s.curIdx.toNat + 1 < 256))
    have hne : s.curIdx + 1 ≠ len → s.curIdx.toNat + 1 < len.toNat := fun hne => by
      have : (s.curIdx + 1).toNat ≠ len.toNat := fun h => hne (BitVec.eq_of_toNat_eq h)
      omega
    generalize hs1 : ({ shiftInto b s with
      curIdx := s.curIdx + 1
      codeActive := if s.curIdx + 1 = len then false else (shiftInto b s).codeActive } : State) = s1
    have hkeep : s1.mode = s.mode ∧ s1.flushReq = s.flushReq ∧ s1.mem = s.mem ∧ s1.dinValid = s.dinValid ∧
        s1.dinData = s.dinData ∧ s1.curSym = s.curSym ∧ s1.curIdx = s.curIdx + 1 ∧
        s1.codeActive = decide (s.curIdx + 1 ≠ len) := by
      subst hs1
      rcases shiftInto_cases b s with ⟨_, h⟩ | ⟨_, h⟩ <;> rw [h] <;> simp [emitOut, ha]
    obtain ⟨k1, k2, k3, k4, k5, k6, k7, k8⟩ := hkeep
    have hr' : PackRun h s1 := by
      refine ⟨k1.trans hr.mode, ⟨bs, hc, k2 ▸ hf, k3 ▸ hcodes⟩, by rw [k3, k4, k5]; exact hr.din, fun h => ?_⟩
      rw [k8] at h
      exact ⟨len, by rw [k3, k6]; exact hl, by rw [k7, hi1]; exact hne (of_decide_eq_true h)⟩
    refine .inr ⟨.inl hr', .inl ?_⟩
    rw [hm, hw, hr'.measure, hr'.work, k2, k3, k4, k6, k7, k8, hi1, hl]
    have h1 : s1.doutValid.toNat ≤ 1 := Bool.toNat_le _
    simp only [ha, Option.getD_some, if_true]
    split <;> omega
  · -- P_FLUSH
    obtain ⟨_, hq, ha, hd, _⟩ := (pFlushEnabled_iff s).mp he
    have hlt : ∀ t : State, t.mode = .done → runMeasure h t < runMeasure h s := fun t ht => by
      have h1 : t.doutValid.toNat ≤ 1 := Bool.toNat_le _
      rw [hm, hw]
      simp [runMeasure, ht]
      omega
    have hdone : s'.mode = .done := by
      have := hx.symm.trans hs
      cases this
      rfl
    cases hv : s'.doutValid with
    | false => exact .inl (by simp [State.runCompleted, hdone, hv])
    | true => exact .inr ⟨.inr ⟨by simp [hc], hdone, hv⟩, .inl (hlt s' hdone)⟩
  · simp [uLoadEnabled, hr.mode] at he
  · simp [uBitEnabled, hr.mode] at he
  · cases hx.symm.trans hs
    exact advances_of_chatter ⟨_, _, _, _, _, rfl⟩ rfl (.inl hr) (fun _ => enabled_of_none he) fun d _ => paid_engine s d

/-- What a transition does in a pack run. -/
theorem PackRun.advances {t : Turn} {h h' : HostSession} {s s' : State} (hr : PackRun h s) (hm : Move t h s h' s') :
    Advances PackOrDrain t h s h' s' := by
  obtain ⟨bs, hc, hf, hcodes⟩ := hr.current
  cases hm with
  | engine ht hh hs =>
    subst ht hh
    exact .of_turns (PackRun.engine ⟨hr.mode, hr.current, hr.din, hr.active⟩ hs)
  | idle ht hc' _ _ hb hp =>
    have hch := hb (by simp [State.busy, hr.mode])
    refine advances_of_chatter hch hc' (.inl ?_) (fun h => absurd h ht) hp
    obtain ⟨_, _, _, _, _, rfl⟩ := hch
    exact ⟨hr.mode, ⟨bs, hc'.trans hc, hf, hcodes⟩, hr.din, hr.active⟩
  | feed o b bs' hready ho hb hc' hs =>
    cases hc.symm.trans ho
    obtain rfl : bs = b :: bs' := hb
    have hq : s.flushReq = false ∧ s.dinValid = false := by
      simpa [State.dinReady, State.accepting, hr.mode, and_comm] using hready
    have hr' : PackRun h' s' := by
      subst hs
      exact ⟨hr.mode, ⟨bs', hc', by simp [hq.1], fun x hx => hcodes x (List.mem_cons_of_mem _ hx)⟩,
        fun _ => hcodes b List.mem_cons_self, hr.active⟩
    refine .inr ⟨.inl hr', .inl ?_⟩
    have hl : h.bytesLeft = bs'.length + 1 := by simp [HostSession.bytesLeft, hc]
    have hl' : h'.bytesLeft = bs'.length := by simp [HostSession.bytesLeft, hc']
    rw [hr.measure, hr.work, hr'.measure, hr'.work, hl, hl']
    subst hs
    simp [hq.2]
    omega
  | drain replies hv hc' hs =>
    have hr' : PackRun h' s' := by
      subst hs
      exact ⟨hr.mode, ⟨bs, hc'.trans hc, hf, hcodes⟩, hr.din, hr.active⟩
    refine .inr ⟨.inl hr', .inl ?_⟩
    rw [hr.measure, hr.work, hr'.measure, hr'.work, bytesLeft_congr hc']
    subst hs
    simp [hv]
  | flush _ hq ho hc' hs =>
    cases hc.symm.trans ho
    have hr' : PackRun h' s' := by
      subst hs
      exact ⟨hr.mode, ⟨[], hc'.trans hc, fun _ => rfl, nofun⟩, hr.din, hr.active⟩
    refine .inr ⟨.inl hr', .inl ?_⟩
    rw [hr.measure, hr.work, hr'.measure, hr'.work, bytesLeft_congr hc']
    subst hs
    simp [hq]

/-- A turn that performs a command: the duty is kept, and the command is performed. -/
theorem dutifulTurn_command {t : Turn} {c : Command} {h h' : HostSession} {s s' : State}
    (ht : turnCommand t = some c) (e : dutifulTurn t h s = some (.next (h', s'))) :
    h.mayCommand c s = true ∧ h' = h.afterCommand c ∧ perform c { s with turns := [] } = .next s' := by
  obtain ⟨hd, hs⟩ := dutifulTurn_cases e
  cases t with
  | engine => cases ht
  | reset => cases ht
  | access a =>
    simp only [dutyAfter, turnCommand] at hd ht
    split at hd
    · rename_i i hi
      simp only [hi] at ht
      rw [step_atTurn_access hi] at hs
      split at hd
      · rename_i hm
        cases hd
        cases i <;> cases ht <;> exact ⟨hm, rfl, hs⟩
      · cases hd
    · cases hd

/-- What a START needs of the host (45_host_protocol.md R220). -/
theorem mayStart_cases {h : HostSession} {k : RunKind} {s : State} (hm : h.mayStart k s = true) :
    ∃ o, h.waiting.head? = some o ∧ o.kind = k ∧ (s.mode = .idle ∨ s.mode = .done) ∧ o.enough s = true := by
  unfold HostSession.mayStart at hm
  split at hm
  · cases hm
  · rename_i o os ho
    simp only [Bool.and_eq_true, decide_eq_true_eq] at hm
    exact ⟨o, by rw [ho]; rfl, hm.1.1.1.1, hm.1.1.2, hm.2⟩

/-- A pack run begins. -/
theorem packRun_of_start {t : Turn} {h h' : HostSession} {s s' : State} {o : Operation}
    (ht : turnCommand t = some .startPack) (e : dutifulTurn t h s = some (.next (h', s')))
    (ho : h.waiting.head? = some o) (hcodes : ∀ b ∈ o.bytes, s.mem.codeLen? b ≠ some 0) : PackRun h' s' := by
  obtain ⟨hm, rfl, hs⟩ := dutifulTurn_command ht e
  obtain ⟨o', ho', hkind, hmode, _⟩ := mayStart_cases hm
  cases ho.symm.trans ho'
  cases (if_pos hmode).symm.trans hs
  obtain ⟨k, bs⟩ := o
  cases hkind
  exact ⟨rfl, ⟨bs, ho, nofun, hcodes⟩, nofun, nofun⟩

/-- R284, the pack run: a host that keeps its duties brings a pack run of symbols that all have codes to DONE, beside a
weakly fair engine. -/
theorem pack_run_reachesDone {e : Execution} {o : Operation} (hk : e.KeepsDuties) (hf : e.WeaklyFair)
    (hr : e.Runs .startPack o) (hcodes : ∀ b ∈ o.bytes, (e.state 0).mem.codeLen? b ≠ some 0) : e.ReachesDone := by
  refine reachesDone_of_advances PackOrDrain hk hf hr.2.2 (fun h => ?_) (fun h hm => ?_) (fun h => ?_)
    (.inr (.inl (packRun_of_start hr.1 (hk.1 0) hr.2.1 hcodes)))
  · rcases h with h | h
    · obtain ⟨bs, hc, _⟩ := h.current
      exact ⟨by simp [hc], .inl h.mode⟩
    · exact ⟨h.current, .inr (.inr ⟨h.mode, h.dout⟩)⟩
  · rcases h with h | h
    · exact h.advances hm
    · exact h.advances .inr hm
  · rcases h with h | h
    · exact h.hasWork
    · exact .inr ⟨.drain, h.owes⟩

/-! ## The unpack run -/

/-- The bits the block holds and has not consumed: those of SR, then those of DIN. -/
def State.pendingBits (s : State) : Bits :=
  (bitsOfByte s.sr).take s.srN.toNat ++ if s.dinValid then bitsOfByte s.dinData else []

/-- An unpack run in progress, whose walk over the bits held and the bytes still to come ends with all its symbols. -/
structure UnpackRun (h : HostSession) (s : State) : Prop where
  mode : s.mode = .unpack
  srN : s.srN.toNat ≤ 8
  count : s.symCount ≠ 0
  walk : ∃ bs out rest, h.current = some { kind := .unpack, bytes := bs } ∧
    treeWalk (fun n => s.mem.node? n) s.root s.symCount.toNat s.cur (s.pendingBits ++ bitsMsb bs) = .symbols out rest

/-- An unpack run until it is completed. -/
def UnpackOrDrain (h : HostSession) (s : State) : Prop := UnpackRun h s ∨ Draining h s

theorem UnpackRun.measure {h : HostSession} {s : State} (hr : UnpackRun h s) :
    runMeasure h s = 600 * h.bytesLeft + 2 * (s.srN.toNat + if s.dinValid then 9 else 0) + s.doutValid.toNat := by
  simp [runMeasure, engineWork, hr.mode]

theorem symCount_succ {s : State} (h : s.symCount ≠ 0) : s.symCount.toNat = (s.symCount - 1).toNat + 1 := by
  bv_omega

/-- A walk that must still give a symbol does not end with the bits. -/
theorem UnpackRun.bits_left {h : HostSession} {s : State} (hr : UnpackRun h s) (hn : s.srN.toNat = 0)
    (hd : s.dinValid = false) : ∃ b bs, h.current = some { kind := .unpack, bytes := b :: bs } := by
  obtain ⟨bs, out, rest, hc, hw⟩ := hr.walk
  cases bs with
  | cons b bs => exact ⟨b, bs, hc⟩
  | nil =>
    rw [symCount_succ hr.count] at hw
    simp [State.pendingBits, hn, hd, bitsMsb, treeWalk] at hw

/-- There is always something to do in an unpack run. -/
theorem UnpackRun.hasWork {h : HostSession} {s : State} (hr : UnpackRun h s) :
    (∃ x : EngineStep, x.enabled s = true) ∨ ∃ d : Duty, d.owed h s = true := by
  obtain ⟨bs, _, _, hc, _⟩ := hr.walk
  cases hv : s.doutValid with
  | true =>
    exact .inr ⟨.drain, by simp [Duty.owed, State.runOver, State.runCompleted, State.runFailed, hc, hr.mode, hv]⟩
  | false =>
    rcases Nat.eq_zero_or_pos s.srN.toNat with hn | hn
    · cases hd : s.dinValid with
      | true => exact .inl ⟨.uLoad, (uLoadEnabled_iff s).mpr ⟨hr.mode, BitVec.eq_of_toNat_eq hn, hd⟩⟩
      | false =>
        obtain ⟨b, bs, hc⟩ := hr.bits_left hn hd
        exact .inr ⟨.feed, by simp [Duty.owed, State.dinReady, State.accepting, hc, hr.mode, hd]⟩
    · exact .inl ⟨.uBit, (uBitEnabled_iff s).mpr ⟨hr.mode, hn, hv⟩⟩

/-- The first bit held is bit 7 of SR, and U_BIT leaves the rest. -/
theorem pendingBits_consume {s : State} (h0 : 0 < s.srN.toNat) (h8 : s.srN.toNat ≤ 8) :
    s.pendingBits = s.sr.getLsbD 7 :: (consume s).pendingBits ∧ (consume s).srN.toNat = s.srN.toNat - 1 := by
  have hn : (s.srN - 1).toNat = s.srN.toNat - 1 := by bv_omega
  refine ⟨?_, hn⟩
  obtain ⟨k, hk⟩ : ∃ k, s.srN.toNat = k + 1 := ⟨s.srN.toNat - 1, by omega⟩
  have hk7 : k ≤ 7 := by omega
  simp only [State.pendingBits, consume, hn, hk, Nat.add_sub_cancel, ← List.cons_append]
  congr 1
  have hb : bitsOfByte (s.sr <<< 1) =
      [s.sr.getLsbD 6, s.sr.getLsbD 5, s.sr.getLsbD 4, s.sr.getLsbD 3, s.sr.getLsbD 2, s.sr.getLsbD 1, s.sr.getLsbD 0]
        ++ [false] := by
    simp [bitsOfByte]
  rw [hb, List.take_append_of_le_length (by simpa using hk7)]
  rfl

/-- One bit of a walk that ends with all its symbols: a symbol out, or a move. -/
theorem treeWalk_step {node : Nat → Option NodeEntry} {root cur : NodeIdx} {k : Nat} {b : Bool} {x : Bits}
    {out : List Symbol} {rest : Bits} (hw : treeWalk node root (k + 1) cur (b :: x) = .symbols out rest) :
    (∃ y out', bitEffect node cur b = .symbol y ∧ treeWalk node root k root x = .symbols out' rest) ∨
      ∃ n, bitEffect node cur b = .move n ∧ treeWalk node root (k + 1) n x = .symbols out rest := by
  rw [treeWalk] at hw
  split at hw
  · rename_i y hy
    cases hk : treeWalk node root k root x with
    | symbols out' rest' =>
      rw [hk] at hw
      cases hw
      exact .inl ⟨y, out', hy, rfl⟩
    | short => rw [hk] at hw; cases hw
    | faulted c => rw [hk] at hw; cases hw
    | uninit => rw [hk] at hw; cases hw
  · rename_i n hn
    exact .inr ⟨n, hn, hw⟩
  all_goals cases hw

/-- U_BIT does what one bit of the walk does. -/
theorem uBit_of_bitEffect {s s' : State} (hs : uBit s = .next s') :
    (∀ y, bitEffect (fun n => s.mem.node? n) s.cur (s.sr.getLsbD 7) = .symbol y → s' = symOut y (consume s)) ∧
      ∀ n, bitEffect (fun n => s.mem.node? n) s.cur (s.sr.getLsbD 7) = .move n → s' = { consume s with cur := n } := by
  rcases uBit_cases hs with ⟨n, hn, hl, hb, rfl⟩ | ⟨n, hn, hl, hb, rfl⟩ | ⟨n, hn, hl, hx, rfl⟩ |
    ⟨n, m, hn, hl, hx, hm, hml, rfl⟩ | ⟨n, m, hn, hl, hx, hm, hml, rfl⟩
  · simp only [bitEffect, hn, hl, hb, if_true]
    exact ⟨nofun, nofun⟩
  · simp only [bitEffect, hn, hl, hb, Bool.false_eq_true, if_false, if_true]
    exact ⟨fun y h => by cases h; rfl, nofun⟩
  · simp only [bitEffect, hn, hl, hx, Bool.false_eq_true, if_false, if_true]
    exact ⟨nofun, nofun⟩
  · simp only [bitEffect, hn, hl, hm, hml, Bool.false_eq_true, if_false, if_true, Nat.not_lt.mpr hx]
    exact ⟨fun y h => by cases h; rfl, nofun⟩
  · simp only [bitEffect, hn, hl, hm, hml, Bool.false_eq_true, if_false, Nat.not_lt.mpr hx]
    exact ⟨nofun, fun y h => by cases h; rfl⟩

/-- What the engine's turn does in an unpack run. -/
theorem UnpackRun.engine {h : HostSession} {s s' : State} (hr : UnpackRun h s) (hs : engineTurn s = .next s') :
    Advances UnpackOrDrain .engine h s h s' := by
  obtain ⟨bs, out, rest, hc, hw⟩ := hr.walk
  have hm := hr.measure
  rcases engineTurn_cases s with ⟨he, hx⟩ | ⟨he, hx⟩ | ⟨he, hx⟩ | ⟨he, hx⟩ | ⟨he, hx⟩ | ⟨he, hx⟩
  · simp [pTakeEnabled, hr.mode] at he
  · simp [pShiftEnabled, hr.mode] at he
  · simp [pFlushEnabled, hr.mode] at he
  · -- U_LOAD
    obtain ⟨_, hn, hd⟩ := (uLoadEnabled_iff s).mp he
    cases hx.symm.trans hs
    have hr' : UnpackRun h { takeDin s with sr := s.dinData, srN := 8 } := by
      refine ⟨hr.mode, Nat.le_refl 8, hr.count, bs, out, rest, hc, ?_⟩
      rw [← hw]
      simp [State.pendingBits, takeDin, hn, hd, bitsOfByte]
    refine .inr ⟨.inl hr', .inl ?_⟩
    rw [hm, hr'.measure]
    simp [takeDin, hn, hd]
  · -- U_BIT
    obtain ⟨_, hn, hv⟩ := (uBitEnabled_iff s).mp he
    have h8 := hr.srN
    obtain ⟨hp, hcn⟩ := pendingBits_consume hn h8
    obtain ⟨hsym, hmv⟩ := uBit_of_bitEffect (hx.symm.trans hs)
    rw [hp, symCount_succ hr.count, List.cons_append] at hw
    rcases treeWalk_step hw with ⟨y, out', hy, hw'⟩ | ⟨n, hy, hw'⟩
    · obtain rfl := hsym y hy
      rcases symOut_cases y (consume s) with ⟨_, h1⟩ | ⟨h0, h1⟩
      · have hd : Draining h (symOut y (consume s)) := by rw [h1]; exact ⟨by simp [hc], rfl, rfl⟩
        refine .inr ⟨.inr hd, .inl ?_⟩
        rw [hd.measure, hm]
        omega
      · have hr' : UnpackRun h (symOut y (consume s)) := by
          rw [h1]
          exact ⟨hr.mode, hcn.le.trans (by omega), h0, bs, out', rest, hc, hw'⟩
        refine .inr ⟨.inl hr', .inl ?_⟩
        rw [hm, hr'.measure, h1]
        show 600 * h.bytesLeft + 2 * ((consume s).srN.toNat + if s.dinValid then 9 else 0) + true.toNat < _
        rw [hcn, hv, Bool.toNat_true, Bool.toNat_false]
        omega
    · obtain rfl := hmv n hy
      have hr' : UnpackRun h { consume s with cur := n } := by
        refine ⟨hr.mode, hcn.le.trans (by omega), hr.count, bs, out, rest, hc, ?_⟩
        rw [← symCount_succ hr.count] at hw'
        exact hw'
      refine .inr ⟨.inl hr', .inl ?_⟩
      rw [hm, hr'.measure]
      show 600 * h.bytesLeft + 2 * ((consume s).srN.toNat + if s.dinValid then 9 else 0) + s.doutValid.toNat < _
      rw [hcn]
      omega
  · cases hx.symm.trans hs
    exact advances_of_chatter ⟨_, _, _, _, _, rfl⟩ rfl (.inl hr) (fun _ => enabled_of_none he) fun d _ => paid_engine s d

/-- What a transition does in an unpack run. -/
theorem UnpackRun.advances {t : Turn} {h h' : HostSession} {s s' : State} (hr : UnpackRun h s)
    (hm : Move t h s h' s') : Advances UnpackOrDrain t h s h' s' := by
  obtain ⟨bs, out, rest, hc, hw⟩ := hr.walk
  cases hm with
  | engine ht hh hs =>
    subst ht hh
    exact .of_turns (UnpackRun.engine ⟨hr.mode, hr.srN, hr.count, hr.walk⟩ hs)
  | idle ht hc' _ _ hb hp =>
    have hch := hb (by simp [State.busy, hr.mode])
    refine advances_of_chatter hch hc' (.inl ?_) (fun h => absurd h ht) hp
    obtain ⟨_, _, _, _, _, rfl⟩ := hch
    exact ⟨hr.mode, hr.srN, hr.count, bs, out, rest, hc'.trans hc, hw⟩
  | feed o b bs' hready ho hb hc' hs =>
    cases hc.symm.trans ho
    obtain rfl : bs = b :: bs' := hb
    have hd : s.dinValid = false := by simpa [State.dinReady, State.accepting, hr.mode] using hready
    have hr' : UnpackRun h' s' := by
      subst hs
      refine ⟨hr.mode, hr.srN, hr.count, bs', out, rest, hc', ?_⟩
      rw [← hw]
      simp [State.pendingBits, hd, bitsMsb]
    refine .inr ⟨.inl hr', .inl ?_⟩
    have hl : h.bytesLeft = bs'.length + 1 := by simp [HostSession.bytesLeft, hc]
    have hl' : h'.bytesLeft = bs'.length := by simp [HostSession.bytesLeft, hc']
    rw [hr.measure, hr'.measure, hl, hl']
    subst hs
    simp [hd]
    omega
  | drain replies hv hc' hs =>
    have hr' : UnpackRun h' s' := by
      subst hs
      exact ⟨hr.mode, hr.srN, hr.count, bs, out, rest, hc'.trans hc, hw⟩
    refine .inr ⟨.inl hr', .inl ?_⟩
    rw [hr.measure, hr'.measure, bytesLeft_congr hc']
    subst hs
    simp [hv]
  | flush hm => simp [hr.mode] at hm

/-- An unpack run begins, or is completed at once. -/
theorem unpackRun_of_start {t : Turn} {h h' : HostSession} {s s' : State} {o : Operation}
    (ht : turnCommand t = some .startUnpack) (e : dutifulTurn t h s = some (.next (h', s')))
    (ho : h.waiting.head? = some o) (hroot : s.root.toNat ≤ 510)
    (hvalid : ∃ out rest,
      treeWalk (fun n => s.mem.node? n) s.root s.symCount.toNat s.root (bitsMsb o.bytes) = .symbols out rest) :
    s'.runCompleted = true ∨ UnpackRun h' s' := by
  obtain ⟨hm, rfl, hs⟩ := dutifulTurn_command ht e
  obtain ⟨o', ho', hkind, hmode, _⟩ := mayStart_cases hm
  cases ho.symm.trans ho'
  have hx := (if_pos hmode).symm.trans hs
  by_cases h0 : s.symCount = 0
  · cases (if_pos h0).symm.trans hx
    exact .inl rfl
  · cases (if_neg (Nat.not_lt.mpr hroot)).symm.trans ((if_neg h0).symm.trans hx)
    obtain ⟨out, rest, hw⟩ := hvalid
    obtain ⟨k, bs⟩ := o
    cases hkind
    exact .inr ⟨rfl, Nat.zero_le 8, h0, bs, out, rest, ho, hw⟩

/-- R284, the unpack run: a host that keeps its duties brings a valid unpack run with enough bytes to DONE, beside a weakly
fair engine. The run is valid when ROOT is an entry and the walk of the tree over the payload gives SYMCOUNT symbols. -/
theorem unpack_run_reachesDone {e : Execution} {o : Operation} (hk : e.KeepsDuties) (hf : e.WeaklyFair)
    (hr : e.Runs .startUnpack o) (hroot : (e.state 0).root.toNat ≤ 510)
    (hvalid : ∃ out rest,
      treeWalk (fun n => (e.state 0).mem.node? n) (e.state 0).root (e.state 0).symCount.toNat (e.state 0).root
        (bitsMsb o.bytes) = .symbols out rest) : e.ReachesDone := by
  refine reachesDone_of_advances UnpackOrDrain hk hf hr.2.2 (fun h => ?_) (fun h hm => ?_) (fun h => ?_)
    ((unpackRun_of_start hr.1 (hk.1 0) hr.2.1 hroot hvalid).imp id .inl)
  · rcases h with h | h
    · obtain ⟨bs, _, _, hc, _⟩ := h.walk
      exact ⟨by simp [hc], .inr (.inl h.mode)⟩
    · exact ⟨h.current, .inr (.inr ⟨h.mode, h.dout⟩)⟩
  · rcases h with h | h
    · exact h.advances hm
    · exact h.advances .inr hm
  · rcases h with h | h
    · exact h.hasWork
    · exact .inr ⟨.drain, h.owes⟩

end Sys2Proof.Machine
end

