-- ==== Sys2Proof/Tests/Slice0.lean ====
section
/-! SUPPORT. Tests of one decode or one transition against the vectors of 95_test_vectors.md, and a state that meets the
hypotheses of each statement that has hypotheses. -/

namespace Sys2Proof.Tests

open Sys2Proof Sys2Proof.Machine

/-! ## Helpers -/

/-- The next state, if there is one. -/
def next? (r : Result) : Option State :=
  match r with
  | .next t => some t
  | .fault _ => none
  | .refused _ => none

/-- One part of the next state. -/
def after {α : Type} (f : State → α) (r : Result) : Option α := (next? r).map f

/-- The reset state in another mode. -/
def inMode (m : Mode) : State := { State.reset with mode := m }

/-- A memory of NODE entries 0, 1, 2, ... -/
def nodeMemory (ws : List Word) : Memory :=
  (ws.zipIdx).foldl (fun m p => m.setNode p.2 (NodeEntry.ofWord p.1)) []

/-- A memory with one code of at most 32 bits. -/
def codeMemory (y : Symbol) (len : Byte) (w0 : Word) : Memory := Memory.setCodeW (Memory.setCodeLen [] y len) y 0 w0

/-- A pack run on that memory. -/
def packing (m : Memory) : State := { inMode .pack with mem := m }

/-- An unpack run of the tree of 95_test_vectors.md V-T1. -/
def unpacking : State :=
  { inMode .unpack with
    mem := nodeMemory [0x80000041, 0x80000042, 0x80000043, 0x00020001, 0x00000003]
    root := 4, cur := 4, symCount := 10 }

/-- An unpack run of the lone leaf of 95_test_vectors.md V-T2. -/
def unpackingLone : State := { inMode .unpack with mem := nodeMemory [0x8000005A], symCount := 3 }

/-! ## Well-formedness refuses ill-formed terms -/

/-- An assigned command is not RESERVED (30_encoding.md R81, R83). -/
theorem test_wf_reserved_assigned : Instr.wellFormed (.reserved 0x00000005) = false := by decide

/-- 30_encoding.md R83, vectors V-E2 and V-E3. -/
theorem test_wf_reserved :
    Instr.wellFormed (.reserved 0x00000006) = true ∧ Instr.wellFormed (.reserved 0x00000102) = true := by decide

/-- An unmapped access is aligned (20_memory.md R63). -/
theorem test_wf_unmapped_misaligned : Instr.wellFormed (.unmapped 0x5001 .read) = false := by decide

/-- An offset that names a register, a table word or an entry is not unmapped (10_state.md R31). -/
theorem test_wf_unmapped_mapped :
    Instr.wellFormed (.unmapped 0x0034 .read) = false ∧ Instr.wellFormed (.unmapped 0x1020 (.write 1)) = false ∧
      Instr.wellFormed (.unmapped 0x87F8 .read) = false := by decide

/-! ## Decoding words written out from the spec -/

/-- 30_encoding.md R81, vectors V-E1 to V-E3. -/
theorem test_decode_commands :
    decode (.cmd 0x00000000) = .ok .nop ∧ decode (.cmd 0x00000001) = .ok .clear ∧
    decode (.cmd 0x00000002) = .ok .startPack ∧ decode (.cmd 0x00000003) = .ok .startUnpack ∧
    decode (.cmd 0x00000004) = .ok .flush ∧ decode (.cmd 0x00000005) = .ok .clrAerr ∧
    decode (.cmd 0x00000006) = .ok (.reserved 0x00000006) ∧ decode (.cmd 0x000000FF) = .ok (.reserved 0x000000FF) ∧
    decode (.cmd 0x00000102) = .ok (.reserved 0x00000102) ∧
    decode (.cmd 0x80000002) = .ok (.reserved 0x80000002) := by decide

/-- 10_state.md R31, the offsets of the registers read. -/
theorem test_decode_register_reads :
    decode (.rd 0x000 4) = .ok .rdId ∧ decode (.rd 0x004 4) = .ok .rdCtrl ∧ decode (.rd 0x008 4) = .ok .rdStatus ∧
    decode (.rd 0x00C 4) = .ok .rdIe ∧ decode (.rd 0x010 4) = .ok .rdSymcount ∧ decode (.rd 0x014 4) = .ok .rdRoot ∧
    decode (.rd 0x018 4) = .ok .rdDin ∧ decode (.rd 0x01C 4) = .ok .rdDout ∧
    decode (.rd 0x020 4) = .ok .rdInCount ∧ decode (.rd 0x024 4) = .ok .rdOutCount ∧
    decode (.rd 0x028 4) = .ok .rdFaultInfo ∧ decode (.rd 0x02C 4) = .ok .rdDbgPack ∧
    decode (.rd 0x030 4) = .ok .rdDbgUnpack ∧ decode (.rd 0x034 4) = .ok .rdParam := by decide

/-- 10_state.md R31, the offsets of the registers written. -/
theorem test_decode_register_writes :
    decode (.wr 0x000 4 7) = .ok (.wrId 7) ∧ decode (.wr 0x004 4 7) = .ok (.wrCtrl 7) ∧
    decode (.wr 0x008 4 7) = .ok (.wrStatus 7) ∧ decode (.wr 0x00C 4 7) = .ok (.wrIe 7) ∧
    decode (.wr 0x010 4 7) = .ok (.wrSymcount 7) ∧ decode (.wr 0x014 4 7) = .ok (.wrRoot 7) ∧
    decode (.wr 0x018 4 7) = .ok (.wrDin 7) ∧ decode (.wr 0x01C 4 7) = .ok (.wrDout 7) ∧
    decode (.wr 0x020 4 7) = .ok (.wrInCount 7) ∧ decode (.wr 0x024 4 7) = .ok (.wrOutCount 7) ∧
    decode (.wr 0x028 4 7) = .ok (.wrFaultInfo 7) ∧ decode (.wr 0x02C 4 7) = .ok (.wrDbgPack 7) ∧
    decode (.wr 0x030 4 7) = .ok (.wrDbgUnpack 7) ∧ decode (.wr 0x034 4 7) = .ok (.wrParam 7) := by decide

/-- Vectors V-E10 and V-E11: the offsets of the table words. -/
theorem test_decode_tables :
    decode (.wr 0x2040 4 1) = .ok (.wrCodeLen 0x41 1) ∧ decode (.wr 0x2084 4 9) = .ok (.wrCodeW 0x42 0 9) ∧
    decode (.wr 0x4FE0 4 9) = .ok (.wrCodeW 0xFF 7 9) ∧ decode (.rd 0x1000 4) = .ok (.rdCode 0x00 0) ∧
    decode (.rd 0x4FE0 4) = .ok (.rdCode 0xFF 8) ∧ decode (.wr 0x8000 4 9) = .ok (.wrNode 0 9) ∧
    decode (.rd 0x800C 4) = .ok (.rdNode 3) ∧ decode (.rd 0x87F8 4) = .ok (.rdNode 510) := by decide

/-- 20_memory.md R69, the ends of the four ranges; vectors V-REG18 to V-REG20. -/
theorem test_decode_unmapped :
    decode (.rd 0x0038 4) = .ok (.unmapped 0x0038 .read) ∧ decode (.rd 0x0FFC 4) = .ok (.unmapped 0x0FFC .read) ∧
    decode (.wr 0x1024 4 1) = .ok (.unmapped 0x1024 (.write 1)) ∧
    decode (.rd 0x4FFC 4) = .ok (.unmapped 0x4FFC .read) ∧ decode (.rd 0x5000 4) = .ok (.unmapped 0x5000 .read) ∧
    decode (.rd 0x7FFC 4) = .ok (.unmapped 0x7FFC .read) ∧
    decode (.wr 0x87FC 4 1) = .ok (.unmapped 0x87FC (.write 1)) ∧
    decode (.rd 0xFFFC 4) = .ok (.unmapped 0xFFFC .read) := by decide

/-- Vector V-REG24: a halfword write, and a word write at 006, are refused. -/
theorem test_decode_refuses :
    decode (.wr 0x004 2 2) = .error (.notAWord 2) ∧ decode (.wr 0x006 4 2) = .error (.misaligned 0x006) := by decide

/-- Words of spec/opcode_table.json: FLUSH, STATUS, CODE word 0 of symbol 0x41, NODE 3 and an unmapped offset. -/
theorem test_decodeTableWord :
    decodeTableWord 32 0x00000004 = some .flush ∧ decodeTableWord 16 0x0008 = some .rdStatus ∧
    decodeTableWord 16 0x2040 = some (.rdCode 0x41 0) ∧ decodeTableWord 16 0x800C = some (.rdNode 3) ∧
    decodeTableWord 16 0x5000 = some (.unmapped 0x5000 .read) := by decide

/-- A word of the table runs as the first transition after reset (vector V-CMD1). -/
theorem test_withFetchWord :
    after State.statusWord (step (State.reset.withFetchWord 32 0x00000002)) = some 0x00010001 := by decide

/-! ## Commands (vectors V-CMD) -/

/-- V-CMD1. -/
theorem test_startPack : after State.statusWord (exec .startPack State.reset) = some 0x00010001 := by decide

/-- V-CMD15: the byte in DOUT is lost. -/
theorem test_startPack_drops_dout :
    after (fun t => (t.mode, t.doutValid))
      (exec .startPack { inMode .done with doutValid := true, doutData := 0xF4 }) = some (.pack, false) := by decide

/-- V-CMD2. -/
theorem test_startUnpack :
    after (fun t => (t.statusWord, t.dbgUnpackWord, t.srN))
      (exec .startUnpack { State.reset with symCount := 10, root := 4 }) = some (0x00010002, 0x00040000, 0) := by decide

/-- V-CMD4. -/
theorem test_startUnpack_bad_root :
    after (fun t => (t.statusWord, t.faultInfo)) (exec .startUnpack { State.reset with symCount := 5, root := 511 })
      = some (0x00002004, 0x1FF) := by decide

/-- V-CMD3: SYMCOUNT is checked first. -/
theorem test_startUnpack_none :
    after State.statusWord (exec .startUnpack { State.reset with root := 511 }) = some 0x00000003 := by decide

/-- V-CMD7. -/
theorem test_flush_idle : after State.statusWord (exec .flush State.reset) = some 0x00000240 := by decide

/-- V-CMD9. -/
theorem test_flush_twice :
    next? (exec .flush { inMode .pack with flushReq := true }) = some { inMode .pack with flushReq := true } := by decide

/-- V-CMD10. -/
theorem test_reserved : after State.statusWord (exec (.reserved 0x00000006) State.reset) = some 0x00000140 := by decide

/-- V-CMD11: decode comes before the state check. -/
theorem test_wrCtrl_reserved :
    after (fun t => t.aerrCause) (exec (.wrCtrl 0x00000106) (inMode .pack)) = some .cmdReserved := by decide

/-- V-CMD5: a command refused in FAULT keeps the fault. -/
theorem test_wrCtrl_startPack_in_fault :
    after State.statusWord (exec (.wrCtrl 0x00000002) { inMode .fault with faultCause := .badCode })
      = some 0x00003244 := by decide

/-- V-CMD12. -/
theorem test_nop :
    next? (exec .nop { inMode .pack with dinValid := true, dinData := 0x41 })
      = some { inMode .pack with dinValid := true, dinData := 0x41 } := by decide

/-- V-CMD13. -/
theorem test_clear :
    after (fun t => (t.statusWord, t.faultInfo, t.symCount, t.root, t.ie))
      (exec .clear { inMode .fault with
        faultCause := .noCode, faultInfo := 0x44, aerr := true, aerrCause := .dinOverflow, symCount := 7, root := 4
        ie := 2 }) = some (0x00000000, 0, 7, 4, 2) := by decide

/-- V-CMD14. -/
theorem test_clrAerr :
    after (fun t => (t.mode, t.aerr, t.aerrCause))
      (exec .clrAerr { inMode .done with aerr := true, aerrCause := .dinOverflow }) = some (.done, false, .none) := by
  decide

/-! ## Registers (vectors V-REG) -/

/-- V-REG1. -/
theorem test_rdId_rdParam :
    after State.replies (exec .rdId State.reset) = some [0x48425055] ∧
      after State.replies (exec .rdParam State.reset) = some [0x01FF00FF] := by decide

/-- V-REG18: CTRL, DIN and an unmapped offset read 0. -/
theorem test_reads_of_zero :
    after State.replies (exec .rdCtrl (inMode .pack)) = some [0] ∧
      after State.replies (exec .rdDin { inMode .pack with dinValid := true, dinData := 0x41 }) = some [0] ∧
      after State.replies (exec (.unmapped 0x1024 .read) (inMode .fault)) = some [0] := by decide

/-- V-REG2. -/
theorem test_ie :
    after State.ie (exec (.wrIe 0xFFFFFFFF) (inMode .pack)) = some 0x1F ∧
      after State.replies (exec .rdIe { State.reset with ie := 0x1F }) = some [0x0000001F] := by decide

/-- V-REG3. -/
theorem test_root :
    after State.root (exec (.wrRoot 0x00000204) State.reset) = some 4 ∧
      after State.replies (exec .rdRoot { State.reset with root := 4 }) = some [0x00000004] := by decide

/-- V-REG7: SYMCOUNT is not written while busy; not busy, it takes the word. -/
theorem test_wrSymcount :
    after (fun t => (t.symCount, t.aerrCause)) (exec (.wrSymcount 5) unpacking) = some (10, .cfgBusy) ∧
      after (fun t => (t.symCount, t.aerr)) (exec (.wrSymcount 0x80000005) State.reset) = some (0x80000005, false) := by
  decide

/-- V-REG13: bits 31:8 of a DIN write are ignored. -/
theorem test_wrDin :
    after (fun t => (t.dinData, t.dinValid)) (exec (.wrDin 0x00000141) (inMode .pack)) = some (0x41, true) := by decide

/-- V-REG10, V-REG11: DIN_OVERFLOW, and DIN_STATE before it. -/
theorem test_wrDin_refused :
    after State.statusWord (exec (.wrDin 0x42) { inMode .pack with dinValid := true, dinData := 0x41 })
      = some 0x00000351 ∧
    after State.statusWord
      (exec (.wrDin 0x41) { inMode .pack with flushReq := true, dinValid := true, dinData := 0x42 })
      = some 0x00000459 := by decide

/-- V-REG15: a byte 0 is not an empty DOUT. -/
theorem test_rdDout_zero_byte :
    after (fun t => (t.replies, t.doutValid)) (exec .rdDout { inMode .done with doutValid := true, doutData := 0x00 })
      = some ([0x00000100], false) := by decide

/-- V-REG14, the second read. -/
theorem test_rdDout_empty : after State.replies (exec .rdDout (inMode .done)) = some [0x00000000] := by decide

/-- V-REG22 and V-REG23. -/
theorem test_debug_reads :
    after State.replies (exec .rdDbgPack { inMode .pack with accN := 5 }) = some [0x00000005] ∧
      after State.replies (exec .rdDbgUnpack { inMode .unpack with sr := 0x80, srN := 8 }) = some [0x00000880] := by
  decide

/-- Program P7's dp2: every field of DBG_PACK. -/
theorem test_rdDbgPack_fields :
    after State.replies
      (exec .rdDbgPack
        { inMode .pack with accN := 7, codeActive := true, acc := 0x7F, curSym := 0x01, curIdx := 6 })
      = some [0x060107FF] := by decide

/-- Program P6: STATUS in FAULT with DIN still full and the interrupt up, and FAULT_INFO. -/
theorem test_rdStatus_rdFaultInfo :
    after State.replies
      (exec .rdStatus
        { inMode .fault with
          dinValid := true, dinData := 0x44, faultCause := .noCode, faultInfo := 0x44, ie := 2 })
      = some [0x00001094] ∧
    after State.replies (exec .rdFaultInfo { inMode .fault with faultCause := .noCode, faultInfo := 0x44 })
      = some [0x00000044] := by decide

/-- 41_register_access.md R126, R131: the counters read whole. -/
theorem test_counter_reads :
    after State.replies (exec .rdSymcount { State.reset with symCount := 0xFFFFFFFE }) = some [0xFFFFFFFE] ∧
      after State.replies (exec .rdInCount { State.reset with inCount := 10 }) = some [10] ∧
      after State.replies (exec .rdOutCount { State.reset with outCount := 0x00010002 }) = some [0x00010002] := by
  decide

/-- V-REG17: a write of STATUS; V-REG16: a write of DOUT does not pop. -/
theorem test_readonly_writes :
    after State.statusWord (exec (.wrStatus 0) State.reset) = some 0x00000640 ∧
      after (fun t => (t.doutValid, t.aerrCause)) (exec (.wrDout 0) { State.reset with doutValid := true })
        = some (true, .badAddr) := by decide

/-- V-REG21: the first cause is kept. -/
theorem test_first_cause_kept :
    after (fun t => t.aerrCause) (exec (.wrDin 0x41) { State.reset with aerr := true, aerrCause := .cmdReserved })
      = some .cmdReserved := by decide

/-! ## Tables (vectors V-REG4 to V-REG8) -/

/-- V-REG5 and V-REG6. -/
theorem test_wrCodeLen :
    after (fun t => t.mem.codeLen? 0x41) (exec (.wrCodeLen 0x41 1) State.reset) = some (some 1) ∧
      after (fun t => t.mem.codeLen? 0x00) (exec (.wrCodeLen 0x00 0x00000100) State.reset) = some (some 0) := by decide

/-- V-E9: bit 43 of the code is bit 20 of W1. -/
theorem test_wrCodeW :
    after (fun t => (t.mem.codeBit? 0x42 42, t.mem.codeBit? 0x42 43)) (exec (.wrCodeW 0x42 1 0xFFE00000) State.reset)
      = some (some true, some false) := by decide

/-- V-REG5: the length reads back. -/
theorem test_rdCode :
    after State.replies (exec (.rdCode 0x41 0) { State.reset with mem := codeMemory 0x41 1 0 }) = some [0x00000001] ∧
      after State.replies (exec (.rdCode 0x42 1) { State.reset with mem := codeMemory 0x42 2 0xC0000000 })
        = some [0xC0000000] := by decide

/-- V-REG4: the ignored bits of a NODE word read 0. -/
theorem test_rdNode :
    after State.replies (exec (.rdNode 0) { State.reset with mem := nodeMemory [0xFFFFFFFF] }) = some [0x81FF01FF] := by
  decide

/-- V-REG8: a NODE write while busy. -/
theorem test_wrNode_busy :
    after (fun t => (t.mem, t.aerrCause)) (exec (.wrNode 0 0x80000041) (inMode .pack)) = some ([], .cfgBusy) := by decide

/-- The NODE word of V-T1's entry 3: LEFT 2, RIGHT 1. -/
theorem test_wrNode :
    after (fun t => t.mem.node? 3) (exec (.wrNode 3 0x00020001) State.reset)
      = some (some { leaf := false, hi := 2, lo := 1 }) := by decide

/-- V-REG19. -/
theorem test_unmapped_write :
    after (fun t => t.aerrCause) (exec (.unmapped 0x87FC (.write 1)) State.reset) = some .badAddr := by decide

/-! ## Packer (vectors V-P) -/

/-- V-P1. -/
theorem test_pTake :
    after (fun t => (t.curSym, t.curIdx, t.codeActive, t.dinValid, t.inCount))
      (engineTurn { packing (codeMemory 0x42 2 0xC0000000) with dinValid := true, dinData := 0x42 })
      = some (0x42, 0, true, false, 1) := by decide

/-- V-P2. -/
theorem test_pTake_noCode :
    after (fun t => (t.statusWord, t.faultInfo, t.dinData, t.inCount, t.accN))
      (engineTurn
        { packing (codeMemory 0x44 0 0) with dinValid := true, dinData := 0x44, inCount := 1, accN := 1 })
      = some (0x00001014, 0x44, 0x44, 1, 1) := by decide

/-- V-X3: an unwritten length. -/
theorem test_pTake_uninit :
    engineTurn { inMode .pack with dinValid := true, dinData := 0x41 } = .fault (.uninit 0x2040) := by rfl

/-- V-P3. -/
theorem test_pShift_emits :
    after (fun t => (t.doutData, t.doutValid, t.accN, t.outCount))
      (engineTurn
        { packing (codeMemory 0x42 2 0xC0000000) with
          accN := 7, acc := 0x03, codeActive := true, curSym := 0x42 }) = some (0x07, true, 0, 1) := by decide

/-- V-P5: the seventh bit needs no DOUT. -/
theorem test_pShift_seventh :
    after (fun t => (t.accN, t.outCount))
      (engineTurn
        { packing (codeMemory 0x42 2 0xC0000000) with
          accN := 6, codeActive := true, curSym := 0x42, doutValid := true }) = some (7, 0) := by decide

/-- V-P4: the wait for DOUT. -/
theorem test_pShift_waits :
    enabledStep { packing (codeMemory 0x42 2 0xC0000000) with
      accN := 7, codeActive := true, curSym := 0x42, doutValid := true } = none := by decide

/-- V-P6. -/
theorem test_pFlush :
    after (fun t => (t.doutData, t.mode)) (engineTurn { inMode .pack with flushReq := true, accN := 7, acc := 0x7A })
      = some (0xF4, .done) := by decide

/-- V-P9: nothing pending, so no byte, and a full DOUT does not matter. -/
theorem test_pFlush_nothing_pending :
    after (fun t => (t.doutData, t.doutValid, t.outCount, t.mode))
      (engineTurn { inMode .pack with flushReq := true, doutValid := true, doutData := 0xFE })
      = some (0xFE, true, 0, .done) := by decide

/-- V-P11: a symbol in DIN is packed before the flush. -/
theorem test_pTake_before_pFlush :
    enabledStep { inMode .pack with flushReq := true, dinValid := true } = some .pTake := by decide

/-! ## Unpacker (vectors V-U) -/

/-- V-U1. -/
theorem test_uLoad :
    after (fun t => (t.sr, t.srN, t.dinValid, t.inCount)) (engineTurn { unpacking with dinValid := true, dinData := 0x07 })
      = some (0x07, 8, false, 1) := by decide

/-- V-U2: a 1 bit to an Internal child. -/
theorem test_uBit_moves :
    after (fun t => (t.cur, t.sr, t.srN, t.doutValid)) (engineTurn { unpacking with sr := 0xE0, srN := 3 })
      = some (3, 0xC0, 2, false) := by decide

/-- V-U3: a 1 bit to a Leaf. -/
theorem test_uBit_emits :
    after (fun t => (t.doutData, t.symCount, t.cur)) (engineTurn { unpacking with sr := 0xC0, srN := 2, cur := 3 })
      = some (0x42, 9, 4) := by decide

/-- V-U5: the lone leaf on a 0 bit. -/
theorem test_uBit_lone_leaf :
    after (fun t => (t.doutData, t.srN, t.symCount, t.cur)) (engineTurn { unpackingLone with sr := 0x00, srN := 8 })
      = some (0x5A, 7, 2, 0) := by decide

/-- V-U6: the lone leaf on a 1 bit. -/
theorem test_uBit_badCode :
    after (fun t => (t.statusWord, t.faultInfo, t.dbgUnpackWord)) (engineTurn { unpackingLone with sr := 0x80, srN := 8 })
      = some (0x00003004, 0, 0x00000880) := by decide

/-- V-U7: the child 511. -/
theorem test_uBit_badNode :
    after (fun t => (t.statusWord, t.faultInfo))
      (engineTurn
        { inMode .unpack with
          mem := nodeMemory [0x000101FF, 0x80000058], symCount := 1, sr := 0x80, srN := 8 })
      = some (0x00002004, 0) := by decide

/-- V-U9: the last symbol discards the rest of SR and the byte in DIN. -/
theorem test_uBit_last :
    after (fun t => (t.doutData, t.sr, t.srN, t.dinValid, t.mode, t.inCount))
      (engineTurn { unpacking with symCount := 1, sr := 0x07, srN := 8, dinValid := true, dinData := 0xF4 })
      = some (0x41, 0, 0, false, .done, 0) := by decide

/-! ## Interrupt and reset (vectors V-I, V-X) -/

/-- V-I1 and V-I2. -/
theorem test_irq_din :
    State.statusWord { inMode .pack with ie := 0x10 } = 0x00010081 ∧
      State.statusWord { inMode .pack with ie := 0x01 } = 0x00010001 := by decide

/-- V-I3 and V-I5. -/
theorem test_irq_done_aerr :
    State.statusWord { inMode .done with ie := 0x01, flushReq := true } = 0x0000008B ∧
      State.statusWord { State.reset with ie := 0x04, aerr := true, aerrCause := .cmdReserved } = 0x000001C0 := by decide

/-- V-X5: a reset does not keep the configuration. -/
theorem test_reset_turn :
    after (fun t => (t.symCount, t.root, t.ie, t.mem))
      (step { unpacking with ie := 3, turns := [.reset] }) = some (0, 0, 0, []) := by decide

/-! ## Host tables (vectors L1.1, V-T, V-E) -/

/-- V-T1: the tree of the source's worked example. -/
theorem test_buildTree :
    (buildTree [(0x41, 5), (0x42, 3), (0x43, 2)]).image
      = [0x80000041, 0x80000042, 0x80000043, 0x00020001, 0x00000003] ∧
    (buildTree [(0x41, 5), (0x42, 3), (0x43, 2)]).root = 4 := by decide

/-- V-T4: a leaf and a new node tie, and the leaf goes first. -/
theorem test_buildTree_tie :
    (buildTree [(0x00, 1), (0x01, 1), (0x02, 1)]).image
      = [0x80000000, 0x80000001, 0x80000002, 0x00000001, 0x00020003] := by decide

/-- V-T1's codes. -/
theorem test_deriveCodes :
    codeFor (codesOf [(0x41, 5), (0x42, 3), (0x43, 2)]) 0x42 = some [true, true] ∧
      codeFor (codesOf [(0x41, 5), (0x42, 3), (0x43, 2)]) 0x43 = some [true, false] ∧
      codesOf [(0x5A, 3)] = [(0x5A, [false])] := by decide

/-- V-E5 and V-E7. -/
theorem test_host_words :
    nodeWordInternal 508 509 = 0x01FC01FD ∧ nodeWordLeaf 0x41 = 0x80000041 ∧
      codeWord (List.replicate 9 true) 0 = 0xFF800000 := by decide

/-- L1.1: the 15 bits of the worked example are the bytes 07 F4. -/
theorem test_packedPayload :
    packedPayload (codesOf [(0x41, 5), (0x42, 3), (0x43, 2)])
      [0x41, 0x41, 0x41, 0x41, 0x41, 0x42, 0x42, 0x42, 0x43, 0x43] = [0x07, 0xF4] := by decide

/-- L1.2: the empty container. -/
theorem test_empty_container : compressContainer [] = [0, 0, 0, 0] := by decide

/-! ## The host's procedures and duties (45_host_protocol.md) -/

/-- 42_tables.md R152: a table is empty exactly for an empty input. -/
theorem test_table_empty_iff :
    FreqTable.valid 0 [(0x41, 0)] = false ∧ FreqTable.valid 0 [] = true ∧ FreqTable.valid 1 [] = false := by decide

/-- R152 and R228 on the full header of an empty file: a leaf count or a payload length that is not 0 is malformed. -/
theorem test_empty_file_header :
    readFile .fullHeader (u32be 0 ++ u32be 0 ++ u32be 0 ++ [0x07]) = .ok ([], [0x07]) ∧
      readFile .fullHeader (u32be 0 ++ u32be 1 ++ u32be 0) = .error .malformedHeader ∧
      readFile .fullHeader (u32be 0 ++ u32be 0 ++ u32be 5) = .error .malformedHeader := by decide

/-- R221 and R225: compressing nothing needs no block; a pack run ends by reading OUT_COUNT. -/
theorem test_compress_procedure :
    (Job.compress []).opening = .ok (.answer { bytes := [0, 0, 0, 0], count := 0 }) ∧
      ((packHost [0x41]).act 0x00000003).access = some (.rd 0x024 4) ∧
      (Job.compress [0x41]).result [0x00] (.completed 1)
        = .ok { bytes := [0, 0, 0, 1, 0, 0, 0, 1, 0x41, 0, 0, 0, 1, 0x00], count := 1 } := by decide

/-- R222: an unpack run with nothing left to give, seen dry, is ended with CLEAR and is MalformedHeader; a completed one
ends by reading IN_COUNT. -/
theorem test_decompress_procedure :
    ((unpackHost []).act 0x00010002).access = some (.rd 0x030 4) ∧
      ({ unpackHost [] with dry := true }.act 0x00010002).access = some (.wr 0x004 4 0x00000001) ∧
      (({ unpackHost [] with dry := true, phase := .clear }.receive 0).ended = some .stalled) ∧
      (Job.decompress []).result [] .stalled = .error .malformedHeader ∧
      ((unpackHost []).act 0x00000003).access = some (.rd 0x020 4) := by decide

/-- R222: FAULT fails the job. -/
theorem test_decompress_fault :
    ((unpackHost [0x07]).act 0x00003004).ended = some .faulted ∧
      (Job.decompress []).result [] .faulted = .error .failedRun := by decide

/-- R227: Idle also in DONE of an earlier run; Failed by a header check, by FAULT and by CLEAR of a stalled run; Done only
with DOUT drained. -/
theorem test_source_states :
    (Job.decompress []).procedure.sourceState (inMode .done) = some .idle ∧
      ({ (Job.decompress [0x00]).procedure with stage := .header }).think
        = some (.ended (.error .malformedHeader)) ∧
      Procedure.sourceState { job := .decompress [], stage := .ended (.error .malformedHeader) } State.reset
        = some .failed ∧
      Procedure.sourceState { job := .decompress [], stage := .stream (unpackHost []) } (inMode .fault) = some .failed ∧
      Procedure.sourceState { job := .decompress [], stage := .stream { unpackHost [] with ended := some .stalled } }
        State.reset = some .failed ∧
      Procedure.sourceState { job := .decompress [], stage := .stream (unpackHost []) }
        { inMode .done with doutValid := true } = none := by decide

/-- A host in the middle of a run of that kind, with those bytes still to give. -/
def during (kind : RunKind) (bytes : List Byte) (sawReady : Bool) : HostSession :=
  { waiting := [{ kind := .unpack, bytes := [0x07] }], current := some { kind := kind, bytes := bytes }, sawReady := sawReady }

/-- R220: DIN only once STATUS has shown DIN_READY, FLUSH only after the last symbol, one run at a time. -/
theorem test_duty_order :
    dutyAfter (.access (.wr 0x018 4 0x41)) (during .pack [0x41] false) (inMode .pack) = none ∧
      dutyAfter (.access (.wr 0x018 4 0x41)) (during .pack [0x41] true) (inMode .pack) = some (during .pack [] false) ∧
      dutyAfter (.access (.cmd 4)) (during .pack [0x41] true) (inMode .pack) = none ∧
      dutyAfter (.access (.cmd 4)) (during .pack [] true) (inMode .pack) = some (during .pack [] false) ∧
      dutyAfter (.access (.cmd 3)) (during .pack [] true) (inMode .pack) = none := by decide

/-- R220: the ten symbols of V-T1 take the two bytes of L1.1; a host with one of them may not start, nor one that left
DOUT unread. -/
theorem test_duty_payload :
    (HostSession.mayStart { waiting := [{ kind := .unpack, bytes := [0x07, 0xF4] }], current := none, sawReady := false }
        .unpack { unpacking with mode := .idle }) = true ∧
      (HostSession.mayStart { waiting := [{ kind := .unpack, bytes := [0x07] }], current := none, sawReady := false }
        .unpack { unpacking with mode := .idle }) = false ∧
      (HostSession.mayStart { waiting := [{ kind := .unpack, bytes := [0x07, 0xF4] }], current := none, sawReady := false }
        .unpack { unpacking with mode := .done, doutValid := true }) = false := by decide

/-! ## States that meet the hypotheses of the statements -/

theorem witness_DecodeAfterEncode :
    Instr.wellFormed (.wrCodeW 0xFF 7 0x80000001) = true ∧ Instr.wellFormed (.reserved 0xFFFFFFFF) = true ∧
      Instr.wellFormed (.unmapped 0xFFFC (.write 1)) = true ∧ Instr.wellFormed (.rdNode 510) = true := by decide

theorem witness_EncodeAfterDecode :
    decode (.wr 0x4FE0 4 5) = .ok (.wrCodeW 0xFF 7 5) ∧ decode (.cmd 0x00000006) = .ok (.reserved 0x00000006) := by
  decide

theorem witness_UnmappedRanges :
    (0x0038 : Offset).toNat % 4 = 0 ∧ (0x4FFC : Offset).toNat % 4 = 0 ∧ (0x5000 : Offset).toNat % 4 = 0 ∧
      (0x87FC : Offset).toNat % 4 = 0 ∧ (0x0034 : Offset).toNat % 4 = 0 := by decide

theorem witness_OnlyAlignedWordsAreTaken :
    ∃ (s : State) (ts : List Turn) (a : Access), a = .rd 0x0008 4 ∧ s.turns = .access a :: ts :=
  ⟨{ State.reset with turns := [.access (.rd 0x0008 4)] }, [], _, rfl, rfl⟩

theorem witness_OnlyAlignedWordsAreTaken_refused :
    ∃ (s : State) (ts : List Turn) (a : Access), a = .wr 0x0006 4 2 ∧ s.turns = .access a :: ts ∧
      (0x0006 : Offset).toNat % 4 ≠ 0 :=
  ⟨{ State.reset with turns := [.access (.wr 0x0006 4 2)] }, [], _, rfl, rfl, by decide⟩

theorem witness_StepRunsTheNextTurn :
    (∃ (s : State) (ts : List Turn) (a : Access) (i : Instr), s.turns = .access a :: ts ∧ decode a = .ok i) ∧
      (∃ (s : State) (ts : List Turn), s.turns = .engine :: ts) ∧
      (∃ (s : State) (ts : List Turn), s.turns = .reset :: ts) ∧ ∃ s : State, s.turns = [] :=
  ⟨⟨{ State.reset with turns := [.access (.cmd 2)] }, [], .cmd 2, .startPack, rfl, rfl⟩,
    ⟨{ State.reset with turns := [.engine] }, [], rfl⟩, ⟨{ State.reset with turns := [.reset] }, [], rfl⟩,
    ⟨State.reset, rfl⟩⟩

theorem witness_StartPackBeginsOrRefuses :
    State.reset.mode = .idle ∧ (inMode .done).mode = .done ∧ (inMode .fault).mode = .fault := by decide

theorem witness_StartUnpackBeginsFaultsOrRefuses :
    (State.reset.mode = .idle ∧ State.reset.symCount = 0) ∧
      (∃ s : State, s.mode = .done ∧ s.symCount ≠ 0 ∧ s.root = 511) ∧
      (∃ s : State, s.mode = .idle ∧ s.symCount ≠ 0 ∧ s.root ≠ 511) ∧ (inMode .unpack).mode = .unpack :=
  ⟨by decide, ⟨{ inMode .done with symCount := 1, root := 511 }, by decide⟩,
    ⟨{ State.reset with symCount := 1, root := 510 }, by decide⟩, rfl⟩

theorem witness_FlushMarksOrRefuses : (inMode .pack).mode = .pack ∧ State.reset.mode ≠ .pack := by decide

theorem witness_DoutReadPops :
    State.doutValid { inMode .done with doutValid := true } = true ∧ State.reset.doutValid = false := by decide

theorem witness_ReadsRepeat :
    Instr.rdParam ∈ [Instr.rdId, .rdCtrl, .rdStatus, .rdIe, .rdSymcount, .rdRoot, .rdDin, .rdInCount, .rdOutCount,
        .rdFaultInfo, .rdDbgPack, .rdDbgUnpack, .rdParam] ∧
      (∃ y j, Instr.rdCode 0xFF 8 = .rdCode y j) ∧ (∃ n, Instr.rdNode 510 = .rdNode n) ∧
      ∃ off, Instr.unmapped 0xFFFC .read = .unmapped off .read :=
  ⟨by decide, ⟨_, _, rfl⟩, ⟨_, rfl⟩, ⟨_, rfl⟩⟩

theorem witness_SymcountStoresOrRefuses :
    ((inMode .fault).mode = .idle ∨ (inMode .fault).mode = .done ∨ (inMode .fault).mode = .fault) ∧
      ((inMode .unpack).mode = .pack ∨ (inMode .unpack).mode = .unpack) := by decide

theorem witness_RootStoresNineBitsOrRefuses :
    ((inMode .idle).mode = .idle ∨ (inMode .idle).mode = .done ∨ (inMode .idle).mode = .fault) ∧
      ((inMode .pack).mode = .pack ∨ (inMode .pack).mode = .unpack) := by decide

/-- Not busy and busy; a byte next to the LEN byte is outside the store. -/
theorem witness_CodeLenWriteStoresOneByte :
    ((inMode .done).mode = .idle ∨ (inMode .done).mode = .done ∨ (inMode .done).mode = .fault) ∧
      0x1004 ≠ 0x1000 + 0x40 * (0x00 : Symbol).toNat ∧
      ((inMode .pack).mode = .pack ∨ (inMode .pack).mode = .unpack) := by decide

/-- Not busy and busy; the bytes just before and just after the last W word are outside the store. -/
theorem witness_CodeWordWriteStoresOneWord :
    ((inMode .idle).mode = .idle ∨ (inMode .idle).mode = .done ∨ (inMode .idle).mode = .fault) ∧
      0x4FDF < codeOffset 0xFF 8 ∧ codeOffset 0xFF 8 + 4 ≤ 0x4FE4 ∧
      ((inMode .unpack).mode = .pack ∨ (inMode .unpack).mode = .unpack) := by decide

/-- Not busy and busy; the bytes just before and just after the last NODE word are outside the store. -/
theorem witness_NodeWriteStoresThreeFields :
    ((inMode .idle).mode = .idle ∨ (inMode .idle).mode = .done ∨ (inMode .idle).mode = .fault) ∧
      0x87F7 < nodeOffset 510 ∧ nodeOffset 510 + 4 ≤ 0x87FC ∧
      ((inMode .unpack).mode = .pack ∨ (inMode .unpack).mode = .unpack) := by decide

theorem witness_DinLoadsOrRefuses :
    ¬ (State.reset.mode = .unpack ∨ (State.reset.mode = .pack ∧ State.reset.flushReq = false)) ∧
      (∃ s : State, s.mode = .pack ∧ s.flushReq = false ∧ s.dinValid = true) ∧
      ∃ s : State, s.mode = .unpack ∧ s.dinValid = false :=
  ⟨by decide, ⟨{ inMode .pack with dinValid := true }, by decide⟩, ⟨inMode .unpack, by decide⟩⟩

theorem witness_ReadOnlyWritesAreRecorded :
    Instr.wrParam 0 ∈ [Instr.wrId 0, .wrStatus 0, .wrDout 0, .wrInCount 0, .wrOutCount 0, .wrFaultInfo 0, .wrDbgPack 0,
      .wrDbgUnpack 0, .wrParam 0] := by decide

theorem witness_CodeReadReturnsTheEntry :
    (codeMemory 0x41 1 0).codeLen? 0x41 = some 1 ∧ (codeMemory 0x42 2 0xC0000000).codeW? 0x42 0 = some 0xC0000000 ∧
      ((8 : Fin 9).val = 7 + 1) := by decide

theorem witness_NodeReadReturnsTheEntry :
    (nodeMemory [0x81FF01FF]).node? 0 = some { leaf := true, hi := 511, lo := 511 } := by decide

theorem witness_NodeReadsBackMasked :
    State.reset.mode = .idle ∧ (next? (exec (.wrNode 510 0xFFFFFFFF) State.reset)).isSome = true := by decide

theorem witness_PTakeTakesOrFaults :
    (∃ s : State, s.mode = .pack ∧ s.codeActive = false ∧ s.dinValid = true ∧ s.mem.codeLen? s.dinData = some 0) ∧
      (∃ s : State, s.mode = .pack ∧ s.codeActive = false ∧ s.dinValid = true ∧ s.mem.codeLen? s.dinData = some 255) ∧
      ∃ s : State, s.mode = .pack ∧ s.codeActive = false ∧ s.dinValid = true ∧ s.mem.codeLen? s.dinData = none :=
  ⟨⟨{ packing (codeMemory 0x44 0 0) with dinValid := true, dinData := 0x44 }, by decide⟩,
    ⟨{ packing (codeMemory 0x44 255 0) with dinValid := true, dinData := 0x44 }, by decide⟩,
    ⟨{ inMode .pack with dinValid := true, dinData := 0x44 }, by decide⟩⟩

/-- A pack run in the middle of the code `11` of 0x42. -/
def shifting (n : BitVec 3) (full : Bool) : State :=
  { packing (codeMemory 0x42 2 0xC0000000) with accN := n, codeActive := true, curSym := 0x42, curIdx := 1, doutValid := full }

/-- Every clause: with the code written, and with its word or its length unwritten. -/
theorem witness_PShiftMovesOneBit :
    (∀ full : Bool, ∀ n : BitVec 3,
      (shifting n full).mode = .pack ∧ (shifting n full).codeActive = true ∧
        (shifting n full).mem.codeBit? (shifting n full).curSym (shifting n full).curIdx = some true ∧
        (shifting n full).mem.codeLen? (shifting n full).curSym = some 2 ∧ (shifting n full).accN = n ∧
        (shifting n full).doutValid = full) ∧
      (∃ s : State, s.mode = .pack ∧ s.codeActive = true ∧ s.accN ≠ 7 ∧
        s.mem.codeBit? s.curSym s.curIdx = none ∧ s.mem.codeLen? s.curSym = some 33) ∧
      ∃ s : State, s.mode = .pack ∧ s.codeActive = true ∧ s.accN = 7 ∧ s.doutValid = false ∧
        s.mem.codeBit? s.curSym s.curIdx = some true ∧ s.mem.codeLen? s.curSym = none :=
  ⟨by decide,
    ⟨{ packing (codeMemory 0x44 33 0) with codeActive := true, curSym := 0x44, curIdx := 32 }, by decide⟩,
    ⟨{ packing (Memory.setCodeW [] 0x44 0 0x80000000) with codeActive := true, curSym := 0x44, accN := 7 }, by decide⟩⟩

/-- A pack run that is flushing. -/
def flushing (n : BitVec 3) (full : Bool) : State := { inMode .pack with flushReq := true, accN := n, doutValid := full }

theorem witness_PFlushPadsAndEnds : ∀ full : Bool, ∀ n : BitVec 3,
    (flushing n full).mode = .pack ∧ (flushing n full).flushReq = true ∧ (flushing n full).codeActive = false ∧
      (flushing n full).dinValid = false ∧ (flushing n full).accN = n ∧ (flushing n full).doutValid = full := by decide

theorem witness_ULoadTakesAByte :
    ∃ s : State, s.mode = .unpack ∧ s.srN = 0 ∧ s.dinValid = true :=
  ⟨{ unpacking with dinValid := true, dinData := 0x07 }, by decide⟩

/-- An unpack run with bits in SR, on a NODE image. -/
def walking (ws : List Word) (sr : Byte) : State :=
  { inMode .unpack with mem := nodeMemory ws, symCount := 2, sr := sr, srN := 8 }

theorem witness_UBitFaultsPrecisely :
    ((walking [0x8000005A] 0x80).mem.node? 0 = some { leaf := true, hi := 0, lo := 0x5A } ∧
        (walking [0x8000005A] 0x80).sr.getLsbD 7 = true) ∧
      ((walking [0x000101FF] 0x80).mem.node? 0 = some { leaf := false, hi := 1, lo := 511 } ∧
        (walking [0x000101FF] 0x80).sr.getLsbD 7 = true) ∧
      (walking [] 0x80).mem.node? 0 = none ∧
      ((walking [0x000101FF] 0x00).mem.node? 0 = some { leaf := false, hi := 1, lo := 511 } ∧
        (walking [0x000101FF] 0x00).sr.getLsbD 7 = false ∧ (walking [0x000101FF] 0x00).mem.node? 1 = none) ∧
      (walking [] 0x00).mode = .unpack ∧ 0 < (walking [] 0x00).srN.toNat ∧ (walking [] 0x00).doutValid = false := by
  decide

theorem witness_UBitMovesToAnInternalChild :
    ∃ (s : State) (n m : NodeEntry), s.mode = .unpack ∧ 0 < s.srN.toNat ∧ s.doutValid = false ∧
      s.mem.node? s.cur.toNat = some n ∧ n.leaf = false ∧ s.sr.getLsbD 7 = true ∧ n.lo ≠ 511 ∧
      s.mem.node? n.lo.toNat = some m ∧ m.leaf = false :=
  ⟨{ unpacking with sr := 0xE0, srN := 3 }, { leaf := false, hi := 0, lo := 3 }, { leaf := false, hi := 2, lo := 1 },
    by decide⟩

theorem witness_UBitEmitsAtALeaf :
    (∃ (s : State) (n : NodeEntry), s.mode = .unpack ∧ 0 < s.srN.toNat ∧ s.doutValid = false ∧
        s.mem.node? s.cur.toNat = some n ∧ n.leaf = true ∧ s.sr.getLsbD 7 = false ∧ s.symCount ≠ 1) ∧
      ∃ (s : State) (n m : NodeEntry), s.mode = .unpack ∧ 0 < s.srN.toNat ∧ s.doutValid = false ∧
        s.mem.node? s.cur.toNat = some n ∧ n.leaf = false ∧ s.sr.getLsbD 7 = false ∧ n.hi ≠ 511 ∧
        s.mem.node? n.hi.toNat = some m ∧ m.leaf = true ∧ s.symCount = 1 :=
  ⟨⟨{ unpackingLone with sr := 0x00, srN := 8 }, { leaf := true, hi := 0, lo := 0x5A }, by decide⟩,
    ⟨{ unpacking with sr := 0x07, srN := 8, symCount := 1 }, { leaf := false, hi := 0, lo := 3 },
      { leaf := true, hi := 0, lo := 0x41 }, by decide⟩⟩

theorem witness_AtMostOneStepIsEnabled :
    EngineStep.enabled { unpacking with srN := 8 } .uBit = true ∧ State.reset.mode ≠ .pack ∧
      State.reset.mode ≠ .unpack := by decide

/-- Each of the three waits of PACK and the two of UNPACK (43_pack_engine.md R184, 44_unpack_engine.md R208). -/
theorem witness_TheEngineWaitsForTheHost :
    enabledStep (inMode .pack) = none ∧ enabledStep (shifting 7 true) = none ∧ enabledStep (flushing 1 true) = none ∧
      enabledStep unpacking = none ∧ enabledStep { unpacking with srN := 1, doutValid := true } = none := by decide

/-- An unpack run with a byte in DIN meets the invariant. -/
theorem witness_Inv : State.Inv { unpacking with dinValid := true, dinData := 0x07 } := by constructor <;> decide

/-- A step that is enabled, and a run of engine turns alone that comes to a wait: the two bits `11` of 0xC0 give the
first symbol, and DOUT is full. -/
theorem witness_EngineStepsUseUpWork :
    (∃ (s t : State) (e : EngineStep), s.Inv ∧ e.enabled s = true ∧ engineTurn s = .next t) ∧
      after (fun t => (enabledStep t, t.doutData, t.srN))
        (engineAlone (engineWork { unpacking with dinValid := true, dinData := 0xC0 })
          { unpacking with dinValid := true, dinData := 0xC0 }) = some (none, 0x42, 6) :=
  ⟨⟨{ unpacking with dinValid := true, dinData := 0x07 }, _, .uLoad, witness_Inv, by decide, rfl⟩, by decide⟩

theorem witness_EveryStepKeepsTheInvariant : ∃ s t : State, s.Inv ∧ step s = .next t :=
  ⟨{ unpacking with dinValid := true, dinData := 0x07 }, _, witness_Inv, rfl⟩

theorem witness_FaultsArePrecise :
    (∃ s t : State, s.mode ≠ .fault ∧ t.mode = .fault ∧ engineTurn s = .next t) ∧
      ∃ s t : State, s.mode ≠ .fault ∧ t.mode = .fault ∧ exec .startUnpack s = .next t :=
  ⟨⟨walking [0x8000005A] 0x80, raiseFault .badCode 0 (walking [0x8000005A] 0x80), by decide, rfl, rfl⟩,
    ⟨{ State.reset with symCount := 1, root := 511 }, _, by decide, rfl, rfl⟩⟩

theorem witness_FaultIsLeftOnlyByClear :
    ∃ s t : State, s.mode = .fault ∧ step s = .next t ∧ t.mode ≠ .fault :=
  ⟨{ inMode .fault with faultCause := .badCode, turns := [.access (.wr 0x004 4 1)] }, _, rfl, rfl, by decide⟩

theorem witness_AccessErrorsKeepTheFirstCause :
    (∃ s t : State, s.aerr = true ∧ exec .flush { s with aerr := false, aerrCause := .none } = .next t ∧ t.aerr = true) ∧
      ∃ s t : State, step s = .next t ∧ s.aerr = true ∧ t.aerr = false :=
  ⟨⟨{ State.reset with aerr := true, aerrCause := .badAddr }, _, rfl, rfl, rfl⟩,
    ⟨{ State.reset with aerr := true, aerrCause := .badAddr, turns := [.access (.cmd 5)] }, _, rfl, rfl, rfl⟩⟩

/-- Each of the three ways STATE changes. -/
theorem witness_OnlyCommandsAndEngineStepsChangeState :
    (∃ s t : State, s.turns = [.access (.wr 0x004 4 2)] ∧ step s = .next t ∧ t.mode ≠ s.mode) ∧
      (∃ s t : State, s.turns = [] ∧ step s = .next t ∧ t.mode ≠ s.mode) ∧
      ∃ s t : State, s.turns = [.reset] ∧ step s = .next t ∧ t.mode ≠ s.mode :=
  ⟨⟨{ State.reset with turns := [.access (.wr 0x004 4 2)] }, { State.reset with mode := .pack }, rfl, rfl, by decide⟩,
    ⟨flushing 0 false, { flushing 0 false with mode := .done }, rfl, rfl, by decide⟩,
    ⟨{ inMode .done with turns := [.reset] }, { State.reset with epoch := 1 }, rfl, rfl, by decide⟩⟩

theorem witness_TablesAreFixedDuringARun :
    ∃ s t : State, s.busy = true ∧ step s = .next t ∧ ∀ ts, s.turns ≠ .reset :: ts :=
  ⟨{ unpacking with turns := [.access (.wr 0x8000 4 1)] }, _, by decide, rfl, by simp⟩

/-- Each kind of change that the statement says who makes. -/
theorem witness_OnlyTheirAccessesWriteThem :
    after State.ie (exec (.wrIe 1) State.reset) = some 1 ∧ after State.flushReq (exec .flush (inMode .pack)) = some true ∧
      after State.dinValid (exec (.wrDin 1) (inMode .pack)) = some true ∧
      after (fun t => decide (t.mem ≠ [])) (exec (.wrNode 510 1) State.reset) = some true := by decide

theorem witness_ResetTurnResetsTheBlock : ∃ (s : State) (ts : List Turn), s.turns = .reset :: ts :=
  ⟨{ unpacking with turns := [.reset, .engine] }, [.engine], rfl⟩

/-- The shortest pack run: one symbol with a one-bit code. -/
def packTurns : List Turn :=
  [.access (.wr 0x018 4 0x5A), .engine, .engine, .access (.cmd 4), .engine, .access (.rd 0x01C 4)]

theorem witness_PackRunEmitsThePackedCodes :
    (after (fun s => (runTurns packTurns s).map fun r => (r.1.mode, r.1.doutValid, r.2))
        (exec .startPack { State.reset with mem := codeMemory 0x5A 1 0 }) =
      some (some (.done, false, { fed := [0x5A], got := [0x00] }))) ∧
    packTurns.all turnWithinRun = true := by decide

/-- The shortest unpack run: one symbol of the lone leaf. -/
def unpackTurns : List Turn := [.access (.wr 0x018 4 0), .engine, .engine, .access (.rd 0x01C 4)]

theorem witness_UnpackRunIsTheTreeWalk :
    (after (fun s => (runTurns unpackTurns s).map fun r => (r.1.mode, r.1.doutValid, r.2))
        (exec .startUnpack { State.reset with mem := nodeMemory [0x8000005A], symCount := 1 }) =
      some (some (.done, false, { fed := [0x00], got := [0x5A] }))) ∧
    unpackTurns.all turnWithinRun = true := by decide

/-- V-T10 as the table of the statements about built trees; one internal node stands in it. -/
theorem witness_BuiltTreeShape :
    ([(0x00, 7), (0xFF, 1)] : FreqTable) ≠ [] ∧ (([(0x00, 7), (0xFF, 1)] : FreqTable).map Prod.fst).Nodup ∧
      (buildTree [(0x00, 7), (0xFF, 1)]).nodes[2]? = some (.internal 8 1 0) := by decide

theorem witness_TreeIgnoresTheHeaderOrder :
    (([(0xFF, 1), (0x00, 7)] : FreqTable).map Prod.fst).Nodup ∧
      ([(0xFF, 1), (0x00, 7)] : FreqTable).Perm [(0x00, 7), (0xFF, 1)] := by decide

theorem witness_CodesArePrefixFree :
    codesOf [(0x00, 7), (0xFF, 1)] = [(0xFF, [false]), (0x00, [true])] ∧
      (([(0x00, 7), (0xFF, 1)] : FreqTable).map Prod.fst).Nodup := by decide

theorem witness_TreeWalkIsTheReverseTableMatch :
    ([(0x5A, 3)] : FreqTable) ≠ [] ∧ (([(0x5A, 3)] : FreqTable).map Prod.fst).Nodup := by decide

theorem witness_ContainerRoundTrip : ([0x41, 0x41, 0x42] : List Byte).length < 2 ^ 32 := by decide

/-! ## Progress (70_reset_and_hazards.md R284) -/

/-- The pack run of no symbols: START_PACK, FLUSH, and the engine from then on. -/
def emptyPackRun : Execution where
  turn
    | 0 => .access (.cmd 2)
    | 1 => .access (.cmd 4)
    | _ + 2 => .engine
  session
    | 0 => { waiting := [{ kind := .pack, bytes := [] }], current := none, sawReady := false }
    | _ + 1 => { waiting := [], current := some { kind := .pack, bytes := [] }, sawReady := false }
  state
    | 0 => State.reset
    | 1 => inMode .pack
    | 2 => { inMode .pack with flushReq := true }
    | _ + 3 => { inMode .done with flushReq := true }

/-- A run that meets the hypotheses of `pack_run_reachesDone`. -/
theorem witness_pack_run_reachesDone :
    emptyPackRun.KeepsDuties ∧ emptyPackRun.WeaklyFair ∧
      emptyPackRun.Runs .startPack { kind := .pack, bytes := [] } := by
  refine ⟨⟨fun n => ?_, fun d n h => ?_⟩, fun x n _ => ⟨n + 2, by omega, rfl⟩, rfl, rfl, fun n h => ?_⟩
  · match n with
    | 0 => rfl
    | 1 => rfl
    | 2 => rfl
    | n + 3 => rfl
  · have := h (n + 3) (by omega)
    cases d <;> cases this
  · match n with
    | 0 => cases h
    | 1 => cases h
    | n + 2 => cases h

/-- The lone leaf of 95_test_vectors.md V-T2, one symbol to give. -/
def readyToUnpack : State := { State.reset with mem := nodeMemory [0x8000005A], symCount := 1 }

/-- The unpack run of one zero bit on it: START_UNPACK, a look at STATUS, the byte, U_LOAD, U_BIT, the read of DOUT, and
the engine from then on. -/
def loneUnpackRun : Execution where
  turn
    | 0 => .access (.cmd 3)
    | 1 => .access (.rd 0x008 4)
    | 2 => .access (.wr 0x018 4 0)
    | 3 => .engine
    | 4 => .engine
    | 5 => .access (.rd 0x01C 4)
    | _ + 6 => .engine
  session
    | 0 => { waiting := [{ kind := .unpack, bytes := [0x00] }], current := none, sawReady := false }
    | 1 => { waiting := [], current := some { kind := .unpack, bytes := [0x00] }, sawReady := false }
    | 2 => { waiting := [], current := some { kind := .unpack, bytes := [0x00] }, sawReady := true }
    | _ + 3 => { waiting := [], current := some { kind := .unpack, bytes := [] }, sawReady := false }
  state
    | 0 => readyToUnpack
    | 1 => { readyToUnpack with mode := .unpack }
    | 2 => { readyToUnpack with mode := .unpack, replies := [0x00010002] }
    | 3 => { readyToUnpack with mode := .unpack, replies := [0x00010002], dinValid := true }
    | 4 => { readyToUnpack with mode := .unpack, replies := [0x00010002], srN := 8, inCount := 1 }
    | 5 =>
      { readyToUnpack with
        mode := .done, replies := [0x00010002], inCount := 1, outCount := 1, symCount := 0
        doutValid := true, doutData := 0x5A }
    | _ + 6 =>
      { readyToUnpack with
        mode := .done, replies := [0x00010002, 0x0000015A], inCount := 1, outCount := 1, symCount := 0 }

/-- A run that meets the hypotheses of `unpack_run_reachesDone`. -/
theorem witness_unpack_run_reachesDone :
    loneUnpackRun.KeepsDuties ∧ loneUnpackRun.WeaklyFair ∧
      loneUnpackRun.Runs .startUnpack { kind := .unpack, bytes := [0x00] } ∧
      (loneUnpackRun.state 0).root.toNat ≤ 510 ∧
      treeWalk (fun n => readyToUnpack.mem.node? n) readyToUnpack.root readyToUnpack.symCount.toNat readyToUnpack.root
        (bitsMsb [0x00]) = .symbols [0x5A] (List.replicate 7 false) := by
  refine ⟨⟨fun n => ?_, fun d n h => ?_⟩, fun x n _ => ⟨n + 6, by omega, rfl⟩, ⟨rfl, rfl, fun n h => ?_⟩, by decide,
    by decide⟩
  · match n with
    | 0 | 1 | 2 | 3 | 4 | 5 => rfl
    | n + 6 => rfl
  · have := h (n + 6) (by omega)
    cases d <;> cases this
  · match n with
    | 0 | 1 | 2 | 3 | 4 | 5 => cases h
    | n + 6 => cases h

end Sys2Proof.Tests
end

section
/-! PROOFS. What a host access can do, said once: every next state of a command, of an access and of a step, with the
guard under which it is answered. -/

namespace Sys2Proof.Machine

/-! ## Commands -/

/-- Every next state a command can answer, under its guard (40_commands.md R101 to R107). -/
inductive CommandEffect (s : State) : Command → State → Prop
  | nop : CommandEffect s .nop s
  | clear : CommandEffect s .clear (clearFault (clearAccessError { clearDatapath s with mode := .idle }))
  | startPack (hm : s.mode = .idle ∨ s.mode = .done) :
      CommandEffect s .startPack { clearDatapath s with mode := .pack }
  | startUnpackNone (hm : s.mode = .idle ∨ s.mode = .done) (hc : s.symCount = 0) :
      CommandEffect s .startUnpack { clearDatapath s with mode := .done }
  | startUnpackFault (hm : s.mode = .idle ∨ s.mode = .done) (hc : s.symCount ≠ 0) (hr : 510 < s.root.toNat) :
      CommandEffect s .startUnpack (raiseFault .badNode s.root (clearDatapath s))
  | startUnpack (hm : s.mode = .idle ∨ s.mode = .done) (hc : s.symCount ≠ 0) (hr : s.root.toNat ≤ 510) :
      CommandEffect s .startUnpack { clearDatapath s with cur := s.root, mode := .unpack }
  | startRefused {c : Command} (hc : c = .startPack ∨ c = .startUnpack) (hm : ¬ (s.mode = .idle ∨ s.mode = .done)) :
      CommandEffect s c (raiseAccessError .cmdState s)
  | flush (hm : s.mode = .pack) : CommandEffect s .flush { s with flushReq := true }
  | flushRefused (hm : s.mode ≠ .pack) : CommandEffect s .flush (raiseAccessError .cmdState s)
  | clrAerr : CommandEffect s .clrAerr (clearAccessError s)
  | reserved (w : Word) : CommandEffect s (.reserved w) (raiseAccessError .cmdReserved s)

/-- A command answers one of its effects, in every state. -/
theorem perform_effect (c : Command) (s : State) : ∃ t, perform c s = .next t ∧ CommandEffect s c t := by
  cases c with
  | nop => exact ⟨_, rfl, .nop⟩
  | clear => exact ⟨_, rfl, .clear⟩
  | clrAerr => exact ⟨_, rfl, .clrAerr⟩
  | reserved w => exact ⟨_, rfl, .reserved w⟩
  | flush =>
    by_cases hm : s.mode = .pack
    · exact ⟨_, if_pos hm, .flush hm⟩
    · exact ⟨_, if_neg hm, .flushRefused hm⟩
  | startPack =>
    by_cases hm : s.mode = .idle ∨ s.mode = .done
    · exact ⟨_, if_pos hm, .startPack hm⟩
    · exact ⟨_, if_neg hm, .startRefused (.inl rfl) hm⟩
  | startUnpack =>
    by_cases hm : s.mode = .idle ∨ s.mode = .done
    · by_cases hc : s.symCount = 0
      · exact ⟨_, (if_pos hm).trans (if_pos hc), .startUnpackNone hm hc⟩
      · by_cases hr : 510 < s.root.toNat
        · exact ⟨_, (if_pos hm).trans ((if_neg hc).trans (if_pos hr)), .startUnpackFault hm hc hr⟩
        · exact ⟨_, (if_pos hm).trans ((if_neg hc).trans (if_neg hr)), .startUnpack hm hc (Nat.le_of_not_lt hr)⟩
    · exact ⟨_, if_neg hm, .startRefused (.inr rfl) hm⟩

/-- The row of a command performs it. -/
theorem exec_toInstr (c : Command) (s : State) : exec c.toInstr s = perform c s := by cases c <;> rfl

/-- A write of CTRL performs the command its word decodes to (40_commands.md R100). -/
theorem exec_wrCtrl (w : Word) (s : State) : exec (.wrCtrl w) s = perform (decodeCmd w) s := rfl

/-- An instruction that is a command, in either spelling, performs it. -/
theorem exec_of_commandOf {i : Instr} {c : Command} (h : commandOf i = some c) (s : State) :
    exec i s = perform c s := by
  cases i <;> cases h <;> rfl

/-! ## Accesses -/

/-- Every next state a host access can answer: a command, a read, a write that is refused and only recorded, or a write
that stores, under its guard (41_register_access.md R120 to R141). -/
inductive AccessEffect (s : State) : Instr → State → Prop
  | command {i : Instr} {c : Command} {t : State} (hi : commandOf i = some c) (he : CommandEffect s c t) :
      AccessEffect s i t
  | reply {i : Instr} (hi : commandOf i = none) (v : Word) : AccessEffect s i (reply v s)
  | pop (hv : s.doutValid = true) :
      AccessEffect s .rdDout { reply s.doutWord s with doutValid := false, doutData := 0 }
  | refuse {i : Instr} {c : AerrCause} (hi : commandOf i = none) (hc : c ≠ .none) :
      AccessEffect s i (raiseAccessError c s)
  | wrIe (v : Word) : AccessEffect s (.wrIe v) { s with ie := ieOperand v }
  | wrSymcount (v : Word) (hb : s.busy = false) : AccessEffect s (.wrSymcount v) { s with symCount := v }
  | wrRoot (v : Word) (hb : s.busy = false) : AccessEffect s (.wrRoot v) { s with root := rootOperand v }
  | wrDin (v : Word) (hr : s.dinReady = true) :
      AccessEffect s (.wrDin v) { s with dinData := dinOperand v, dinValid := true }
  | wrCodeLen (y : Symbol) (v : Word) (hb : s.busy = false) :
      AccessEffect s (.wrCodeLen y v) { s with mem := s.mem.setCodeLen y (codeLenOperand v) }
  | wrCodeW (y : Symbol) (k : Fin 8) (v : Word) (hb : s.busy = false) :
      AccessEffect s (.wrCodeW y k v) { s with mem := s.mem.setCodeW y k.val v }
  | wrNode (n : Fin 511) (v : Word) (hb : s.busy = false) :
      AccessEffect s (.wrNode n v) { s with mem := s.mem.setNode n.val (nodeOperand v) }

/-- A configuration write is refused while busy and stores otherwise. -/
theorem accessEffect_configWrite {i : Instr} {s : State} (store : State → State) (hi : commandOf i = none)
    (h : s.busy = false → AccessEffect s i (store s)) : AccessEffect s i (configWrite store s) := by
  obtain ⟨-, he⟩ | ⟨hb, he⟩ := configWrite_cases store s
  · rw [he]; exact .refuse hi nofun
  · rw [he]; exact h hb

/-- A write of DIN loads a byte or is refused. -/
theorem execWrDin_effect (v : Word) (s : State) : ∃ t, execWrDin v s = .next t ∧ AccessEffect s (.wrDin v) t := by
  cases hr : s.dinReady with
  | true => exact ⟨_, execWrDin_ready v hr, .wrDin v hr⟩
  | false =>
    unfold execWrDin
    cases ha : s.accepting with
    | false => exact ⟨_, rfl, .refuse rfl nofun⟩
    | true =>
      have hv : s.dinValid = true := by simpa [State.dinReady, ha] using hr
      exact ⟨_, by rw [hv]; rfl, .refuse (c := .dinOverflow) rfl nofun⟩

/-- A read of DOUT pops a byte that is there, and else only replies. -/
theorem execRdDout_effect (s : State) : ∃ t, execRdDout s = .next t ∧ AccessEffect s .rdDout t := by
  by_cases hv : s.doutValid = true
  · exact ⟨_, if_pos hv, .pop hv⟩
  · exact ⟨_, if_neg hv, .reply rfl _⟩

/-- Every instruction answers one of its effects, in every state. -/
theorem exec_effect (i : Instr) (s : State) : ∃ t, exec i s = .next t ∧ AccessEffect s i t := by
  cases hi : commandOf i with
  | some c =>
    obtain ⟨t, ht, he⟩ := perform_effect c s
    exact ⟨t, (exec_of_commandOf hi s).trans ht, .command hi he⟩
  | none =>
    cases i with
    | nop | clear | startPack | startUnpack | flush | clrAerr | reserved | wrCtrl => cases hi
    | rdDout => exact execRdDout_effect s
    | wrIe v => exact ⟨_, rfl, .wrIe v⟩
    | wrDin v => exact execWrDin_effect v s
    | wrSymcount v => exact ⟨_, rfl, accessEffect_configWrite _ rfl (.wrSymcount v)⟩
    | wrRoot v => exact ⟨_, rfl, accessEffect_configWrite _ rfl (.wrRoot v)⟩
    | wrCodeLen y v => exact ⟨_, rfl, accessEffect_configWrite _ rfl (.wrCodeLen y v)⟩
    | wrCodeW y k v => exact ⟨_, rfl, accessEffect_configWrite _ rfl (.wrCodeW y k v)⟩
    | wrNode n v => exact ⟨_, rfl, accessEffect_configWrite _ rfl (.wrNode n v)⟩
    | wrId | wrStatus | wrDout | wrInCount | wrOutCount | wrFaultInfo | wrDbgPack | wrDbgUnpack | wrParam =>
      exact ⟨_, rfl, .refuse rfl nofun⟩
    | unmapped off use =>
      cases use with
      | read => exact ⟨_, rfl, .reply rfl 0⟩
      | write v => exact ⟨_, rfl, .refuse rfl nofun⟩
    | _ => exact ⟨_, rfl, .reply rfl _⟩

/-- An answer of an instruction is one of its effects. -/
theorem accessEffect_of_exec {i : Instr} {s t : State} (h : exec i s = .next t) : AccessEffect s i t := by
  obtain ⟨u, hu, he⟩ := exec_effect i s
  cases h.symm.trans hu
  exact he

/-! ## Steps -/

/-- Every step that answers a next state, with the turn it takes: the engine's, a reset, or a decoded access. -/
inductive StepEffect (s t : State) : Prop
  | engine (ts : List Turn) (ht : s.turns = [] ∨ s.turns = .engine :: ts)
      (h : engineTurn { s with turns := ts } = .next t)
  | reset (ts : List Turn) (ht : s.turns = .reset :: ts) (h : t = resetTurn { s with turns := ts })
  | access (a : Access) (ts : List Turn) (i : Instr) (ht : s.turns = .access a :: ts) (hd : decode a = .ok i)
      (h : AccessEffect { s with turns := ts } i t)

theorem stepEffect_of_step {s t : State} (h : step s = .next t) : StepEffect s t := by
  unfold step at h
  split at h
  next hn => exact .engine [] (.inl hn) (by rw [← hn]; exact h)
  next ts hs => exact .engine ts (.inr hs) h
  next ts hs =>
    cases h
    exact .reset ts hs rfl
  next a ts hs =>
    split at h
    next i hd => exact .access a ts i hs hd (accessEffect_of_exec h)
    next => cases h

end Sys2Proof.Machine
end

section
/-! PROOFS. Which accesses perform a command: the word of a command is the only one that decodes to it
(30_encoding.md R81), and CTRL is written only at its own offset (10_state.md R31). -/

namespace Sys2Proof.Machine

/-- A word with RSVD zero is its OP field. -/
theorem eq_of_op {w : Word} {n : Nat} (hn : n < 256) (hr : ¬ w.extractLsb' 8 24 ≠ 0)
    (ho : w.extractLsb' 0 8 = BitVec.ofNat 8 n) : w = BitVec.ofNat 32 n := by
  have hr' := congrArg BitVec.toNat (not_not.mp hr)
  have ho' := congrArg BitVec.toNat ho
  simp [Nat.shiftRight_eq_div_pow] at hr' ho'
  apply BitVec.eq_of_toNat_eq
  simp
  omega

/-- Only the match word of a command decodes to it. -/
theorem eq_word_of_decodeCmd {w : Word} {c : Command} (h : decodeCmd w = c) : w = Command.word c := by
  simp only [decodeCmd] at h
  split_ifs at h with hr h0 h1 h2 h3 h4 h5 <;> subst h
  · rfl
  · exact eq_of_op (by decide) hr h0
  · exact eq_of_op (by decide) hr h1
  · exact eq_of_op (by decide) hr h2
  · exact eq_of_op (by decide) hr h3
  · exact eq_of_op (by decide) hr h4
  · exact eq_of_op (by decide) hr h5
  · rfl

/-- The row of a command is that command. -/
theorem commandOf_toInstr (c : Command) : commandOf c.toInstr = some c := by cases c <;> rfl

/-- The word number of a register is that of its offset. -/
theorem eq_of_regAt {i : Nat} {r : Reg} (h : regAt i = some r) : 4 * i = r.offset.toNat := by
  have hi : i < 14 := by
    by_contra hn
    rw [regAt_eq_none (Nat.le_of_not_lt hn)] at h
    cases h
  interval_cases i <;> cases h <;> rfl

/-- An aligned offset names a register only where the register stands. -/
theorem eq_offset_of_locate {off : Offset} {r : Reg} (ha : off.toNat % 4 = 0) (h : locate off = .reg r) :
    off = r.offset := by
  unfold locate at h
  simp only at h
  split at h
  · split at h
    · rename_i hr
      cases h
      have := eq_of_regAt hr
      exact BitVec.eq_of_toNat_eq (by omega)
    · cases h
  · split at h
    · split at h <;> cases h
    · split at h
      · cases h
      · split at h <;> cases h

/-- No read is a command. -/
theorem commandOf_decodeRead (off : Offset) : commandOf (decodeRead off) = none := by
  unfold decodeRead
  split <;> rfl

/-- A write is a command only at CTRL. -/
theorem locate_of_commandOf_decodeWrite {off : Offset} {v : Word} {c : Command}
    (h : commandOf (decodeWrite off v) = some c) : locate off = .reg .ctrl ∧ decodeCmd v = c := by
  unfold decodeWrite at h
  split at h <;> cases h
  exact ⟨by assumption, rfl⟩

/-- An access that performs a command is its match word, sent as a CMD word or written to CTRL (log entry 12). -/
theorem access_of_command {a : Access} {i : Instr} {c : Command} (hd : decode a = .ok i) (hc : commandOf i = some c) :
    a = .cmd (Command.word c) ∨ a = .wr 0x004 4 (Command.word c) := by
  cases a with
  | cmd w =>
    cases hd
    have hw : decodeCmd w = c := Option.some.inj ((commandOf_toInstr _).symm.trans hc)
    exact .inl (by rw [eq_word_of_decodeCmd hw])
  | rd off size =>
    simp only [decode] at hd
    split at hd
    · cases hd
    · split at hd
      · cases hd
      · cases hd
        rw [commandOf_decodeRead] at hc
        cases hc
  | wr off size v =>
    simp only [decode] at hd
    split at hd
    · cases hd
    · rename_i hs
      split at hd
      · cases hd
      · rename_i ha
        cases hd
        obtain ⟨hl, hw⟩ := locate_of_commandOf_decodeWrite hc
        refine .inr ?_
        rw [not_not.mp hs, eq_offset_of_locate (not_not.mp ha) hl, eq_word_of_decodeCmd hw]
        rfl

end Sys2Proof.Machine
end

section
/-! PROOFS. The invariant of Safety.lean: it holds after reset, and every named update of a transition keeps it, so
every step does (O51, O52). -/

namespace Sys2Proof.Machine

/-! ## The parts of the invariant that read the tables -/

theorem activeCodeOk_iff (s : State) :
    activeCodeOk s = true ↔ ∃ len, s.mem.codeLen? s.curSym = some len ∧ s.curIdx.toNat < len.toNat := by
  unfold activeCodeOk
  cases s.mem.codeLen? s.curSym <;> simp

theorem traversalOk_iff (s : State) :
    traversalOk s = true ↔ s.cur = s.root ∨ ∃ e, s.mem.node? s.cur.toNat = some e ∧ e.leaf = false := by
  unfold traversalOk
  cases s.mem.node? s.cur.toNat <;> simp

/-! ## Beginnings with an empty datapath -/

/-- A state whose datapath is empty, but for CUR in UNPACK, has the invariant when its tables, its counts and its error
records agree with its mode. -/
theorem inv_of_emptyDatapath {t : State} (he : clearDatapath t = { t with cur := 0 })
    (hw : t.mem.wf = true) (hs : (t.mem.all fun c => Memory.storedAt c.1) = true)
    (hi : t.mode = .idle → t.cur = 0)
    (hu : t.mode = .unpack → t.symCount ≠ 0 ∧ t.root.toNat ≤ 510 ∧ t.cur = t.root)
    (hf : t.mode = .fault ↔ t.faultCause ≠ .none) (hfi : t.faultCause = .none → t.faultInfo = 0)
    (ha : t.aerr = true ↔ t.aerrCause ≠ .none) : t.Inv := by
  have hacc : 0 = t.acc := congrArg State.acc he
  have haccN : 0 = t.accN := congrArg State.accN he
  have hsrN : 0 = t.srN := congrArg State.srN he
  have hdinV : false = t.dinValid := congrArg State.dinValid he
  have hdinD : 0 = t.dinData := congrArg State.dinData he
  have hdoutD : 0 = t.doutData := congrArg State.doutData he
  have hcode : false = t.codeActive := congrArg State.codeActive he
  have hflush : false = t.flushReq := congrArg State.flushReq he
  exact
    { memCanonical := hw
      memStored := hs
      accPadding := by simp [← hacc, ← haccN]
      srCount := by simp [← hsrN]
      srMode := fun h => absurd hsrN.symm h
      dinEmpty := fun _ => hdinD.symm
      doutEmpty := fun _ => hdoutD.symm
      dinMode := by simp [← hdinV]
      codeMode := by simp [← hcode]
      flushMode := by simp [← hflush]
      unpackCount := fun hm => (hu hm).1
      unpackCur := fun hm => by
        obtain ⟨-, hr, hc⟩ := hu hm
        exact ⟨hr, hc ▸ hr, (traversalOk_iff t).mpr (.inl hc)⟩
      faultCause := hf
      faultInfo := hfi
      aerrCause := ha
      idleEmpty := fun hm => by rw [he, ← hi hm] }

/-- The state after a reset has the invariant, whatever the model's own fields hold. -/
theorem inv_resetTurn (s : State) : (resetTurn s).Inv :=
  inv_of_emptyDatapath rfl rfl rfl (fun _ => rfl) nofun (by simp [resetTurn, State.reset]) (fun _ => rfl)
    (by simp [resetTurn, State.reset])

/-! ## Updates of the records and of the model's own fields -/

/-- A change of nothing but the model's own fields, IE and the access-error record. -/
theorem State.Inv.chatter {s t : State} (h : s.Inv) (hc : Chatter s t) (ha : t.aerr = true ↔ t.aerrCause ≠ .none) :
    t.Inv := by
  obtain ⟨turns, replies, ie, aerr, cause, rfl⟩ := hc
  exact { h with
    aerrCause := ha
    idleEmpty := fun hm => congrArg
      (fun u : State => { u with turns := turns, replies := replies, ie := ie, aerr := aerr, aerrCause := cause })
      (h.idleEmpty hm) }

theorem State.Inv.setTurns {s : State} (h : s.Inv) (ts : List Turn) : State.Inv { s with turns := ts } :=
  h.chatter ⟨_, _, _, _, _, rfl⟩ h.aerrCause

protected theorem State.Inv.reply {s : State} (h : s.Inv) (v : Word) : (reply v s).Inv :=
  h.chatter ⟨_, _, _, _, _, rfl⟩ h.aerrCause

theorem State.Inv.setIe {s : State} (h : s.Inv) (v : BitVec 5) : State.Inv { s with ie := v } :=
  h.chatter ⟨_, _, _, _, _, rfl⟩ h.aerrCause

protected theorem State.Inv.clearAccessError {s : State} (h : s.Inv) : (clearAccessError s).Inv :=
  h.chatter ⟨_, _, _, _, _, rfl⟩ (by simp)

/-- The cause that stays is one, since AERR was set by one. -/
protected theorem State.Inv.raiseAccessError {s : State} (h : s.Inv) {c : AerrCause} (hc : c ≠ .none) :
    (raiseAccessError c s).Inv := by
  refine h.chatter ⟨_, _, _, _, _, rfl⟩ ?_
  cases ha : s.aerr with
  | false => simpa [ha] using hc
  | true => simpa [ha] using h.aerrCause.mp ha

/-- A fault of a run keeps the datapath, in which no code is active. -/
protected theorem State.Inv.raiseFault {s : State} (h : s.Inv) {c : FaultCause} (hc : c ≠ .none) (info : BitVec 9)
    (ha : s.codeActive = false) : (raiseFault c info s).Inv :=
  { h with
    srMode := fun _ => .inr rfl
    dinMode := fun _ => .inr (.inr rfl)
    codeMode := fun hx => absurd (ha.symm.trans hx) nofun
    flushMode := fun _ => .inr (.inr rfl)
    unpackCount := nofun
    unpackCur := nofun
    faultCause := ⟨fun _ => hc, fun _ => rfl⟩
    faultInfo := fun hx => absurd hx hc
    idleEmpty := nofun }

/-! ## What busy says of the mode -/

theorem State.not_idle_of_busy {s : State} (hb : s.busy = true) : s.mode ≠ .idle := fun hm => by
  simp [State.busy, hm] at hb

theorem State.not_run_of_not_busy {s : State} (hb : s.busy = false) : s.mode ≠ .pack ∧ s.mode ≠ .unpack := by
  simpa [State.busy] using hb

theorem State.busy_of_dinReady {s : State} (hr : s.dinReady = true) : s.busy = true := by
  obtain ⟨-, hm | ⟨hm, -⟩⟩ := s.dinReady_iff.mp hr
  · exact s.busy_iff.mpr (.inr hm)
  · exact s.busy_iff.mpr (.inl hm)

/-! ## Updates of the configuration -/

theorem State.Inv.setSymCount {s : State} (h : s.Inv) (v : Word) (hv : s.mode = .unpack → v ≠ 0) :
    State.Inv { s with symCount := v } :=
  { h with
    unpackCount := hv
    idleEmpty := fun hx => congrArg (fun u : State => { u with symCount := v }) (h.idleEmpty hx) }

theorem State.Inv.setRoot {s : State} (h : s.Inv) (r : NodeIdx) (hb : s.busy = false) :
    State.Inv { s with root := r } :=
  { h with
    unpackCur := fun hx => absurd hx (State.not_run_of_not_busy hb).2
    idleEmpty := fun hx => congrArg (fun u : State => { u with root := r }) (h.idleEmpty hx) }

/-- Outside a run no part of the datapath rests on the tables. -/
theorem State.Inv.setMem {s : State} (h : s.Inv) {m : Memory} (hb : s.busy = false) (hw : m.wf = true)
    (hs : (m.all fun c => Memory.storedAt c.1) = true) : State.Inv { s with mem := m } := by
  obtain ⟨hp, hu⟩ := State.not_run_of_not_busy hb
  exact { h with
    memCanonical := hw
    memStored := hs
    codeMode := fun hx => absurd (h.codeMode hx).1 hp
    unpackCur := fun hx => absurd hx hu
    idleEmpty := fun hx => congrArg (fun u : State => { u with mem := m }) (h.idleEmpty hx) }

/-! ## Updates of the holding registers -/

theorem State.Inv.setFlush {s : State} (h : s.Inv) (hm : s.mode = .pack) : State.Inv { s with flushReq := true } :=
  { h with
    flushMode := fun _ => .inl hm
    idleEmpty := fun hx => absurd (hm.symm.trans hx) nofun }

theorem State.Inv.loadDin {s : State} (h : s.Inv) (b : Byte) (hb : s.busy = true) :
    State.Inv { s with dinData := b, dinValid := true } :=
  { h with
    dinEmpty := nofun
    dinMode := fun _ => (s.busy_iff.mp hb).imp_right .inl
    idleEmpty := fun hx => absurd hx (State.not_idle_of_busy hb) }

protected theorem State.Inv.takeDin {s : State} (h : s.Inv) (hb : s.busy = true) : (takeDin s).Inv :=
  { h with
    dinEmpty := fun _ => rfl
    dinMode := nofun
    idleEmpty := fun hx => absurd hx (State.not_idle_of_busy hb) }

theorem State.Inv.popDout {s : State} (h : s.Inv) : State.Inv { s with doutValid := false, doutData := 0 } :=
  { h with
    doutEmpty := fun _ => rfl
    idleEmpty := fun hx => congrArg (fun u : State => { u with doutValid := false, doutData := 0 }) (h.idleEmpty hx) }

protected theorem State.Inv.emitOut {s : State} (h : s.Inv) (b : Byte) (hb : s.busy = true) : (emitOut b s).Inv :=
  { h with
    doutEmpty := nofun
    idleEmpty := fun hx => absurd hx (State.not_idle_of_busy hb) }

/-! ## Updates of the packer's datapath -/

theorem State.Inv.setAcc {s : State} (h : s.Inv) (a : BitVec 7) (n : BitVec 3) (hb : s.busy = true)
    (ha : a.toNat < 2 ^ n.toNat) : State.Inv { s with acc := a, accN := n } :=
  { h with
    accPadding := ha
    idleEmpty := fun hx => absurd hx (State.not_idle_of_busy hb) }

theorem State.Inv.setCode {s : State} (h : s.Inv) (y : Symbol) (i : BitVec 8) (active : Bool) (hm : s.mode = .pack)
    (ha : active = true → activeCodeOk { s with curSym := y, curIdx := i, codeActive := active } = true) :
    State.Inv { s with curSym := y, curIdx := i, codeActive := active } :=
  { h with
    codeMode := fun hx => ⟨hm, ha hx⟩
    idleEmpty := fun hx => absurd (hm.symm.trans hx) nofun }

/-! ## Updates of the unpacker's datapath -/

theorem State.Inv.setSr {s : State} (h : s.Inv) (b : Byte) (n : BitVec 4) (hm : s.mode = .unpack) (hn : n.toNat ≤ 8) :
    State.Inv { s with sr := b, srN := n } :=
  { h with
    srCount := hn
    srMode := fun _ => .inl hm
    idleEmpty := fun hx => absurd (hm.symm.trans hx) nofun }

theorem State.Inv.setCur {s : State} (h : s.Inv) (c : NodeIdx) (hm : s.mode = .unpack) (hc : c.toNat ≤ 510)
    (ht : traversalOk { s with cur := c } = true) : State.Inv { s with cur := c } :=
  { h with
    unpackCur := fun hx => ⟨(h.unpackCur hx).1, hc, ht⟩
    idleEmpty := fun hx => absurd (hm.symm.trans hx) nofun }

protected theorem State.Inv.consume {s : State} (h : s.Inv) (hm : s.mode = .unpack) (hn : 0 < s.srN.toNat) :
    (consume s).Inv := by
  refine h.setSr _ _ hm ?_
  have hle := h.srCount
  have h1 : (1 : BitVec 4).toNat = 1 := rfl
  rw [BitVec.toNat_sub, h1]
  omega

/-! ## The end of a run -/

/-- No fault is recorded outside FAULT. -/
theorem State.Inv.faultCause_none {s : State} (h : s.Inv) (hm : s.mode ≠ .fault) : s.faultCause = .none :=
  not_not.mp (mt h.faultCause.mpr hm)

theorem State.Inv.finishPack {s : State} (h : s.Inv) (hm : s.mode = .pack) (ha : s.codeActive = false)
    (hd : s.dinValid = false) : State.Inv { s with mode := .done } :=
  have hf := h.faultCause_none (by simp [hm])
  { h with
    srMode := fun hx => absurd (h.srMode hx) (by simp [hm])
    dinMode := fun hx => absurd (hd.symm.trans hx) nofun
    codeMode := fun hx => absurd (ha.symm.trans hx) nofun
    flushMode := fun _ => .inr (.inl rfl)
    unpackCount := nofun
    unpackCur := nofun
    faultCause := ⟨nofun, fun hx => absurd hf hx⟩
    idleEmpty := nofun }

/-- The last symbol leaves SYMCOUNT and CUR at values that only UNPACK asks about. -/
protected theorem State.Inv.finishUnpack {s : State} (h : s.Inv) (hm : s.mode = .unpack) (n : Word) (c : NodeIdx) :
    (finishUnpack { s with symCount := n, cur := c }).Inv :=
  have hf := h.faultCause_none (by simp [hm])
  { h with
    srCount := Nat.zero_le 8
    srMode := fun hx => absurd rfl hx
    dinEmpty := fun _ => rfl
    dinMode := nofun
    codeMode := fun hx => absurd (h.codeMode hx).1 (by simp [hm])
    flushMode := fun _ => .inr (.inl rfl)
    unpackCount := nofun
    unpackCur := nofun
    faultCause := ⟨nofun, fun hx => absurd hf hx⟩
    idleEmpty := nofun }

/-! ## The packer's steps -/

/-- The index after one within a code is within it, or its length. -/
theorem succ_lt {i len : BitVec 8} (h : i.toNat < len.toNat) (hne : i + 1 ≠ len) : (i + 1).toNat < len.toNat := by
  bv_omega

/-- A bit shifted into a partial byte stays below the new ACC_N. -/
theorem shift_lt {a : BitVec 7} {n : BitVec 3} (b : Bool) (h : a.toNat < 2 ^ n.toNat) (hn : n ≠ 7) :
    ((a <<< 1) ||| BitVec.zeroExtend 7 (BitVec.ofBool b)).toNat < 2 ^ (n + 1).toNat := by
  have h1 : (n + 1).toNat = n.toNat + 1 := by
    have : n.toNat ≠ 7 := fun hx => hn (BitVec.eq_of_toNat_eq hx)
    bv_omega
  have h2 : (BitVec.zeroExtend 7 (BitVec.ofBool b)).toNat < 2 ^ (n.toNat + 1) := by
    have : 1 < 2 ^ (n.toNat + 1) := Nat.one_lt_two_pow (by omega)
    cases b <;> simp
  rw [h1, BitVec.toNat_or]
  refine Nat.or_lt_two_pow ?_ h2
  rw [BitVec.toNat_shiftLeft, Nat.shiftLeft_eq, pow_succ]
  omega

@[simp] theorem shiftInto_mode (b : Bool) (s : State) : (shiftInto b s).mode = s.mode := by
  unfold shiftInto; split <;> rfl

@[simp] theorem shiftInto_mem (b : Bool) (s : State) : (shiftInto b s).mem = s.mem := by
  unfold shiftInto; split <;> rfl

@[simp] theorem shiftInto_curSym (b : Bool) (s : State) : (shiftInto b s).curSym = s.curSym := by
  unfold shiftInto; split <;> rfl

protected theorem State.Inv.shiftInto {s : State} (h : s.Inv) (b : Bool) (hb : s.busy = true) :
    (shiftInto b s).Inv := by
  obtain ⟨-, he⟩ | ⟨hn, he⟩ := shiftInto_cases b s
  · rw [he]; exact (h.emitOut _ hb).setAcc 0 0 hb (by decide)
  · rw [he]; exact h.setAcc _ _ hb (shift_lt b h.accPadding hn)

theorem inv_of_pTake {s t : State} (h : s.Inv) (he : pTakeEnabled s = true) (ht : pTake s = .next t) : t.Inv := by
  obtain ⟨hm, ha, -⟩ := (pTakeEnabled_iff s).mp he
  obtain ⟨-, rfl⟩ | ⟨len, hl, hne, rfl⟩ := pTake_cases ht
  · exact h.raiseFault (by decide) _ ha
  · refine (h.takeDin (s.busy_iff.mpr (.inl hm))).setCode _ _ _ hm fun _ => ?_
    have hpos : 0 < len.toNat := Nat.pos_of_ne_zero fun hz => hne (BitVec.eq_of_toNat_eq hz)
    exact (activeCodeOk_iff _).mpr ⟨len, hl, hpos⟩

theorem inv_of_pShift {s t : State} (h : s.Inv) (he : pShiftEnabled s = true) (ht : pShift s = .next t) : t.Inv := by
  obtain ⟨hm, ha, -⟩ := (pShiftEnabled_iff s).mp he
  obtain ⟨b, len, -, hl, rfl⟩ := pShift_cases ht
  refine (h.shiftInto b (s.busy_iff.mpr (.inl hm))).setCode _ _ _ (by simpa using hm) fun hx => ?_
  have hne : s.curIdx + 1 ≠ len := fun hc => by rw [if_pos hc] at hx; cases hx
  obtain ⟨len', hl', hlt⟩ := (activeCodeOk_iff s).mp (h.codeMode ha).2
  cases hl.symm.trans hl'
  exact (activeCodeOk_iff _).mpr ⟨len, by simpa using hl, succ_lt hlt hne⟩

theorem inv_of_pFlush {s t : State} (h : s.Inv) (he : pFlushEnabled s = true) (ht : pFlush s = .next t) : t.Inv := by
  obtain ⟨hm, -, ha, hd, -⟩ := (pFlushEnabled_iff s).mp he
  have hb := s.busy_iff.mpr (.inl hm)
  obtain ⟨-, hp⟩ | ⟨-, hp⟩ := pFlush_cases s <;> cases hp.symm.trans ht
  · exact h.finishPack hm ha hd
  · exact ((h.emitOut _ hb).setAcc 0 0 hb (by decide)).finishPack hm ha hd

/-! ## The unpacker's steps -/

theorem inv_of_uLoad {s t : State} (h : s.Inv) (he : uLoadEnabled s = true) (ht : uLoad s = .next t) : t.Inv := by
  obtain ⟨hm, -, -⟩ := (uLoadEnabled_iff s).mp he
  cases ht
  exact (h.takeDin (s.busy_iff.mpr (.inr hm))).setSr _ 8 hm (by decide)

protected theorem State.Inv.symOut {s : State} (h : s.Inv) (v : Symbol) (hm : s.mode = .unpack) : (symOut v s).Inv := by
  have he := h.emitOut v (s.busy_iff.mpr (.inr hm))
  obtain ⟨-, ht⟩ | ⟨hc, ht⟩ := symOut_cases v s
  · rw [ht]
    exact he.finishUnpack hm _ _
  · rw [ht]
    exact (he.setSymCount _ fun _ => hc).setCur _ hm (h.unpackCur hm).1 ((traversalOk_iff _).mpr (.inl rfl))

theorem inv_of_uBit {s t : State} (h : s.Inv) (he : uBitEnabled s = true) (ht : uBit s = .next t) : t.Inv := by
  obtain ⟨hm, hn, -⟩ := (uBitEnabled_iff s).mp he
  have ha : s.codeActive = false := by
    cases hx : s.codeActive with
    | false => rfl
    | true => exact absurd ((h.codeMode hx).1.symm.trans hm) nofun
  have hc := h.consume hm hn
  obtain ⟨_, -, -, -, rfl⟩ | ⟨n, -, -, -, rfl⟩ | ⟨_, -, -, -, rfl⟩ | ⟨_, m, -, -, -, -, -, rfl⟩ |
    ⟨_, m, -, -, hx, hmem, hleaf, rfl⟩ := uBit_cases ht
  · exact h.raiseFault (by decide) _ ha
  · exact hc.symOut _ hm
  · exact h.raiseFault (by decide) _ ha
  · exact hc.symOut _ hm
  · exact hc.setCur _ hm hx ((traversalOk_iff _).mpr (.inr ⟨m, hmem, hleaf⟩))

/-- The engine's turn keeps the invariant. -/
protected theorem State.Inv.engineTurn {s t : State} (h : s.Inv) (ht : engineTurn s = .next t) : t.Inv := by
  obtain ⟨he, hx⟩ | ⟨he, hx⟩ | ⟨he, hx⟩ | ⟨he, hx⟩ | ⟨he, hx⟩ | ⟨-, hx⟩ := engineTurn_cases s <;> rw [hx] at ht
  · exact inv_of_pTake h he ht
  · exact inv_of_pShift h he ht
  · exact inv_of_pFlush h he ht
  · exact inv_of_uLoad h he ht
  · exact inv_of_uBit h he ht
  · cases ht
    exact h

/-! ## The host's accesses -/

/-- Every command keeps the invariant. -/
theorem State.Inv.command {s t : State} {c : Command} (h : s.Inv) (he : CommandEffect s c t) : t.Inv := by
  have hw := h.memCanonical
  have hs := h.memStored
  -- No fault is recorded where a START is taken.
  have hf (hm : s.mode = .idle ∨ s.mode = .done) : s.faultCause = .none :=
    h.faultCause_none (by rcases hm with hm | hm <;> simp [hm])
  cases he with
  | nop => exact h
  | clear => exact inv_of_emptyDatapath rfl hw hs (fun _ => rfl) nofun (by simp) (fun _ => rfl) (by simp)
  | startPack hm =>
    exact inv_of_emptyDatapath rfl hw hs nofun nofun (by simp [hf hm]) h.faultInfo h.aerrCause
  | startUnpackNone hm =>
    exact inv_of_emptyDatapath rfl hw hs nofun nofun (by simp [hf hm]) h.faultInfo h.aerrCause
  | startUnpackFault => exact inv_of_emptyDatapath rfl hw hs nofun nofun (by simp) nofun h.aerrCause
  | startUnpack hm hc hr =>
    exact inv_of_emptyDatapath rfl hw hs nofun (fun _ => ⟨hc, hr, rfl⟩) (by simp [hf hm]) h.faultInfo h.aerrCause
  | startRefused => exact h.raiseAccessError nofun
  | flush hm => exact h.setFlush hm
  | flushRefused => exact h.raiseAccessError nofun
  | clrAerr => exact h.clearAccessError
  | reserved w => exact h.raiseAccessError nofun

/-- Every host access keeps the invariant. -/
theorem State.Inv.access {s t : State} {i : Instr} (h : s.Inv) (he : AccessEffect s i t) : t.Inv := by
  have hw := h.memCanonical
  have hs := h.memStored
  cases he with
  | command _ hc => exact h.command hc
  | reply _ v => exact h.reply v
  | pop => exact (h.reply _).popDout
  | refuse _ hc => exact h.raiseAccessError hc
  | wrIe v => exact h.setIe _
  | wrSymcount v hb => exact h.setSymCount v fun hm => absurd hm (State.not_run_of_not_busy hb).2
  | wrRoot v hb => exact h.setRoot _ hb
  | wrDin v hr => exact h.loadDin _ (State.busy_of_dinReady hr)
  | wrCodeLen y v hb => exact h.setMem hb (Memory.setCodeLen_wf y _ hw) (Memory.setCodeLen_stored y _ hs)
  | wrCodeW y k v hb => exact h.setMem hb (Memory.setCodeW_wf y k v hw) (Memory.setCodeW_stored y k.isLt v hs)
  | wrNode n v hb => exact h.setMem hb (Memory.setNode_wf n _ hw) (Memory.setNode_stored n.isLt _ hs)

/-! ## The obligations -/

/-- Settles O51: the datapath is empty after reset, and nothing is recorded. -/
theorem invariantHoldsAtReset : Obligations.InvariantHoldsAtReset :=
  inv_of_emptyDatapath rfl rfl rfl (fun _ => rfl) nofun (by simp [State.reset]) (fun _ => rfl) (by simp [State.reset])

/-- Settles O52: each of the engine's steps, a reset and each effect of an access keeps the invariant. -/
theorem everyStepKeepsTheInvariant : Obligations.EveryStepKeepsTheInvariant := by
  intro s t h hs
  cases stepEffect_of_step hs with
  | engine ts _ he => exact (h.setTurns ts).engineTurn he
  | reset ts _ he => exact he ▸ inv_resetTurn _
  | access a ts i _ _ he => exact (h.setTurns ts).access he

end Sys2Proof.Machine
end

section
/-! PROOFS. Who changes STATE and who writes what: read off from the effects of the commands, the accesses and the steps
(O9, O46, O48). -/

namespace Sys2Proof.Machine

/-! ## STATE -/

/-- Only CLEAR and the two START commands change STATE. -/
theorem CommandEffect.eq_of_mode_ne {s t : State} {c : Command} (he : CommandEffect s c t) (hne : t.mode ≠ s.mode) :
    c = .clear ∨ c = .startPack ∨ c = .startUnpack := by
  cases he with
  | clear => exact .inl rfl
  | startPack => exact .inr (.inl rfl)
  | startUnpackNone | startUnpackFault | startUnpack => exact .inr (.inr rfl)
  | startRefused hc => exact .inr hc
  | nop | flush | flushRefused | clrAerr | reserved => exact absurd rfl hne

/-- Of the accesses only a command changes STATE. -/
theorem AccessEffect.command_of_mode_ne {s t : State} {i : Instr} (he : AccessEffect s i t) (hne : t.mode ≠ s.mode) :
    ∃ c, commandOf i = some c ∧ CommandEffect s c t := by
  cases he with
  | command hi hc => exact ⟨_, hi, hc⟩
  | _ => exact absurd rfl hne

/-- The engine's turn changes the state only by an enabled step. -/
theorem enabled_of_engineTurn_ne {s t : State} (h : engineTurn s = .next t) (hne : t ≠ s) :
    ∃ e : EngineStep, e.enabled s = true := by
  obtain ⟨he, -⟩ | ⟨he, -⟩ | ⟨he, -⟩ | ⟨he, -⟩ | ⟨he, -⟩ | ⟨-, hx⟩ := engineTurn_cases s
  · exact ⟨.pTake, he⟩
  · exact ⟨.pShift, he⟩
  · exact ⟨.pFlush, he⟩
  · exact ⟨.uLoad, he⟩
  · exact ⟨.uBit, he⟩
  · cases hx.symm.trans h
    exact absurd rfl hne

/-- Whether an engine step is enabled does not depend on the turns to come. -/
theorem enabled_setTurns (e : EngineStep) (s : State) (ts : List Turn) :
    e.enabled { s with turns := ts } = e.enabled s := by cases e <;> rfl

/-- Settles O46: a change of STATE is traced through the effect of the turn that makes it. -/
theorem onlyCommandsAndEngineStepsChangeState : Obligations.OnlyCommandsAndEngineStepsChangeState := by
  refine ⟨⟨rfl, rfl, rfl, rfl, rfl⟩, State.busy_iff, fun s t hs hne => ?_⟩
  cases stepEffect_of_step hs with
  | reset ts ht => exact .inl ⟨ts, ht⟩
  | engine ts ht he =>
    obtain ⟨e, hen⟩ := enabled_of_engineTurn_ne he fun hx => hne (hx ▸ rfl)
    exact .inr (.inl ⟨⟨e, enabled_setTurns e s ts ▸ hen⟩, ht.imp_right fun hx => ⟨ts, hx⟩⟩)
  | access a ts i ht hd he =>
    obtain ⟨c, hi, hc⟩ := he.command_of_mode_ne hne
    refine .inr (.inr ⟨ts, Command.word c, ?_, ?_⟩)
    · obtain rfl | rfl := access_of_command hd hi
      · exact .inl ht
      · exact .inr ht
    · obtain rfl | rfl | rfl := hc.eq_of_mode_ne hne
      · exact .inl rfl
      · exact .inr (.inl rfl)
      · exact .inr (.inr rfl)

/-! ## The writers of the registers and the tables -/

theorem AccessEffect.wrIe_of_ie_ne {s t : State} {i : Instr} (he : AccessEffect s i t) (hne : t.ie ≠ s.ie) :
    ∃ v, i = .wrIe v := by
  cases he with
  | wrIe v => exact ⟨v, rfl⟩
  | command _ hc => cases hc <;> exact absurd rfl hne
  | _ => exact absurd rfl hne

/-- An instruction that is FLUSH is its row, or a write of its word to CTRL. -/
theorem eq_flush_of_commandOf {i : Instr} (hi : commandOf i = some .flush) : i = .flush ∨ i = .wrCtrl 0x00000004 := by
  cases i with
  | flush => exact .inl rfl
  | wrCtrl w => exact .inr (congrArg Instr.wrCtrl (eq_word_of_decodeCmd (Option.some.inj hi)))
  | _ => cases hi

theorem AccessEffect.flush_of_flushReq {s t : State} {i : Instr} (he : AccessEffect s i t) (hs : s.flushReq = false)
    (ht : t.flushReq = true) : i = .flush ∨ i = .wrCtrl 0x00000004 := by
  cases he with
  | command hi hc =>
    cases hc with
    | flush => exact eq_flush_of_commandOf hi
    | clear | startPack | startUnpackNone | startUnpackFault | startUnpack => cases ht
    | _ => exact absurd (hs.symm.trans ht) nofun
  | _ => exact absurd (hs.symm.trans ht) nofun

theorem AccessEffect.wrDin_of_dinValid {s t : State} {i : Instr} (he : AccessEffect s i t) (hs : s.dinValid = false)
    (ht : t.dinValid = true) : ∃ v, i = .wrDin v := by
  cases he with
  | wrDin v => exact ⟨v, rfl⟩
  | command _ hc =>
    cases hc with
    | clear | startPack | startUnpackNone | startUnpackFault | startUnpack => cases ht
    | _ => exact absurd (hs.symm.trans ht) nofun
  | _ => exact absurd (hs.symm.trans ht) nofun

theorem AccessEffect.tableWrite_of_mem_ne {s t : State} {i : Instr} (he : AccessEffect s i t) (hne : t.mem ≠ s.mem) :
    (∃ y v, i = .wrCodeLen y v) ∨ (∃ y k v, i = .wrCodeW y k v) ∨ ∃ n v, i = .wrNode n v := by
  cases he with
  | wrCodeLen y v => exact .inl ⟨y, v, rfl⟩
  | wrCodeW y k v => exact .inr (.inl ⟨y, k, v, rfl⟩)
  | wrNode n v => exact .inr (.inr ⟨n, v, rfl⟩)
  | command _ hc => cases hc <;> exact absurd rfl hne
  | _ => exact absurd rfl hne

/-- No access fills DOUT. -/
theorem AccessEffect.doutValid_eq_false {s t : State} {i : Instr} (he : AccessEffect s i t)
    (hs : s.doutValid = false) : t.doutValid = false := by
  cases he with
  | pop => rfl
  | command _ hc =>
    cases hc with
    | clear | startPack | startUnpackNone | startUnpackFault | startUnpack => rfl
    | _ => exact hs
  | _ => exact hs

/-- No access changes the reset counter or the turns to come. -/
theorem AccessEffect.epoch_turns {s t : State} {i : Instr} (he : AccessEffect s i t) :
    t.epoch = s.epoch ∧ t.turns = s.turns := by
  cases he with
  | command _ hc => cases hc <;> exact ⟨rfl, rfl⟩
  | _ => exact ⟨rfl, rfl⟩

/-- Settles O48: each clause is read off from the effects of an access. -/
theorem onlyTheirAccessesWriteThem : Obligations.OnlyTheirAccessesWriteThem := by
  intro i s t h
  have he := accessEffect_of_exec h
  exact ⟨he.wrIe_of_ie_ne, he.flush_of_flushReq, he.wrDin_of_dinValid, he.tableWrite_of_mem_ne, he.doutValid_eq_false,
    he.epoch_turns⟩

/-! ## CTRL -/

/-- Settles O9: a CTRL write and the decoded command's own row perform the same command. -/
theorem ctrlPerformsAndReadsZero : Obligations.CtrlPerformsAndReadsZero := by
  intro s w
  obtain ⟨t, ht, -⟩ := perform_effect (decodeCmd w) s
  exact ⟨⟨t, (exec_wrCtrl w s).trans ht, (exec_toInstr _ s).trans ht⟩, rfl⟩

end Sys2Proof.Machine
end

section
/-! PROOFS. What the views of the state read as: a register word is made of shifted fields, and each bit range of it is
one field or zero (O15, O16, O17, O20, O49). -/

namespace Sys2Proof.Machine

/-! ## Fields of a register word -/

/-- A field reads back in its own bits. -/
theorem extract_field_same {n : Nat} (x : BitVec n) {k : Nat} (h : k + n ≤ 32) :
    (BitVec.zeroExtend 32 x <<< k).extractLsb' k n = x := by
  ext i hi
  simp [BitVec.getLsbD_eq_getElem hi, show k + i < 32 by omega]

/-- A field leaves every bit range below it 0. -/
theorem extract_field_below {w : Nat} (x : BitVec w) {i n k : Nat} (h : i + n ≤ k) :
    (BitVec.zeroExtend 32 x <<< k).extractLsb' i n = 0#n := by
  ext j hj
  simp [show i + j < k by omega]

/-- A field leaves every bit range above it 0. -/
theorem extract_field_above {w : Nat} (x : BitVec w) {i n k : Nat} (h : k + w ≤ i) :
    (BitVec.zeroExtend 32 x <<< k).extractLsb' i n = 0#n := by
  ext j hj
  simp [BitVec.getLsbD_of_ge x (i + j - k) (by omega)]

/-- The lowest field reads back in its own bits. -/
theorem extract_low_same {n : Nat} (x : BitVec n) (h : n ≤ 32) : (BitVec.zeroExtend 32 x).extractLsb' 0 n = x := by
  simpa using extract_field_same x (k := 0) (by omega)

/-- The lowest field leaves every bit range above it 0. -/
theorem extract_low_above {w : Nat} (x : BitVec w) {i n : Nat} (h : w ≤ i) :
    (BitVec.zeroExtend 32 x).extractLsb' i n = 0#n := by
  simpa using extract_field_above x (k := 0) (n := n) (by omega)

/-! ## The views, field by field -/

theorem statusWord_fields (s : State) :
    s.statusWord.extractLsb' 0 3 = s.mode.code ∧ s.statusWord.extractLsb' 8 4 = s.aerrCause.code ∧
      s.statusWord.extractLsb' 12 4 = s.faultCause.code ∧ s.statusWord.extractLsb' 17 15 = 0#15 := by
  refine ⟨?_, ?_, ?_, ?_⟩ <;>
    simp (disch := omega) only [State.statusWord, flagWord, BitVec.extractLsb'_or, extract_low_same, extract_low_above,
      extract_field_same, extract_field_below, extract_field_above, BitVec.or_zero, BitVec.zero_or]

theorem statusWord_flags (s : State) :
    s.statusWord.getLsbD 3 = s.flushReq ∧ s.statusWord.getLsbD 4 = s.dinValid ∧
      s.statusWord.getLsbD 5 = s.doutValid ∧ s.statusWord.getLsbD 6 = s.aerr ∧ s.statusWord.getLsbD 7 = s.irq ∧
      s.statusWord.getLsbD 16 = s.dinReady := by
  refine ⟨?_, ?_, ?_, ?_, ?_, ?_⟩ <;> simp [State.statusWord, flagWord]

theorem dbgPackWord_fields (s : State) :
    s.dbgPackWord.extractLsb' 0 3 = s.accN ∧ s.dbgPackWord.extractLsb' 4 7 = s.acc ∧
      s.dbgPackWord.extractLsb' 11 5 = 0#5 ∧ s.dbgPackWord.extractLsb' 16 8 = s.curSym ∧
      s.dbgPackWord.extractLsb' 24 8 = s.curIdx := by
  refine ⟨?_, ?_, ?_, ?_, ?_⟩ <;>
    simp (disch := omega) only [State.dbgPackWord, flagWord, BitVec.extractLsb'_or, extract_low_same, extract_low_above,
      extract_field_same, extract_field_below, extract_field_above, BitVec.or_zero, BitVec.zero_or]

theorem dbgPackWord_codeActive (s : State) : s.dbgPackWord.getLsbD 3 = s.codeActive := by
  simp [State.dbgPackWord, flagWord]

theorem dbgUnpackWord_fields (s : State) :
    s.dbgUnpackWord.extractLsb' 0 8 = s.sr ∧ s.dbgUnpackWord.extractLsb' 8 4 = s.srN ∧
      s.dbgUnpackWord.extractLsb' 12 4 = 0#4 ∧ s.dbgUnpackWord.extractLsb' 16 9 = s.cur ∧
      s.dbgUnpackWord.extractLsb' 25 7 = 0#7 := by
  refine ⟨?_, ?_, ?_, ?_, ?_⟩ <;>
    simp (disch := omega) only [State.dbgUnpackWord, BitVec.extractLsb'_or, extract_low_same, extract_low_above,
      extract_field_same, extract_field_below, extract_field_above, BitVec.or_zero, BitVec.zero_or]

/-- irq is the OR of five conditions, each with its enable (10_state.md R48). -/
theorem State.irq_iff (s : State) : s.irq = true ↔
    (s.ie.getLsbD 0 = true ∧ s.mode = .done) ∨ (s.ie.getLsbD 1 = true ∧ s.mode = .fault) ∨
      (s.ie.getLsbD 2 = true ∧ s.aerr = true) ∨ (s.ie.getLsbD 3 = true ∧ s.doutValid = true) ∨
      (s.ie.getLsbD 4 = true ∧ s.dinReady = true) := by
  simp only [State.irq, Bool.or_eq_true, Bool.and_eq_true, decide_eq_true_eq, or_assoc]

/-! ## The obligations -/

/-- Settles O16: each bit range of the word a STATUS read returns is one field. -/
theorem statusReadsEveryField : Obligations.StatusReadsEveryField := by
  refine ⟨rfl, ⟨rfl, rfl, rfl, rfl, rfl, rfl, rfl⟩, ⟨rfl, rfl, rfl, rfl⟩, fun s => ⟨s.statusWord, rfl, ?_⟩⟩
  obtain ⟨hmode, haerr, hfault, hrest⟩ := statusWord_fields s
  obtain ⟨hflush, hdin, hdout, haerrBit, hirq, hready⟩ := statusWord_flags s
  exact ⟨hmode, hflush, hdin, hdout, haerrBit, hirq, haerr, hfault, hready ▸ s.dinReady_iff, hrest⟩

/-- Settles O17: each bit range of the two debug words is one field of the datapath, or zero. -/
theorem debugReadsEveryField : Obligations.DebugReadsEveryField := by
  intro s
  obtain ⟨haccN, hacc, hgap, hsym, hidx⟩ := dbgPackWord_fields s
  exact ⟨⟨s.dbgPackWord, rfl, haccN, dbgPackWord_codeActive s, hacc, hgap, hsym, hidx⟩,
    ⟨s.dbgUnpackWord, rfl, dbgUnpackWord_fields s⟩⟩

/-- Settles O15: the reads reply with the constant or the counter, FAULT_INFO with its field. -/
theorem constantAndCounterReads : Obligations.ConstantAndCounterReads := fun s =>
  ⟨rfl, rfl, rfl, rfl, rfl, rfl, BitVec.zeroExtend 32 s.faultInfo, rfl, extract_low_same _ (by decide),
    extract_low_above _ (by decide)⟩

/-- Settles O20: with DIN_READY written out. -/
theorem irqIsTheEnabledConditions : Obligations.IrqIsTheEnabledConditions := fun s => by
  rw [s.irq_iff, s.dinReady_iff]

/-- Settles O49: the reset state is a constant, its tables have no entry, and its views are 0. -/
theorem resetValues : Obligations.ResetValues := by
  unfold Obligations.ResetValues
  simp only [State.reset, true_and]
  exact ⟨fun _ => rfl, fun _ _ => rfl, fun _ => rfl, rfl, rfl, rfl, rfl⟩

end Sys2Proof.Machine
end

section
/-! PROOFS. The window and the order of its transitions (20_memory.md): which aligned offsets name nothing, which
accesses a step takes, what a read answers, and what no step of a run changes (O5, O6, O7, O19, O47). -/

namespace Sys2Proof.Machine

/-! ## The step, turn by turn -/

theorem step_of_decode {s : State} {a : Access} {ts : List Turn} {i : Instr} (ht : s.turns = .access a :: ts)
    (hd : decode a = .ok i) : step s = exec i { s with turns := ts } := by
  simp [step, ht, hd]

theorem step_of_decode_error {s : State} {a : Access} {ts : List Turn} {e : DecodeError}
    (ht : s.turns = .access a :: ts) (hd : decode a = .error e) : step s = .refused (refusalOf e) := by
  simp [step, ht, hd]

theorem step_of_engine {s : State} {ts : List Turn} (ht : s.turns = .engine :: ts) :
    step s = engineTurn { s with turns := ts } := by
  simp [step, ht]

theorem step_of_reset {s : State} {ts : List Turn} (ht : s.turns = .reset :: ts) :
    step s = .next (resetTurn { s with turns := ts }) := by
  simp [step, ht]

/-- Settles O7: one equation of the step for each kind of turn. -/
theorem stepRunsTheNextTurn : Obligations.StepRunsTheNextTurn := fun _ _ =>
  ⟨fun _ _ => step_of_decode, step_of_engine, step_of_reset, step_nil⟩

/-! ## The accesses that are taken (R63) -/

theorem decode_of_isWordAccess {a : Access} (h : Laws.isWordAccess a = true) : ∃ i, decode a = .ok i := by
  cases a with
  | cmd w => exact ⟨_, rfl⟩
  | rd off size | wr off size v =>
    simp only [Laws.isWordAccess, Bool.and_eq_true, decide_eq_true_eq] at h
    obtain ⟨hsize, halign⟩ := h
    exact ⟨_, (if_neg (not_not.mpr hsize)).trans (if_neg (not_not.mpr halign))⟩

theorem decode_of_not_isWordAccess {a : Access} (h : Laws.isWordAccess a = false) : ∃ e, decode a = .error e := by
  cases a with
  | cmd w => cases h
  | rd off size | wr off size v =>
    by_cases hsize : size = 4
    · have halign : off.toNat % 4 ≠ 0 := by simpa [Laws.isWordAccess, hsize] using h
      exact ⟨_, (if_neg (not_not.mpr hsize)).trans (if_pos halign)⟩
    · exact ⟨_, if_pos hsize⟩

/-- The step takes a word access, since every instruction answers a next state. -/
theorem step_of_isWordAccess {s : State} {a : Access} {ts : List Turn} (ht : s.turns = .access a :: ts)
    (ha : Laws.isWordAccess a = true) : ∃ t, step s = .next t := by
  obtain ⟨i, hd⟩ := decode_of_isWordAccess ha
  obtain ⟨t, hx, -⟩ := exec_effect i { s with turns := ts }
  exact ⟨t, (step_of_decode ht hd).trans hx⟩

theorem step_of_not_isWordAccess {s : State} {a : Access} {ts : List Turn} (ht : s.turns = .access a :: ts)
    (ha : Laws.isWordAccess a = false) : ∃ r, step s = .refused r := by
  obtain ⟨e, hd⟩ := decode_of_not_isWordAccess ha
  exact ⟨refusalOf e, step_of_decode_error ht hd⟩

/-- Settles O6: the accesses that decode are the word accesses, and what decodes has a next state. -/
theorem onlyAlignedWordsAreTaken : Obligations.OnlyAlignedWordsAreTaken := by
  intro s ts off size v a ha ht
  have hw : Laws.isWordAccess a = (decide (size = 4) && decide (off.toNat % 4 = 0)) := by
    obtain rfl | rfl := ha <;> rfl
  exact ⟨fun h => step_of_not_isWordAccess ht (by rw [hw]; simpa [imp_iff_not_or] using h),
    fun hsize halign => step_of_isWordAccess ht (by simp [hw, hsize, halign])⟩

/-! ## The unmapped offsets (R69) -/

theorem le_of_regAt_eq_none {i : Nat} (h : regAt i = none) : 14 ≤ i := by
  by_contra hn
  have hi : i < 14 := Nat.lt_of_not_le hn
  interval_cases i <;> cases h

/-- The map places nothing at exactly the aligned offsets of R69. -/
theorem locate_eq_unmapped_iff {off : Offset} (ha : off.toNat % 4 = 0) :
    locate off = .unmapped ↔ unmappedOffset off = true := by
  refine ⟨fun h => ?_, locate_unmapped ha⟩
  rw [unmappedOffset_iff]
  unfold locate at h
  simp only at h
  split at h
  · split at h
    next => cases h
    next hr =>
      have := le_of_regAt_eq_none hr
      omega
  · split at h
    · split at h
      · cases h
      · omega
    · split at h
      · omega
      · split at h
        · cases h
        · omega

/-- The gap between a symbol's entry and the next one, for some symbol, is a range of remainders in the CODE window. -/
theorem exists_codeGap_iff {n : Nat} (ha : n % 4 = 0) :
    (∃ y : Symbol, 0x1000 + 0x40 * y.toNat + 0x24 ≤ n ∧ n ≤ 0x1000 + 0x40 * y.toNat + 0x3C) ↔
      0x1000 ≤ n ∧ n ≤ 0x4FFC ∧ 0x24 ≤ n % 0x40 := by
  constructor
  · rintro ⟨y, hlo, hhi⟩
    have := y.isLt
    omega
  · rintro ⟨hlo, hhi, hgap⟩
    have hy : (n - 0x1000) / 0x40 < 2 ^ 8 := by omega
    refine ⟨BitVec.ofNatLT _ hy, ?_⟩
    rw [BitVec.toNat_ofNatLT]
    omega

theorem decodeRead_eq_unmapped_iff (off : Offset) : decodeRead off = .unmapped off .read ↔ locate off = .unmapped := by
  unfold decodeRead
  split <;> simp [*]

theorem decodeWrite_eq_unmapped_iff (off : Offset) (v : Word) :
    decodeWrite off v = .unmapped off (.write v) ↔ locate off = .unmapped := by
  unfold decodeWrite
  split <;> simp [*]

theorem decode_rd_aligned {off : Offset} (ha : off.toNat % 4 = 0) : decode (.rd off 4) = .ok (decodeRead off) :=
  if_neg (not_not.mpr ha)

theorem decode_wr_aligned {off : Offset} (v : Word) (ha : off.toNat % 4 = 0) :
    decode (.wr off 4 v) = .ok (decodeWrite off v) :=
  if_neg (not_not.mpr ha)

/-- Settles O5: a read and a write of an aligned offset are unmapped where the map places nothing, in the ranges of
R69. -/
theorem unmappedRanges : Obligations.UnmappedRanges := by
  intro off ha
  have hmax : off.toNat ≤ 0xFFFC := by
    have := off.isLt
    omega
  simp only [decode_rd_aligned ha, decode_wr_aligned _ ha, Except.ok.injEq, decodeRead_eq_unmapped_iff,
    decodeWrite_eq_unmapped_iff, forall_const, locate_eq_unmapped_iff ha, unmappedOffset_iff, exists_codeGap_iff ha,
    hmax, and_true]

/-! ## Reads (R67) -/

/-- A read that answers a view of the state, and a view that no reply changes, gives the same value again. -/
theorem read_repeats {i : Instr} {view : State → Word} (hread : ∀ s, exec i s = .next (reply (view s) s))
    (hview : ∀ v s, view (reply v s) = view s) (s : State) :
    ∃ v : Word, exec i s = .next { s with replies := s.replies ++ [v] } ∧
      exec i { s with replies := s.replies ++ [v] } = .next { s with replies := s.replies ++ [v] ++ [v] } :=
  ⟨view s, hread s, (hread (reply (view s) s)).trans (by rw [hview]; rfl)⟩

/-- Settles O19: every read but one of DOUT answers a view that no reply changes. -/
theorem readsRepeat : Obligations.ReadsRepeat := by
  rintro i s (hi | ⟨y, j, rfl⟩ | ⟨n, rfl⟩ | ⟨off, rfl⟩)
  · simp only [List.mem_cons, List.not_mem_nil, or_false] at hi
    obtain rfl | rfl | rfl | rfl | rfl | rfl | rfl | rfl | rfl | rfl | rfl | rfl | rfl := hi <;>
      exact read_repeats (fun _ => rfl) (fun _ _ => rfl) s
  · exact read_repeats (view := readCodeWord y j.val) (fun _ => rfl) (fun _ _ => rfl) s
  · exact read_repeats (view := readNodeWord n.val) (fun _ => rfl) (fun _ _ => rfl) s
  · exact read_repeats (view := fun _ => 0) (fun _ => rfl) (fun _ _ => rfl) s

/-! ## What stays during a run (R72, R277) -/

@[simp] theorem shiftInto_root (b : Bool) (s : State) : (shiftInto b s).root = s.root := by
  unfold shiftInto; split <;> rfl

theorem symOut_mem_root (v : Symbol) (s : State) : (symOut v s).mem = s.mem ∧ (symOut v s).root = s.root := by
  obtain ⟨-, h⟩ | ⟨-, h⟩ := symOut_cases v s <;> rw [h] <;> exact ⟨rfl, rfl⟩

theorem uBit_mem_root {s t : State} (h : uBit s = .next t) : t.mem = s.mem ∧ t.root = s.root := by
  obtain ⟨_, -, -, -, rfl⟩ | ⟨n, -, -, -, rfl⟩ | ⟨_, -, -, -, rfl⟩ | ⟨_, m, -, -, -, -, -, rfl⟩ |
    ⟨_, _, -, -, -, -, -, rfl⟩ := uBit_cases h
  · exact ⟨rfl, rfl⟩
  · exact symOut_mem_root n.sym (consume s)
  · exact ⟨rfl, rfl⟩
  · exact symOut_mem_root m.sym (consume s)
  · exact ⟨rfl, rfl⟩

/-- The engine writes no table and not ROOT. -/
theorem engineTurn_mem_root {s t : State} (h : engineTurn s = .next t) : t.mem = s.mem ∧ t.root = s.root := by
  obtain ⟨-, hx⟩ | ⟨-, hx⟩ | ⟨-, hx⟩ | ⟨-, hx⟩ | ⟨-, hx⟩ | ⟨-, hx⟩ := engineTurn_cases s <;> rw [hx] at h
  · obtain ⟨-, rfl⟩ | ⟨_, -, -, rfl⟩ := pTake_cases h <;> exact ⟨rfl, rfl⟩
  · obtain ⟨b, _, -, -, rfl⟩ := pShift_cases h
    exact ⟨shiftInto_mem b s, shiftInto_root b s⟩
  · obtain ⟨-, hp⟩ | ⟨-, hp⟩ := pFlush_cases s <;> cases hp.symm.trans h <;> exact ⟨rfl, rfl⟩
  · cases h
    exact ⟨rfl, rfl⟩
  · exact uBit_mem_root h
  · cases h
    exact ⟨rfl, rfl⟩

/-- No command writes the configuration. -/
theorem CommandEffect.config {s t : State} {c : Command} (he : CommandEffect s c t) :
    t.mem = s.mem ∧ t.root = s.root ∧ t.symCount = s.symCount := by
  cases he <;> exact ⟨rfl, rfl, rfl⟩

/-- Of the accesses only a configuration write, which is refused while busy, writes the configuration. -/
theorem AccessEffect.config_of_busy {s t : State} {i : Instr} (he : AccessEffect s i t) (hb : s.busy = true) :
    t.mem = s.mem ∧ t.root = s.root ∧ t.symCount = s.symCount := by
  cases he with
  | command _ hc => exact hc.config
  | wrSymcount _ hn | wrRoot _ hn | wrCodeLen _ _ hn | wrCodeW _ _ _ hn | wrNode _ _ hn =>
    exact absurd (hn.symm.trans hb) nofun
  | _ => exact ⟨rfl, rfl, rfl⟩

/-- Settles O47: the engine writes neither the tables nor ROOT, and a configuration write is refused while busy. -/
theorem tablesAreFixedDuringARun : Obligations.TablesAreFixedDuringARun := by
  intro s t hb hs hr
  cases stepEffect_of_step hs with
  | engine ts ht he =>
    obtain ⟨hmem, hroot⟩ := engineTurn_mem_root he
    refine ⟨hmem, hroot, fun a ts' ha => ?_⟩
    obtain ht | ht := ht <;> cases ha.symm.trans ht
  | reset ts ht => exact absurd ht (hr ts)
  | access a ts i _ _ he =>
    obtain ⟨hmem, hroot, hcount⟩ := he.config_of_busy hb
    exact ⟨hmem, hroot, fun _ _ _ => hcount⟩

end Sys2Proof.Machine
end

section
/-! PROOFS. The encoding (30_encoding.md): which words each command is decoded from, and that the decoder and the encoder
are inverse to each other, operand by operand (O1, O2, O3, O4). -/

namespace Sys2Proof.Machine

/-! ## Command words (R81 to R83) -/

theorem reservedWord_iff (w : Word) :
    reservedWord w = true ↔ w.extractLsb' 8 24 ≠ 0 ∨ 6 ≤ (w.extractLsb' 0 8).toNat := by
  simp only [reservedWord, Bool.or_eq_true, decide_eq_true_eq]

/-- A word that decodes to RESERVED has a nonzero RSVD field, or an OP past the last assigned one. -/
theorem decodeCmd_eq_reserved_iff {w : Word} : decodeCmd w = .reserved w ↔ reservedWord w = true := by
  refine ⟨fun h => ?_, decodeCmd_reserved⟩
  rw [reservedWord_iff]
  simp only [decodeCmd] at h
  split_ifs at h with hr h0 h1 h2 h3 h4 h5
  · exact .inl hr
  · exact .inr (by bv_omega)

/-- A command that its own match word decodes to is the decoding of that word alone. -/
theorem decodeCmd_eq_iff {c : Command} (hc : decodeCmd (Command.word c) = c) {w : Word} :
    decodeCmd w = c ↔ w = Command.word c :=
  ⟨eq_word_of_decodeCmd, fun h => h ▸ hc⟩

/-- Settles O1: each assigned command's match word decodes to it, and no other word does. -/
theorem eachCommandHasOneWord : Obligations.EachCommandHasOneWord := fun w =>
  ⟨decodeCmd_eq_iff (c := .nop) rfl, decodeCmd_eq_iff (c := .clear) rfl, decodeCmd_eq_iff (c := .startPack) rfl,
    decodeCmd_eq_iff (c := .startUnpack) rfl, decodeCmd_eq_iff (c := .flush) rfl, decodeCmd_eq_iff (c := .clrAerr) rfl,
    decodeCmd_eq_reserved_iff.trans (reservedWord_iff w)⟩

/-- Settles O2: the decoder computes on the twelve accesses. -/
theorem writtenOutWordsDecode : Obligations.WrittenOutWordsDecode := by
  unfold Obligations.WrittenOutWordsDecode
  decide

/-! ## The decoder at the offsets the encoder gives -/

theorem decode_rd_eq {off : Offset} {i : Instr} (ha : off.toNat % 4 = 0) (h : decodeRead off = i) :
    decode (.rd off 4) = .ok i := by
  rw [decode_rd_aligned ha, h]

theorem decode_wr_eq {off : Offset} {v : Word} {i : Instr} (ha : off.toNat % 4 = 0) (h : decodeWrite off v = i) :
    decode (.wr off 4 v) = .ok i := by
  rw [decode_wr_aligned v ha, h]

theorem decode_reg_read (r : Reg) : decode r.read = .ok (decodeRead r.offset) :=
  decode_rd_aligned (reg_offset_aligned r)

theorem decode_reg_write (r : Reg) (v : Word) : decode (r.write v) = .ok (decodeWrite r.offset v) :=
  decode_wr_aligned v (reg_offset_aligned r)

theorem codeOffset_word_aligned (y : Symbol) (j : Fin 9) : (BitVec.ofNat 16 (codeOffset y j.val)).toNat % 4 = 0 := by
  rw [toNat_codeOffset y j.isLt, codeOffset_aligned]

theorem nodeOffset_word_aligned (n : Fin 511) : (BitVec.ofNat 16 (nodeOffset n.val)).toNat % 4 = 0 := by
  rw [toNat_nodeOffset n.isLt, nodeOffset_aligned]

theorem decodeRead_codeOffset (y : Symbol) (j : Fin 9) :
    decodeRead (BitVec.ofNat 16 (codeOffset y j.val)) = .rdCode y j := by
  simp only [decodeRead, locate_codeOffset]

theorem decodeWrite_codeOffset_zero (y : Symbol) (v : Word) :
    decodeWrite (BitVec.ofNat 16 (codeOffset y 0)) v = .wrCodeLen y v := by
  have hl : locate (BitVec.ofNat 16 (codeOffset y 0)) = .code y 0 := locate_codeOffset y 0
  simp only [decodeWrite, hl]

theorem decodeWrite_codeOffset_succ (y : Symbol) (k : Fin 8) (v : Word) :
    decodeWrite (BitVec.ofNat 16 (codeOffset y (k.val + 1))) v = .wrCodeW y k v := by
  have hl : locate (BitVec.ofNat 16 (codeOffset y (k.val + 1))) = .code y k.succ := locate_codeOffset y k.succ
  simp only [decodeWrite, hl]
  rfl

theorem decodeRead_nodeOffset (n : Fin 511) : decodeRead (BitVec.ofNat 16 (nodeOffset n.val)) = .rdNode n := by
  simp only [decodeRead, locate_nodeOffset]

theorem decodeWrite_nodeOffset (n : Fin 511) (v : Word) :
    decodeWrite (BitVec.ofNat 16 (nodeOffset n.val)) v = .wrNode n v := by
  simp only [decodeWrite, locate_nodeOffset]

/-- Settles O3: a register's access decodes at the register's offset, a table access at its entry's offset, and the
operands of RESERVED and UNMAPPED are those their rows admit. A command is sent in its CMD spelling (log entry 12). -/
theorem decodeAfterEncode : Obligations.DecodeAfterEncode := by
  intro i hi
  cases i with
  | nop | clear | startPack | startUnpack | flush | clrAerr => rfl
  | reserved w => exact congrArg (fun c => Except.ok c.toInstr) (decodeCmd_reserved hi)
  | rdId | rdCtrl | rdStatus | rdIe | rdSymcount | rdRoot | rdDin | rdDout | rdInCount | rdOutCount | rdFaultInfo
  | rdDbgPack | rdDbgUnpack | rdParam => exact decode_reg_read _
  | wrId v | wrCtrl v | wrStatus v | wrIe v | wrSymcount v | wrRoot v | wrDin v | wrDout v | wrInCount v
  | wrOutCount v | wrFaultInfo v | wrDbgPack v | wrDbgUnpack v | wrParam v => exact decode_reg_write _ v
  | wrCodeLen y v => exact decode_wr_eq (codeOffset_word_aligned y 0) (decodeWrite_codeOffset_zero y v)
  | wrCodeW y k v => exact decode_wr_eq (codeOffset_word_aligned y k.succ) (decodeWrite_codeOffset_succ y k v)
  | rdCode y j => exact decode_rd_eq (codeOffset_word_aligned y j) (decodeRead_codeOffset y j)
  | wrNode n v => exact decode_wr_eq (nodeOffset_word_aligned n) (decodeWrite_nodeOffset n v)
  | rdNode n => exact decode_rd_eq (nodeOffset_word_aligned n) (decodeRead_nodeOffset n)
  | unmapped off use =>
    simp only [Instr.wellFormed, Bool.and_eq_true, decide_eq_true_eq] at hi
    obtain ⟨ha, hu⟩ := hi
    have hl : locate off = .unmapped := locate_unmapped ha hu
    cases use with
    | read => exact decode_rd_eq ha ((decodeRead_eq_unmapped_iff off).mpr hl)
    | write v => exact decode_wr_eq ha ((decodeWrite_eq_unmapped_iff off v).mpr hl)

/-! ## The encoder at the instructions the decoder gives -/

/-- An instruction is well formed, and its access is the given one. -/
def EncodesTo (i : Instr) (a : Access) : Prop := i.wellFormed = true ∧ encode i = a

/-- An aligned offset names a CODE word only where the word stands (10_state.md R45). -/
theorem eq_codeOffset_of_locate {off : Offset} {y : Symbol} {j : Fin 9} (ha : off.toNat % 4 = 0)
    (h : locate off = .code y j) : off = BitVec.ofNat 16 (codeOffset y j.val) := by
  unfold locate at h
  simp only at h
  split at h
  · split at h <;> cases h
  · split at h
    · split at h
      · cases h
        refine BitVec.eq_of_toNat_eq ?_
        simp only [BitVec.toNat_ofNat, codeOffset]
        omega
      · cases h
    · split at h
      · cases h
      · split at h <;> cases h

/-- An aligned offset names a NODE entry only where the entry stands (10_state.md R46). -/
theorem eq_nodeOffset_of_locate {off : Offset} {n : Fin 511} (ha : off.toNat % 4 = 0)
    (h : locate off = .node n) : off = BitVec.ofNat 16 (nodeOffset n.val) := by
  unfold locate at h
  simp only at h
  split at h
  · split at h <;> cases h
  · split at h
    · split at h <;> cases h
    · split at h
      · cases h
      · split at h
        · cases h
          refine BitVec.eq_of_toNat_eq ?_
          simp only [BitVec.toNat_ofNat, nodeOffset]
          omega
        · cases h

theorem unmapped_wellFormed {off : Offset} (ha : off.toNat % 4 = 0) (hl : locate off = .unmapped) (use : UnmappedUse) :
    (Instr.unmapped off use).wellFormed = true := by
  simp only [Instr.wellFormed, Bool.and_eq_true, decide_eq_true_eq]
  exact ⟨ha, (locate_eq_unmapped_iff ha).mp hl⟩

/-- A read goes back to its own offset, whatever the map places there. -/
theorem encodesTo_decodeRead {off : Offset} (ha : off.toNat % 4 = 0) : EncodesTo (decodeRead off) (.rd off 4) := by
  cases hl : locate off with
  | reg r =>
    obtain rfl := eq_offset_of_locate ha hl
    cases r <;> exact ⟨rfl, rfl⟩
  | code y j =>
    obtain rfl := eq_codeOffset_of_locate ha hl
    rw [decodeRead_codeOffset]
    exact ⟨rfl, rfl⟩
  | node n =>
    obtain rfl := eq_nodeOffset_of_locate ha hl
    rw [decodeRead_nodeOffset]
    exact ⟨rfl, rfl⟩
  | unmapped =>
    rw [(decodeRead_eq_unmapped_iff off).mpr hl]
    exact ⟨unmapped_wellFormed ha hl _, rfl⟩

/-- A write goes back to its own offset with its own value, whatever the map places there. -/
theorem encodesTo_decodeWrite {off : Offset} (ha : off.toNat % 4 = 0) (v : Word) :
    EncodesTo (decodeWrite off v) (.wr off 4 v) := by
  cases hl : locate off with
  | reg r =>
    obtain rfl := eq_offset_of_locate ha hl
    cases r <;> exact ⟨rfl, rfl⟩
  | code y j =>
    obtain rfl := eq_codeOffset_of_locate ha hl
    cases j using Fin.cases with
    | zero => exact (decodeWrite_codeOffset_zero y v).symm ▸ ⟨rfl, rfl⟩
    | succ k => exact (decodeWrite_codeOffset_succ y k v).symm ▸ ⟨rfl, rfl⟩
  | node n =>
    obtain rfl := eq_nodeOffset_of_locate ha hl
    rw [decodeWrite_nodeOffset]
    exact ⟨rfl, rfl⟩
  | unmapped =>
    rw [(decodeWrite_eq_unmapped_iff off v).mpr hl]
    exact ⟨unmapped_wellFormed ha hl _, rfl⟩

theorem encode_toInstr (c : Command) : encode c.toInstr = .cmd (Command.word c) := by cases c <;> rfl

/-- A command word goes back to itself: RESERVED keeps the word, and every other command has one word. -/
theorem encodesTo_decodeCmd (w : Word) : EncodesTo (decodeCmd w).toInstr (.cmd w) := by
  refine ⟨?_, by rw [encode_toInstr, ← eq_word_of_decodeCmd rfl]⟩
  cases hc : decodeCmd w with
  | reserved v =>
    obtain rfl : w = v := eq_word_of_decodeCmd hc
    exact decodeCmd_eq_reserved_iff.mp hc
  | nop | clear | startPack | startUnpack | flush | clrAerr => rfl

/-- The decoder takes word accesses only (20_memory.md R63). -/
theorem isWordAccess_of_decode {a : Access} {i : Instr} (h : decode a = .ok i) : Laws.isWordAccess a = true := by
  by_contra hn
  obtain ⟨e, he⟩ := decode_of_not_isWordAccess (Bool.eq_false_of_not_eq_true hn)
  cases h.symm.trans he

/-- Settles O4: an accepted access is a command word or an aligned word access, and each goes back to itself. -/
theorem encodeAfterDecode : Obligations.EncodeAfterDecode := by
  intro a i h
  have hw := isWordAccess_of_decode h
  cases a with
  | cmd w =>
    cases h
    exact encodesTo_decodeCmd w
  | rd off size =>
    simp only [Laws.isWordAccess, Bool.and_eq_true, decide_eq_true_eq] at hw
    obtain ⟨rfl, ha⟩ := hw
    cases (decode_rd_aligned ha).symm.trans h
    exact encodesTo_decodeRead ha
  | wr off size v =>
    simp only [Laws.isWordAccess, Bool.and_eq_true, decide_eq_true_eq] at hw
    obtain ⟨rfl, ha⟩ := hw
    cases (decode_wr_aligned v ha).symm.trans h
    exact encodesTo_decodeWrite ha v

end Sys2Proof.Machine
end

section
/-! PROOFS. The commands (40_commands.md R101 to R107): an effect of a command whose guard holds is what its row answers, so
each obligation names the effect and shows its guard (O10, O11, O12, O13, O14). -/

namespace Sys2Proof.Machine

/-! ## The row of a command -/

/-- An effect of a command is what its row answers: with `perform_effect`, the effects are the answers exactly. -/
theorem exec_of_commandEffect {s t : State} {c : Command} (he : CommandEffect s c t) : exec c.toInstr s = .next t := by
  rw [exec_toInstr]
  cases he with
  | nop | clear | clrAerr | reserved => rfl
  | startPack hm | flush hm => exact if_pos hm
  | flushRefused hm => exact if_neg hm
  | startUnpackNone hm hc => exact (if_pos hm).trans (if_pos hc)
  | startUnpackFault hm hc hr => exact (if_pos hm).trans ((if_neg hc).trans (if_pos hr))
  | startUnpack hm hc hr => exact (if_pos hm).trans ((if_neg hc).trans (if_neg (Nat.not_lt.mpr hr)))
  | startRefused hc hm => obtain rfl | rfl := hc <;> exact if_neg hm

/-! ## The guards of the START commands -/

/-- The states in which a START command is refused are not those in which it begins a run. -/
theorem not_idle_or_done {m : Mode} (hm : m = .pack ∨ m = .unpack ∨ m = .fault) : ¬ (m = .idle ∨ m = .done) := by
  obtain rfl | rfl | rfl := hm <;> decide

/-- 511 is the one node index that is no entry. -/
theorem toNat_le_510_of_ne {n : NodeIdx} (h : n ≠ 511) : n.toNat ≤ 510 := by bv_omega

/-! ## The obligations -/

/-- Settles O10: the one effect of each of the three commands has no guard. -/
theorem nopClrAerrAndReserved : Obligations.NopClrAerrAndReserved := fun _ w =>
  ⟨exec_of_commandEffect .nop, exec_of_commandEffect .clrAerr, exec_of_commandEffect (.reserved w)⟩

/-- Settles O11: the one effect of CLEAR has no guard. -/
theorem clearResetsTheEngine : Obligations.ClearResetsTheEngine := fun _ => exec_of_commandEffect .clear

/-- Settles O12: the guard of each effect of START_PACK is the state the command is given in. -/
theorem startPackBeginsOrRefuses : Obligations.StartPackBeginsOrRefuses := fun _ =>
  ⟨fun hm => exec_of_commandEffect (.startPack hm),
    fun hm => exec_of_commandEffect (.startRefused (.inl rfl) (not_idle_or_done hm))⟩

/-- Settles O13: the guards of the effects of START_UNPACK, with ROOT past the last entry exactly where it is 511. -/
theorem startUnpackBeginsFaultsOrRefuses : Obligations.StartUnpackBeginsFaultsOrRefuses := by
  intro s
  refine ⟨fun hm hc => exec_of_commandEffect (.startUnpackNone hm hc), fun hm hc hr => ?_,
    fun hm hc hr => exec_of_commandEffect (.startUnpack hm hc (toNat_le_510_of_ne hr)),
    fun hm => exec_of_commandEffect (.startRefused (.inr rfl) (not_idle_or_done hm))⟩
  rw [← hr]
  exact exec_of_commandEffect (.startUnpackFault hm hc (by rw [hr]; decide))

/-- Settles O14: the guard of each effect of FLUSH is whether STATE is PACK. -/
theorem flushMarksOrRefuses : Obligations.FlushMarksOrRefuses := fun _ =>
  ⟨fun hm => exec_of_commandEffect (.flush hm), fun hm => exec_of_commandEffect (.flushRefused hm)⟩

end Sys2Proof.Machine
end

section
/-! PROOFS. The register and table accesses (41_register_access.md R120 to R141): each answers what its rule gives, and
a configuration write stores exactly where the engine is not busy (O8, O18, O21 to O32). -/

namespace Sys2Proof.Machine

/-! ## The accesses of the registers -/

/-- Settles O8: every instruction answers one of its effects. -/
theorem everyAccessCompletes : Obligations.EveryAccessCompletes := fun i s =>
  let ⟨t, ht, _⟩ := exec_effect i s
  ⟨t, ht⟩

theorem State.doutWord_of_valid {s : State} (h : s.doutValid = true) :
    s.doutWord = 0x00000100 ||| BitVec.zeroExtend 32 s.doutData := if_pos h

theorem State.doutWord_of_empty {s : State} (h : s.doutValid = false) : s.doutWord = 0x00000000 :=
  if_neg (Bool.eq_false_iff.mp h)

/-- Settles O18: the two cases of the read are those of the word it returns. -/
theorem doutReadPops : Obligations.DoutReadPops := by
  refine fun s => ⟨fun hv => ?_, fun hv => ?_⟩
  · rw [← State.doutWord_of_valid hv]
    exact if_pos hv
  · rw [← State.doutWord_of_empty hv]
    exact if_neg (Bool.eq_false_iff.mp hv)

/-- Settles O21: the word read is the five bits, zero-extended. -/
theorem ieStoresFiveBits : Obligations.IeStoresFiveBits := fun s _ =>
  ⟨rfl, BitVec.zeroExtend 32 s.ie, rfl, extract_low_same _ (by decide), extract_low_above _ (by decide)⟩

/-- DIN_STATE is checked first (60_exceptions.md R252). -/
theorem execWrDin_of_not_accepting (v : Word) {s : State} (h : s.accepting = false) :
    execWrDin v s = .next (raiseAccessError .dinState s) := by
  simp [execWrDin, h]

theorem execWrDin_of_full (v : Word) {s : State} (ha : s.accepting = true) (hv : s.dinValid = true) :
    execWrDin v s = .next (raiseAccessError .dinOverflow s) := by
  simp [execWrDin, ha, hv]

/-- Settles O24: an accepting state with DIN empty is one in which DIN is ready. -/
theorem dinLoadsOrRefuses : Obligations.DinLoadsOrRefuses := fun s v =>
  ⟨fun hm => execWrDin_of_not_accepting v (Bool.eq_false_iff.mpr fun ha => hm (s.accepting_iff.mp ha)),
    fun hm hv => execWrDin_of_full v (s.accepting_iff.mpr hm) hv,
    fun hm hv => execWrDin_ready v (s.dinReady_iff.mpr ⟨hv, hm⟩)⟩

/-- Settles O25: each of the nine rows only records BAD_ADDR. -/
theorem readOnlyWritesAreRecorded : Obligations.ReadOnlyWritesAreRecorded := by
  intro s v i hi
  simp only [List.mem_cons, List.not_mem_nil, or_false] at hi
  obtain rfl | rfl | rfl | rfl | rfl | rfl | rfl | rfl | rfl := hi <;> rfl

/-- Settles O26: the row UNMAPPED looks at its use only. -/
theorem unmappedReadsZeroAndRefusesWrites : Obligations.UnmappedReadsZeroAndRefusesWrites := fun _ _ _ => ⟨rfl, rfl⟩

/-! ## Configuration writes -/

/-- Not busy, a configuration write stores. -/
theorem configWrite_of_not_busy (store : State → State) {s : State}
    (hm : s.mode = .idle ∨ s.mode = .done ∨ s.mode = .fault) : configWrite store s = store s :=
  if_neg (Bool.eq_false_iff.mp (s.not_busy_iff.mpr hm))

/-- While busy, a configuration write only records CFG_BUSY. -/
theorem configWrite_of_busy (store : State → State) {s : State} (hm : s.mode = .pack ∨ s.mode = .unpack) :
    configWrite store s = raiseAccessError .cfgBusy s :=
  if_pos (s.busy_iff.mpr hm)

/-- An instruction that is a configuration write stores when not busy. -/
theorem exec_stores {i : Instr} {s : State} {store : State → State} (hx : exec i s = .next (configWrite store s))
    (hm : s.mode = .idle ∨ s.mode = .done ∨ s.mode = .fault) : exec i s = .next (store s) :=
  hx.trans (congrArg _ (configWrite_of_not_busy store hm))

/-- An instruction that is a configuration write is refused while busy. -/
theorem exec_refused {i : Instr} {s : State} {store : State → State} (hx : exec i s = .next (configWrite store s))
    (hm : s.mode = .pack ∨ s.mode = .unpack) : exec i s = .next (raiseAccessError .cfgBusy s) :=
  hx.trans (congrArg _ (configWrite_of_busy store hm))

/-- Settles O22: SYMCOUNT is configuration. -/
theorem symcountStoresOrRefuses : Obligations.SymcountStoresOrRefuses := fun _ v =>
  ⟨exec_stores (store := fun s => { s with symCount := v }) rfl, exec_refused rfl⟩

/-- Settles O23: ROOT is configuration, and reads as its nine bits, zero-extended. -/
theorem rootStoresNineBitsOrRefuses : Obligations.RootStoresNineBitsOrRefuses := fun s v =>
  ⟨exec_stores (store := fun s => { s with root := rootOperand v }) rfl, exec_refused rfl,
    BitVec.zeroExtend 32 s.root, rfl, extract_low_same _ (by decide), extract_low_above _ (by decide)⟩

/-! ## Writes of the tables -/

/-- Settles O27: the one byte stored is CODE_LEN's. -/
theorem codeLenWriteStoresOneByte : Obligations.CodeLenWriteStoresOneByte := fun s y v =>
  ⟨fun hm => ⟨_, exec_stores (store := fun s => { s with mem := s.mem.setCodeLen y (codeLenOperand v) }) rfl hm,
    s.mem.codeLen?_setCodeLen_same y _, fun _ ha => Memory.readByte_writeByte_other _ ha s.mem⟩, exec_refused rfl⟩

/-- Settles O28: the four bytes stored are the word's. -/
theorem codeWordWriteStoresOneWord : Obligations.CodeWordWriteStoresOneWord := fun s y k v =>
  ⟨fun hm => ⟨_, exec_stores (store := fun s => { s with mem := s.mem.setCodeW y k.val v }) rfl hm,
    s.mem.codeW?_setCodeW_same y k.val v, fun _ ha => Memory.readByte_writeWord_other v s.mem ha⟩, exec_refused rfl⟩

/-- Settles O29: the four bytes stored are the word of the entry. -/
theorem nodeWriteStoresThreeFields : Obligations.NodeWriteStoresThreeFields := fun s n v =>
  ⟨fun hm => ⟨_, exec_stores (store := fun s => { s with mem := s.mem.setNode n.val (nodeOperand v) }) rfl hm,
    s.mem.node?_setNode_same n.val _, fun _ ha => Memory.readByte_writeWord_other _ s.mem ha⟩, exec_refused rfl⟩

/-! ## Reads of the CODE table -/

theorem readCodeWord_zero_of_codeLen? {s : State} {y : Symbol} {len : Byte} (h : s.mem.codeLen? y = some len) :
    readCodeWord y 0 s = BitVec.zeroExtend 32 len := by
  simp [readCodeWord, h]

/-- Word 0 is a byte, zero-extended, written or not (93_implementation_defined.md I1). -/
theorem readCodeWord_zero_above (y : Symbol) (s : State) : (readCodeWord y 0 s).extractLsb' 8 24 = 0 :=
  extract_low_above (w := 8) _ (by decide)

theorem readCodeWord_succ_of_codeW? {s : State} {y : Symbol} {k : Nat} {w : Word} (h : s.mem.codeW? y k = some w) :
    readCodeWord y (k + 1) s = w :=
  (if_neg (Nat.succ_ne_zero k)).trans (congrArg (Option.getD · (draw s (codeOffset y (k + 1)))) h)

/-- Settles O30: word 0 is the length and word k + 1 is W word k. -/
theorem codeReadReturnsTheEntry : Obligations.CodeReadReturnsTheEntry := by
  refine fun s y j => ⟨readCodeWord y j.val s, rfl, fun len hj hl => ?_, fun hj => ?_, fun k w hj hw => ?_⟩ <;> rw [hj]
  · exact readCodeWord_zero_of_codeLen? hl
  · exact readCodeWord_zero_above y s
  · exact readCodeWord_succ_of_codeW? hw

/-! ## Reads of the NODE table -/

/-- The word of an entry has each field in its own bits. -/
theorem NodeEntry.toWord_fields (e : NodeEntry) :
    e.toWord.getLsbD 31 = e.leaf ∧ e.toWord.extractLsb' 16 9 = e.hi ∧ e.toWord.extractLsb' 0 9 = e.lo :=
  have h := NodeEntry.ofWord_toWord e
  ⟨congrArg NodeEntry.leaf h, congrArg NodeEntry.hi h, congrArg NodeEntry.lo h⟩

/-- The bits between the fields of an entry's word are 0. -/
theorem NodeEntry.toWord_gaps (e : NodeEntry) : e.toWord.extractLsb' 25 6 = 0 ∧ e.toWord.extractLsb' 9 7 = 0 := by
  constructor <;>
    simp (disch := omega) only [NodeEntry.toWord, BitVec.extractLsb'_or, extract_low_above, extract_field_below,
      extract_field_above, BitVec.or_zero] <;> rfl

theorem readNodeWord_of_node? {s : State} {n : Nat} {e : NodeEntry} (h : s.mem.node? n = some e) :
    readNodeWord n s = e.toWord := by
  simp [readNodeWord, h]

/-- Settles O31: the word returned is the word of an entry, the stored one where it is written. -/
theorem nodeReadReturnsTheEntry : Obligations.NodeReadReturnsTheEntry := by
  refine fun s n => ⟨readNodeWord n.val s, rfl, fun e he => ?_, NodeEntry.toWord_gaps _⟩
  rw [readNodeWord_of_node? he]
  exact NodeEntry.toWord_fields e

/-- A field of a word put back in its place is the word masked by the field's bits. -/
theorem field_eq_mask (v : Word) (k n : Nat) :
    BitVec.zeroExtend 32 (v.extractLsb' k n) <<< k = v &&& (BitVec.zeroExtend 32 (BitVec.allOnes n) <<< k) := by
  ext i hi
  by_cases hk : i < k
  · simp [hk]
  · simp [hk, show k + (i - k) = i by omega, BitVec.getLsbD_eq_getElem hi, Bool.and_comm]

/-- The word of the entry read from a written word is that word with the ignored bits 0. -/
theorem NodeEntry.toWord_ofWord (v : Word) : (NodeEntry.ofWord v).toWord = v &&& 0x81FF01FF := by
  have hleaf : BitVec.ofBool (v.getLsbD 31) = v.extractLsb' 31 1 := by
    ext i hi
    obtain rfl : i = 0 := by omega
    simp
  have hlo : BitVec.zeroExtend 32 (v.extractLsb' 0 9) = v &&& BitVec.zeroExtend 32 (BitVec.allOnes 9) := by
    simpa only [BitVec.shiftLeft_zero] using field_eq_mask v 0 9
  simp only [NodeEntry.toWord, NodeEntry.ofWord, hleaf, hlo, field_eq_mask, ← BitVec.and_or_distrib_left]
  rfl

/-- Settles O32: the read returns the word of the entry that the write stored (O29). -/
theorem nodeReadsBackMasked : Obligations.NodeReadsBackMasked := by
  intro s t n v hm hx
  obtain ⟨m, hst, he, -⟩ := (nodeWriteStoresThreeFields s n v).1 hm
  cases hst.symm.trans hx
  have hr : readNodeWord n.val { s with mem := m } = v &&& 0x81FF01FF :=
    (readNodeWord_of_node? he).trans (NodeEntry.toWord_ofWord v)
  exact congrArg (fun w => Host.Outcome.next (reply w { s with mem := m })) hr

end Sys2Proof.Machine
end

section
/-! PROOFS. The tree builder (42_tables.md R153 to R158): the sorted table, the working collection, the symbols under a
node, and the invariant of the merge loop (O55, O56). -/

namespace Sys2Proof.Machine

/-! ## The sorted table (42_tables.md R153) -/

theorem insertPair_eq_orderedInsert (p : Symbol × Nat) (f : FreqTable) :
    insertPair p f = f.orderedInsert (fun q r => q.1.toNat ≤ r.1.toNat) p := by
  induction f with
  | nil => rfl
  | cons q f ih => rw [insertPair, List.orderedInsert_cons, ih]

theorem FreqTable.sorted_perm (f : FreqTable) : f.sorted.Perm f := by
  rw [FreqTable.sorted, funext₂ insertPair_eq_orderedInsert]
  exact List.perm_insertionSort _ f

theorem insertPair_comm_of_lt {p q : Symbol × Nat} (h : p.1.toNat < q.1.toNat) (f : FreqTable) :
    insertPair p (insertPair q f) = insertPair q (insertPair p f) := by
  induction f with
  | nil => simp [insertPair, h.le, h]
  | cons r f ih =>
    by_cases hq : q.1.toNat ≤ r.1.toNat
    · simp [insertPair, hq, h.le.trans hq, h.le, h]
    · by_cases hp : p.1.toNat ≤ r.1.toNat
      · simp [insertPair, hq, hp, h]
      · simp [insertPair, hq, hp, ih]

/-- Pairs of different symbols may be inserted in either order, into any table. -/
theorem insertPair_comm {p q : Symbol × Nat} (hpq : p.1 ≠ q.1) (f : FreqTable) :
    insertPair p (insertPair q f) = insertPair q (insertPair p f) := by
  rcases Nat.lt_or_gt_of_ne fun h => hpq (BitVec.eq_of_toNat_eq h) with h | h
  · exact insertPair_comm_of_lt h f
  · exact (insertPair_comm_of_lt h f).symm

/-- Settles O56: the pairs' insertions commute, so the sorted tables are equal. -/
theorem treeIgnoresTheHeaderOrder : Obligations.TreeIgnoresTheHeaderOrder := by
  intro f g hf hp
  have hcomm : ∀ p ∈ f, ∀ q ∈ f, ∀ t, insertPair q (insertPair p t) = insertPair p (insertPair q t) := by
    intro p hp q hq t
    by_cases hpq : p = q
    · rw [hpq]
    · exact insertPair_comm (fun h => hpq (List.inj_on_of_nodup_map hf hp hq h.symm)) t
  have hs : f.sorted = g.sorted := hp.foldr_eq' hcomm []
  rw [buildTree, buildTree, hs]

/-! ## The working collection (42_tables.md R154) -/

theorem insertWork_eq_orderedInsert (c : Nat × Nat) (w : List (Nat × Nat)) :
    insertWork c w = w.orderedInsert (fun d e => selectedBefore d e) c := by
  induction w with
  | nil => rfl
  | cons d w ih => rw [insertWork, List.orderedInsert_cons, ih]

theorem insertWork_perm (c : Nat × Nat) (w : List (Nat × Nat)) : (insertWork c w).Perm (c :: w) :=
  insertWork_eq_orderedInsert c w ▸ List.perm_orderedInsert _ c w

/-- The sequences of the seeds are the positions of the table. -/
theorem seedWork_seqs_perm (g : FreqTable) : ((seedWork g).map Prod.snd).Perm (g.zipIdx.map Prod.snd) := by
  have h := (List.perm_insertionSort (fun d e => selectedBefore d e) (g.zipIdx.map fun p => (p.1.2, p.2))).map Prod.snd
  rw [List.map_map] at h
  rw [seedWork, funext₂ insertWork_eq_orderedInsert]
  exact h

/-! ## The symbols under a node -/

/-- Both children of an Internal node have smaller and different indices (42_tables.md R158). -/
def ChildrenBefore (nodes : List TreeNode) : Prop :=
  ∀ p fr l r : Nat, nodes[p]? = some (.internal fr l r) → l < p ∧ r < p ∧ l ≠ r

/-- The symbols of the leaves under node `i`, from left to right. -/
def symbolsUnder (nodes : List TreeNode) (i : Nat) : List Symbol := (walkCodes nodes nodes.length i []).map Prod.fst

/-- The walk under a node goes down only, so nodes added at the end and more fuel change nothing. -/
theorem walkCodes_append {nodes : List TreeNode} (hc : ChildrenBefore nodes) (more : List TreeNode) {fuel fuel' i : Nat}
    (hi : i < nodes.length) (hf : i < fuel) (hf' : i < fuel') (p : Bits) :
    walkCodes (nodes ++ more) fuel' i p = walkCodes nodes fuel i p := by
  induction fuel generalizing fuel' i p with
  | zero => omega
  | succ fuel ih =>
    obtain ⟨fuel', rfl⟩ : ∃ k, fuel' = k + 1 := ⟨fuel' - 1, by omega⟩
    rw [walkCodes, walkCodes, List.getElem?_append_left hi]
    match hn : nodes[i]? with
    | none => rfl
    | some (.leaf y fr) => rfl
    | some (.internal fr l r) =>
      obtain ⟨hl, hr, -⟩ := hc i fr l r hn
      exact congrArg₂ (· ++ ·) (ih (by omega) (by omega) (by omega) _) (ih (by omega) (by omega) (by omega) _)

/-- The path a walk starts with does not change the symbols it meets. -/
theorem walkCodes_symbols (nodes : List TreeNode) (fuel i : Nat) (p q : Bits) :
    (walkCodes nodes fuel i p).map Prod.fst = (walkCodes nodes fuel i q).map Prod.fst := by
  induction fuel generalizing i p q with
  | zero => rfl
  | succ fuel ih =>
    rw [walkCodes, walkCodes]
    match nodes[i]? with
    | none => rfl
    | some (.leaf y fr) => rfl
    | some (.internal fr l r) =>
      simp only [List.map_append]
      exact congrArg₂ (· ++ ·) (ih l _ _) (ih r _ _)

theorem symbolsUnder_leaf {nodes : List TreeNode} {i fr : Nat} {y : Symbol} (h : nodes[i]? = some (.leaf y fr)) :
    symbolsUnder nodes i = [y] := by
  obtain ⟨hi, -⟩ := List.getElem?_eq_some_iff.1 h
  obtain ⟨k, hk⟩ : ∃ k, nodes.length = k + 1 := ⟨nodes.length - 1, by omega⟩
  simp [symbolsUnder, hk, walkCodes, h]

theorem symbolsUnder_append {nodes : List TreeNode} (hc : ChildrenBefore nodes) (more : List TreeNode) {i : Nat}
    (hi : i < nodes.length) : symbolsUnder (nodes ++ more) i = symbolsUnder nodes i := by
  rw [symbolsUnder, walkCodes_append hc more hi hi (by simp; omega), symbolsUnder]

/-- The symbols under the node of a merge are those under its left child, then those under its right child. -/
theorem symbolsUnder_merge {nodes : List TreeNode} (hc : ChildrenBefore nodes) {a b : Nat} (ha : a < nodes.length)
    (hb : b < nodes.length) (fr : Nat) :
    symbolsUnder (nodes ++ [.internal fr a b]) nodes.length = symbolsUnder nodes a ++ symbolsUnder nodes b := by
  simp only [symbolsUnder, List.length_append, List.length_singleton, walkCodes, List.getElem?_concat_length,
    List.map_append]
  rw [walkCodes_append hc _ ha ha ha, walkCodes_append hc _ hb hb hb]
  exact congrArg₂ (· ++ ·) (walkCodes_symbols ..) (walkCodes_symbols ..)

/-! ## The merge loop (42_tables.md R155, R156) -/

/-- The builder between two merges: `roots` are the sequences in the working collection, `nodes` the nodes made so far
from the table `g`. Each merge takes two roots and adds one node, which is a root. -/
structure PartlyBuilt (g : FreqTable) (roots : List Nat) (nodes : List TreeNode) : Prop where
  count : nodes.length + roots.length = 2 * g.length
  distinct : roots.Nodup
  bounded : ∀ i ∈ roots, i < nodes.length
  newest : nodes.length - 1 ∈ roots
  childrenBefore : ChildrenBefore nodes
  symbols : (roots.flatMap (symbolsUnder nodes)).Perm (g.map Prod.fst)

theorem PartlyBuilt.perm {g : FreqTable} {roots roots' : List Nat} {nodes : List TreeNode}
    (h : PartlyBuilt g roots nodes) (hp : roots'.Perm roots) : PartlyBuilt g roots' nodes where
  count := hp.length_eq ▸ h.count
  distinct := hp.nodup_iff.2 h.distinct
  bounded i hi := h.bounded i (hp.mem_iff.1 hi)
  newest := hp.mem_iff.2 h.newest
  childrenBefore := h.childrenBefore
  symbols := (hp.flatMap_right _).trans h.symbols

/-- Before the first merge the nodes are the leaves, and each is a root. -/
theorem partlyBuilt_seeds {g : FreqTable} (hg : g ≠ []) :
    PartlyBuilt g (g.zipIdx.map Prod.snd) (g.map fun p => .leaf p.1 p.2) where
  count := by simp; omega
  distinct := List.nodup_zipIdx_map_snd g
  bounded := by simp [List.zipIdx_map_snd]
  newest := by simp [List.zipIdx_map_snd, List.length_pos_iff.2 hg]
  childrenBefore p fr l r h := by simp at h
  symbols := by
    have hleaf : ∀ p ∈ g.zipIdx, symbolsUnder (g.map fun p => .leaf p.1 p.2) p.2 = [p.1.1] := fun p hp =>
      symbolsUnder_leaf (fr := p.1.2) (by simp [List.mem_zipIdx_iff_getElem?.1 hp])
    rw [List.flatMap_map, List.flatMap_congr hleaf, ← List.map_eq_flatMap]
    have hsyms := congrArg (List.map Prod.fst) (List.zipIdx_map_fst 0 g)
    rw [List.map_map] at hsyms
    exact .of_eq hsyms

theorem childrenBefore_merge {nodes : List TreeNode} (hc : ChildrenBefore nodes) {a b : Nat} (ha : a < nodes.length)
    (hb : b < nodes.length) (hab : a ≠ b) (fr : Nat) : ChildrenBefore (nodes ++ [.internal fr a b]) := by
  intro p fr' l r h
  rcases Nat.lt_trichotomy p nodes.length with hp | rfl | hp
  · exact hc p fr' l r (List.getElem?_append_left hp ▸ h)
  · simp only [List.getElem?_concat_length, Option.some.injEq, TreeNode.internal.injEq] at h
    obtain ⟨-, rfl, rfl⟩ := h
    exact ⟨ha, hb, hab⟩
  · rw [List.getElem?_eq_none (by simp; omega)] at h
    cases h

/-- One merge. -/
theorem PartlyBuilt.merge {g : FreqTable} {a b : Nat} {roots : List Nat} {nodes : List TreeNode}
    (h : PartlyBuilt g (a :: b :: roots) nodes) (fr : Nat) :
    PartlyBuilt g (nodes.length :: roots) (nodes ++ [.internal fr a b]) := by
  obtain ⟨hcount, hdistinct, hbounded, -, hchildren, hsymbols⟩ := h
  simp only [List.forall_mem_cons] at hbounded
  obtain ⟨ha, hb, hroots⟩ := hbounded
  simp only [List.nodup_cons, List.mem_cons, not_or] at hdistinct
  obtain ⟨⟨hab, -⟩, -, hnodup⟩ := hdistinct
  refine ⟨?_, ?_, ?_, ?_, childrenBefore_merge hchildren ha hb hab fr, ?_⟩
  · simp at hcount ⊢; omega
  · exact List.nodup_cons.2 ⟨fun hm => absurd (hroots _ hm) (Nat.lt_irrefl _), hnodup⟩
  · simpa using fun i hi => Nat.lt_succ_of_lt (hroots i hi)
  · simp
  · have hold : roots.flatMap (symbolsUnder (nodes ++ [.internal fr a b])) = roots.flatMap (symbolsUnder nodes) :=
      List.flatMap_congr fun i hi => symbolsUnder_append hchildren _ (hroots i hi)
    simpa [symbolsUnder_merge hchildren ha hb, hold] using hsymbols

/-- The merges end with at most one candidate in the working collection. -/
theorem mergeLoop_partlyBuilt {g : FreqTable} {fuel : Nat} {w : List (Nat × Nat)} {nodes : List TreeNode}
    (h : PartlyBuilt g (w.map Prod.snd) nodes) (hf : w.length ≤ fuel + 1) :
    PartlyBuilt g ((mergeLoop fuel w nodes).1.map Prod.snd) (mergeLoop fuel w nodes).2 ∧
      (mergeLoop fuel w nodes).1.length ≤ 1 := by
  fun_induction mergeLoop fuel w nodes with
  | case1 fuel fa a fb b w nodes ih =>
    have hp := insertWork_perm (fa + fb, nodes.length) w
    refine ih ((h.merge (fa + fb)).perm (hp.map Prod.snd)) ?_
    have hlen := hp.length_eq
    simp at hlen hf ⊢
    omega
  | case2 fuel w nodes hw =>
    refine ⟨h, ?_⟩
    match fuel, w with
    | _, [] => simp
    | _, [c] => simp
    | 0, c :: d :: w => simp at hf
    | fuel + 1, (fa, a) :: (fb, b) :: w => exact (hw _ _ _ _ _ _ rfl rfl).elim

/-- The finished tree: its root is the one root left. -/
theorem buildTree_partlyBuilt {f : FreqTable} (hf : f ≠ []) :
    PartlyBuilt f.sorted [(buildTree f).root] (buildTree f).nodes := by
  have hs : f.sorted ≠ [] := fun h => hf (List.perm_nil.1 (h ▸ f.sorted_perm.symm))
  have hw : (seedWork f.sorted).length ≤ f.sorted.length + 1 := by
    simpa using (seedWork_seqs_perm f.sorted).length_eq.le.trans (by simp)
  obtain ⟨hb, hl⟩ := mergeLoop_partlyBuilt ((partlyBuilt_seeds hs).perm (seedWork_seqs_perm _)) hw
  have hn := hb.newest
  rw [buildTree]
  match hd : (mergeLoop f.sorted.length (seedWork f.sorted) (f.sorted.map fun p => .leaf p.1 p.2)).1 with
  | [] => simp [hd] at hn
  | [c] => simpa [hd] using hb
  | _ :: _ :: _ => simp [hd] at hl

/-- Settles O55: the counts and the order of the finished tree are those the merges keep. -/
theorem builtTreeShape : Obligations.BuiltTreeShape := by
  intro f hf
  have h := buildTree_partlyBuilt hf
  have hcount := h.count
  have hroot := h.newest
  rw [f.sorted_perm.length_eq, List.length_singleton] at hcount
  rw [List.mem_singleton] at hroot
  exact ⟨by omega, by omega, h.childrenBefore⟩

end Sys2Proof.Machine
end

section
/-! PROOFS. The code deriver (42_tables.md R161, R162, R165): the codes of a walk, and their symbols (O57). -/

namespace Sys2Proof.Machine

/-- Neither code begins with the other. -/
def PrefixApart (c d : Symbol × Bits) : Prop := ¬ c.2 <+: d.2 ∧ ¬ d.2 <+: c.2

theorem prefixApart_of_split {c d : Symbol × Bits} {p : Bits} (hc : p ++ [false] <+: c.2) (hd : p ++ [true] <+: d.2) :
    PrefixApart c d := by
  obtain ⟨u, hu⟩ := hc
  obtain ⟨v, hv⟩ := hd
  simp [PrefixApart, ← hu, ← hv, List.append_assoc]

/-- Every code of a walk begins with the path the walk starts with. -/
theorem path_prefix_of_mem_walkCodes {nodes : List TreeNode} {fuel i : Nat} {p : Bits} {c : Symbol × Bits}
    (h : c ∈ walkCodes nodes fuel i p) : p <+: c.2 := by
  induction fuel generalizing i p with
  | zero => cases h
  | succ fuel ih =>
    rw [walkCodes] at h
    split at h
    · rw [List.mem_singleton.1 h]
    · rcases List.mem_append.1 h with h | h <;> exact (List.prefix_append p _).trans (ih h)
    · cases h

theorem walkCodes_prefixApart (nodes : List TreeNode) (fuel i : Nat) (p : Bits) :
    (walkCodes nodes fuel i p).Pairwise PrefixApart := by
  induction fuel generalizing i p with
  | zero => exact .nil
  | succ fuel ih =>
    rw [walkCodes]
    split
    · exact List.pairwise_singleton ..
    · exact List.pairwise_append.2 ⟨ih _ _, ih _ _, fun c hc d hd =>
        prefixApart_of_split (path_prefix_of_mem_walkCodes hc) (path_prefix_of_mem_walkCodes hd)⟩
    · exact .nil

theorem deriveCodes_prefixApart (t : Tree) : (deriveCodes t).Pairwise PrefixApart := by
  rw [deriveCodes]
  split
  · exact List.pairwise_singleton ..
  · exact walkCodes_prefixApart ..

/-- A root that is not a leaf gives every code its first bit, and a lone leaf has the one-bit code. -/
theorem deriveCodes_ne_nil {t : Tree} {c : Symbol × Bits} (h : c ∈ deriveCodes t) : c.2 ≠ [] := by
  rw [deriveCodes] at h
  split at h
  · simp [List.mem_singleton.1 h]
  next hroot =>
    cases hk : t.nodes.length with
    | zero => rw [hk] at h; cases h
    | succ k =>
      rw [hk, walkCodes] at h
      split at h
      next hl => exact (hroot _ _ hl).elim
      · rcases List.mem_append.1 h with h | h <;> exact (path_prefix_of_mem_walkCodes h).ne_nil (by simp)
      · cases h

theorem deriveCodes_symbols (t : Tree) : (deriveCodes t).map Prod.fst = symbolsUnder t.nodes t.root := by
  rw [deriveCodes]
  split
  next hl => rw [symbolsUnder_leaf hl]; rfl
  · rfl

/-- Settles O57: the walk from the root meets each leaf once, and its two halves part at the first bit. -/
theorem codesArePrefixFree : Obligations.CodesArePrefixFree := by
  intro f hf _
  refine ⟨?_, fun _ => deriveCodes_ne_nil, fun p hp q hq hpq => ?_⟩
  · have h := (buildTree_partlyBuilt hf).symbols
    rw [List.flatMap_singleton] at h
    rw [codesOf, deriveCodes_symbols]
    exact h.trans (f.sorted_perm.map _)
  · have : Std.Symm PrefixApart := ⟨fun _ _ h => h.symm⟩
    by_contra hne
    exact ((deriveCodes_prefixApart _).forall hp hq hne).1 hpq

end Sys2Proof.Machine
end

section
/-! PROOFS. The NODE words read back as entries (30_encoding.md R85), and the walk of the 8-bit single-symbol image
(42_tables.md R167; O59). -/

namespace Sys2Proof.Machine

/-! ## The words of a NODE image -/

@[simp] theorem NodeEntry.ofWord_nodeWordLeaf (y : Symbol) :
    NodeEntry.ofWord (nodeWordLeaf y) = { leaf := true, hi := 0, lo := BitVec.zeroExtend 9 y } := by
  rw [← NodeEntry.ofWord_toWord { leaf := true, hi := 0, lo := BitVec.zeroExtend 9 y }]
  congr 1
  simp [NodeEntry.toWord, nodeWordLeaf]

@[simp] theorem NodeEntry.ofWord_nodeWordInternal (l r : NodeIdx) :
    NodeEntry.ofWord (nodeWordInternal l r) = { leaf := false, hi := l, lo := r } := by
  rw [← NodeEntry.ofWord_toWord { leaf := false, hi := l, lo := r }]
  congr 1
  simp [NodeEntry.toWord, nodeWordInternal]

/-! ## The 8-bit single-symbol image (42_tables.md R167) -/

theorem eightBitImage_leaf (y : Symbol) :
    imageTable (eightBitImage y) 0 = some { leaf := true, hi := 0, lo := BitVec.zeroExtend 9 y } := by
  simp [imageTable, eightBitImage]

theorem eightBitImage_internal (y : Symbol) {n : Nat} (hn : n < 8) :
    imageTable (eightBitImage y) (n + 1) = some { leaf := false, hi := BitVec.ofNat 9 n, lo := 511 } := by
  simp [imageTable, eightBitImage, hn]

theorem bitEffect_eightBit_move (y : Symbol) {n : Nat} (hn : n < 7) :
    bitEffect (imageTable (eightBitImage y)) (BitVec.ofNat 9 (n + 2)) false = .move (BitVec.ofNat 9 (n + 1)) := by
  have hnext : (BitVec.ofNat 9 (n + 1)).toNat = n + 1 := by simp; omega
  have hcur : (BitVec.ofNat 9 (n + 2)).toNat = n + 2 := by simp; omega
  have hle : ¬ 510 < n + 1 := by omega
  simp [bitEffect, hnext, hcur, hle, eightBitImage_internal y (show n + 1 < 8 by omega),
    eightBitImage_internal y (show n < 8 by omega)]

theorem bitEffect_eightBit_symbol (y : Symbol) : bitEffect (imageTable (eightBitImage y)) 1#9 false = .symbol y := by
  have h := eightBitImage_internal y (show 0 < 8 by omega)
  have hy : (BitVec.setWidth 9 y).extractLsb' 0 8 = y := by ext i hi; simp [hi]; omega
  simp [bitEffect, eightBitImage_leaf, h, NodeEntry.sym, hy]

/-- From entry `n + 1` the walk goes down the chain, one zero bit an entry, to the leaf. -/
theorem treeWalk_eightBit_chain (y : Symbol) (k : Nat) (x : Bits) {n : Nat} (hn : n < 8) :
    treeWalk (imageTable (eightBitImage y)) 8 (k + 1) (BitVec.ofNat 9 (n + 1)) (List.replicate (n + 1) false ++ x) =
      (treeWalk (imageTable (eightBitImage y)) 8 k 8 x).cons y := by
  induction n with
  | zero => simp [treeWalk, bitEffect_eightBit_symbol]
  | succ n ih =>
    rw [List.replicate_succ, List.cons_append, treeWalk, bitEffect_eightBit_move y (by omega)]
    exact ih (by omega)

/-- Settles O59: each symbol is one walk down the chain. -/
theorem eightBitImageDecodesZeros : Obligations.EightBitImageDecodesZeros := by
  intro y k
  induction k with
  | zero => rfl
  | succ k ih =>
    rw [Nat.mul_succ, Nat.add_comm (8 * k), List.replicate_add]
    exact (treeWalk_eightBit_chain y k _ (show 7 < 8 by omega)).trans (congrArg (WalkEnd.cons y) ih)

end Sys2Proof.Machine
end

section
/-! PROOFS. When the engine moves and what the packer's steps do: the engine's turn is the one enabled step, or changes
nothing where none is enabled (43_pack_engine.md R180 to R184; O33, O34, O35, O40, O41). -/
namespace Sys2Proof.Machine

/-! ## When the engine moves (43_pack_engine.md R180, R184) -/

/-- The enabled step is the one the engine's turn finds. -/
theorem enabledStep_of_enabled {s : State} {e : EngineStep} (h : e.enabled s = true) : enabledStep s = some e := by
  cases e with
  | pTake => exact if_pos h
  | pShift =>
    obtain ⟨-, ha, -⟩ := (pShiftEnabled_iff s).mp h
    exact (if_neg (by simp [pTakeEnabled, ha])).trans (if_pos h)
  | pFlush =>
    obtain ⟨-, -, ha, hd, -⟩ := (pFlushEnabled_iff s).mp h
    exact (if_neg (by simp [pTakeEnabled, hd])).trans ((if_neg (by simp [pShiftEnabled, ha])).trans (if_pos h))
  | uLoad =>
    obtain ⟨hm, -, -⟩ := (uLoadEnabled_iff s).mp h
    have he : uLoadEnabled s = true := h
    simp [enabledStep, pTakeEnabled, pShiftEnabled, pFlushEnabled, hm, he]
  | uBit =>
    obtain ⟨hm, hn, -⟩ := (uBitEnabled_iff s).mp h
    have he : uBitEnabled s = true := h
    have hl : uLoadEnabled s ≠ true := fun hl => by
      obtain ⟨-, hz, -⟩ := (uLoadEnabled_iff s).mp hl
      simp [hz] at hn
    simp [enabledStep, pTakeEnabled, pShiftEnabled, pFlushEnabled, hm, hl, he]

theorem engineTurn_of_enabled {s : State} {e : EngineStep} (h : e.enabled s = true) :
    engineTurn s = runEngineStep e s := by
  simp only [engineTurn, enabledStep_of_enabled h]

/-- A step that `enabledStep` finds is enabled. -/
theorem enabled_of_enabledStep {s : State} {e : EngineStep} (h : enabledStep s = some e) : e.enabled s = true := by
  unfold enabledStep at h
  split_ifs at h <;> cases h <;> assumption

theorem engineTurn_of_waiting {s : State} (h : ∀ e : EngineStep, e.enabled s = false) : engineTurn s = .next s := by
  have hn : enabledStep s = none :=
    Option.eq_none_iff_forall_ne_some.mpr fun e he => Bool.eq_false_iff.mp (h e) (enabled_of_enabledStep he)
  simp only [engineTurn, hn]

/-- The packer's steps are enabled in PACK only. -/
theorem mode_of_packStep {s : State} {e : EngineStep} (he : e = .pTake ∨ e = .pShift ∨ e = .pFlush)
    (h : e.enabled s = true) : s.mode = .pack := by
  obtain rfl | rfl | rfl := he
  · exact ((pTakeEnabled_iff s).mp h).1
  · exact ((pShiftEnabled_iff s).mp h).1
  · exact ((pFlushEnabled_iff s).mp h).1

/-- The unpacker's steps are enabled in UNPACK only. -/
theorem mode_of_unpackStep {s : State} {e : EngineStep} (he : e = .uLoad ∨ e = .uBit)
    (h : e.enabled s = true) : s.mode = .unpack := by
  obtain rfl | rfl := he
  · exact ((uLoadEnabled_iff s).mp h).1
  · exact ((uBitEnabled_iff s).mp h).1

theorem EngineStep.pack_or_unpack (e : EngineStep) :
    (e = .pTake ∨ e = .pShift ∨ e = .pFlush) ∨ (e = .uLoad ∨ e = .uBit) := by cases e <;> decide

/-- No step is enabled outside a run. -/
theorem waiting_of_not_run {s : State} (hp : s.mode ≠ .pack) (hu : s.mode ≠ .unpack) (e : EngineStep) :
    e.enabled s = false :=
  Bool.eq_false_iff.mpr fun h => e.pack_or_unpack.elim (fun he => hp (mode_of_packStep he h))
    fun he => hu (mode_of_unpackStep he h)

/-- Settles O40: each step that is enabled is the one the engine's turn finds. -/
theorem atMostOneStepIsEnabled : Obligations.AtMostOneStepIsEnabled := by
  intro s
  refine ⟨fun e e' h h' => ?_, fun e hm h => ?_, fun e hm h => ?_, fun hp hu => ?_⟩
  · exact Option.some.inj ((enabledStep_of_enabled h).symm.trans (enabledStep_of_enabled h'))
  · exact e.pack_or_unpack.resolve_right fun he => nomatch hm.symm.trans (mode_of_unpackStep he h)
  · exact e.pack_or_unpack.resolve_left fun he => nomatch hm.symm.trans (mode_of_packStep he h)
  · exact ⟨waiting_of_not_run hp hu, engineTurn_of_waiting (waiting_of_not_run hp hu)⟩

/-! ## When the engine waits (43_pack_engine.md R184, 44_unpack_engine.md R208) -/

theorem accN_lt_seven_iff (n : BitVec 3) : n.toNat < 7 ↔ n ≠ 7 := by bv_omega

/-- In PACK the engine waits when none of the packer's steps is enabled. -/
theorem waiting_pack_iff {s : State} (hm : s.mode = .pack) :
    (∀ e : EngineStep, e.enabled s = false) ↔
      pTakeEnabled s = false ∧ pShiftEnabled s = false ∧ pFlushEnabled s = false := by
  refine ⟨fun h => ⟨h .pTake, h .pShift, h .pFlush⟩, fun ⟨ht, hs, hf⟩ e => ?_⟩
  cases e with
  | pTake => exact ht
  | pShift => exact hs
  | pFlush => exact hf
  | uLoad => simp [EngineStep.enabled, uLoadEnabled, hm]
  | uBit => simp [EngineStep.enabled, uBitEnabled, hm]

/-- In UNPACK the engine waits when none of the unpacker's steps is enabled. -/
theorem waiting_unpack_iff {s : State} (hm : s.mode = .unpack) :
    (∀ e : EngineStep, e.enabled s = false) ↔ uLoadEnabled s = false ∧ uBitEnabled s = false := by
  refine ⟨fun h => ⟨h .uLoad, h .uBit⟩, fun ⟨hl, hb⟩ e => ?_⟩
  cases e with
  | pTake => simp [EngineStep.enabled, pTakeEnabled, hm]
  | pShift => simp [EngineStep.enabled, pShiftEnabled, hm]
  | pFlush => simp [EngineStep.enabled, pFlushEnabled, hm]
  | uLoad => exact hl
  | uBit => exact hb

/-- The three waits of PACK (R184), by whether a code is active and whether DIN holds a symbol. -/
theorem waiting_pack_cases {s : State} (hm : s.mode = .pack) :
    (∀ e : EngineStep, e.enabled s = false) ↔
      (s.codeActive = false ∧ s.dinValid = false ∧ s.flushReq = false) ∨
      (s.codeActive = true ∧ s.accN = 7 ∧ s.doutValid = true) ∨
      (s.flushReq = true ∧ s.codeActive = false ∧ s.dinValid = false ∧ s.accN ≠ 0 ∧ s.doutValid = true) := by
  rw [waiting_pack_iff hm]
  cases ha : s.codeActive with
  | true => simp [pTakeEnabled, pShiftEnabled, pFlushEnabled, hm, ha, accN_lt_seven_iff]
  | false =>
    cases hd : s.dinValid with
    | true => simp [pTakeEnabled, hm, ha, hd]
    | false => cases hq : s.flushReq <;> simp [pTakeEnabled, pShiftEnabled, pFlushEnabled, hm, ha, hd, hq]

/-- The two waits of UNPACK (R208), by whether SR holds a bit. -/
theorem waiting_unpack_cases {s : State} (hm : s.mode = .unpack) :
    (∀ e : EngineStep, e.enabled s = false) ↔
      (s.srN = 0 ∧ s.dinValid = false) ∨ (s.srN ≠ 0 ∧ s.doutValid = true) := by
  rw [waiting_unpack_iff hm]
  by_cases hn : s.srN = 0#4
  · simp [uLoadEnabled, uBitEnabled, hm, hn]
  · have hpos : 0 < s.srN.toNat := Nat.pos_of_ne_zero fun h => hn (BitVec.eq_of_toNat_eq h)
    simp [uLoadEnabled, uBitEnabled, hm, hn, hpos]

/-- Settles O41: the waits of each mode, and that the engine's turn of a wait changes nothing. -/
theorem theEngineWaitsForTheHost : Obligations.TheEngineWaitsForTheHost := fun _ =>
  ⟨waiting_pack_cases, waiting_unpack_cases, engineTurn_of_waiting⟩

/-! ## The packer's steps (43_pack_engine.md R181 to R183) -/

/-- Settles O33: P_TAKE's answer by the length of the symbol in DIN. -/
theorem pTakeTakesOrFaults : Obligations.PTakeTakesOrFaults := by
  intro s hm ha hd
  have ht : engineTurn s = pTake s := engineTurn_of_enabled (e := .pTake) ((pTakeEnabled_iff s).mpr ⟨hm, ha, hd⟩)
  refine ⟨fun hl => ?_, fun len hl h0 => ?_, fun hl => ⟨codeOffset s.dinData 0, ?_⟩⟩
  · simp only [ht, pTake, hl, if_true, raiseFault]
  · simp only [ht, pTake, hl, if_neg h0, takeDin]
  · simp only [ht, pTake, hl]

/-- P_SHIFT moves the bit where its word and the length are written. -/
theorem pShift_of_written {s : State} {b : Bool} {len : Byte} (hb : s.mem.codeBit? s.curSym s.curIdx = some b)
    (hl : s.mem.codeLen? s.curSym = some len) (ha : s.codeActive = true) :
    pShift s = .next { shiftInto b s with
      curIdx := s.curIdx + 1, codeActive := decide (s.curIdx + 1 ≠ len) } := by
  have hk : (shiftInto b s).codeActive = true := by
    obtain ⟨-, h⟩ | ⟨-, h⟩ := shiftInto_cases b s <;> rw [h] <;> exact ha
  simp only [pShift, hb, hl, hk]
  by_cases hi : s.curIdx + 1 = len
  · rw [if_pos hi, decide_eq_false (not_not.mpr hi)]
  · rw [if_neg hi, decide_eq_true hi]

/-- P_SHIFT is UNINIT where the bit's word or the length is unwritten (10_state.md R47). -/
theorem pShift_of_unwritten {s : State}
    (h : s.mem.codeBit? s.curSym s.curIdx = none ∨ s.mem.codeLen? s.curSym = none) :
    ∃ off, pShift s = .fault (.uninit off) := by
  cases hb : s.mem.codeBit? s.curSym s.curIdx with
  | none => exact ⟨_, by simp only [pShift, hb]; rfl⟩
  | some b =>
    have hl := h.resolve_left (by simp [hb])
    exact ⟨_, by simp only [pShift, hb, hl]; rfl⟩

theorem engineTurn_of_shifting {s : State} (hm : s.mode = .pack) (ha : s.codeActive = true)
    (hroom : s.accN ≠ 7 ∨ s.doutValid = false) : engineTurn s = pShift s :=
  engineTurn_of_enabled (e := .pShift)
    ((pShiftEnabled_iff s).mpr ⟨hm, ha, hroom.imp_left (accN_lt_seven_iff s.accN).mpr⟩)

/-- Settles O34: with room for the bit the turn is P_SHIFT, and without room the engine waits. -/
theorem pShiftMovesOneBit : Obligations.PShiftMovesOneBit := by
  intro s hm ha
  refine ⟨fun b len hb hl => ⟨fun hn hv => ?_, fun hn => ?_⟩, fun hroom hun => ?_, fun hn hv => ?_⟩
  · rw [engineTurn_of_shifting hm ha (.inr hv), pShift_of_written hb hl ha, shiftInto, if_pos hn]
    rfl
  · rw [engineTurn_of_shifting hm ha (.inl hn), pShift_of_written hb hl ha, shiftInto, if_neg hn]
  · rw [engineTurn_of_shifting hm ha hroom]
    exact pShift_of_unwritten hun
  · exact engineTurn_of_waiting ((waiting_pack_cases hm).mpr (.inr (.inl ⟨ha, hn, hv⟩)))

theorem engineTurn_of_flushing {s : State} (hm : s.mode = .pack) (hq : s.flushReq = true) (ha : s.codeActive = false)
    (hd : s.dinValid = false) (hroom : s.accN = 0 ∨ s.doutValid = false) : engineTurn s = pFlush s :=
  engineTurn_of_enabled (e := .pFlush) ((pFlushEnabled_iff s).mpr ⟨hm, hq, ha, hd, hroom⟩)

/-- Settles O35: with nothing pending or with room for a byte the turn is P_FLUSH, and else the engine waits. -/
theorem pFlushPadsAndEnds : Obligations.PFlushPadsAndEnds := by
  intro s hm hq ha hd
  refine ⟨fun hn => ?_, fun hn hv => ?_, fun hn hv => ?_⟩
  · rw [engineTurn_of_flushing hm hq ha hd (.inl hn), pFlush, if_pos hn]
  · rw [engineTurn_of_flushing hm hq ha hd (.inr hv), pFlush, if_neg hn]
    rfl
  · exact engineTurn_of_waiting ((waiting_pack_cases hm).mpr (.inr (.inr ⟨hq, ha, hd, hn, hv⟩)))

end Sys2Proof.Machine
end


section
/-! PROOFS. What a turn within a run can do, with the bytes it gives and takes, and the induction over the turns of a run
(45_host_protocol.md R220, R223). -/

namespace Sys2Proof.Machine

/-- What a turn within a run can do, with the byte it gives to DIN and the byte it takes from DOUT. -/
inductive RunEffect (s : State) : (fed got : List Byte) → State → Prop
  | quiet {t : State} (hc : Chatter s t) : RunEffect s [] [] t
  | feed {t : State} (b : Byte) (hr : s.dinReady = true) (hc : Chatter { s with dinData := b, dinValid := true } t) :
      RunEffect s [b] [] t
  | drain {t : State} (hv : s.doutValid = true) (hc : Chatter { s with doutValid := false, doutData := 0 } t) :
      RunEffect s [] [s.doutData] t
  | flush {t : State} (hm : s.mode = .pack) (hc : Chatter { s with flushReq := true } t) : RunEffect s [] [] t
  | engine {t : State} (h : engineTurn { s with turns := [] } = .next t) : RunEffect s [] [] t

/-- A command within a run ends no run and starts none. -/
theorem command_of_withinRun {i : Instr} {c : Command} (hw : withinRun i = true) (hi : commandOf i = some c) :
    c ≠ .clear ∧ c ≠ .startPack ∧ c ≠ .startUnpack := by
  cases i with
  | wrCtrl w =>
    cases hi
    exact of_decide_eq_true hw
  | nop | flush | clrAerr | reserved =>
    cases hi
    exact ⟨nofun, nofun, nofun⟩
  | _ => cases hi <;> cases hw

theorem runEffect_of_command {s t : State} {c : Command} (he : CommandEffect { s with turns := [] } c t)
    (hc : c ≠ .clear ∧ c ≠ .startPack ∧ c ≠ .startUnpack) : RunEffect s [] [] t := by
  obtain ⟨h1, h2, h3⟩ := hc
  cases he with
  | clear => exact absurd rfl h1
  | startPack => exact absurd rfl h2
  | startUnpackNone | startUnpackFault | startUnpack => exact absurd rfl h3
  | startRefused h => exact (h.elim h2 h3).elim
  | flush hm => exact .flush hm ⟨_, _, _, _, _, rfl⟩
  | nop | flushRefused | clrAerr | reserved => exact .quiet ⟨_, _, _, _, _, rfl⟩

/-- An access within a run that is no write of DIN and no read of DOUT moves no byte. -/
theorem runEffect_of_accessEffect {s t : State} {i : Instr} (hw : withinRun i = true) (hdin : ∀ v, i ≠ .wrDin v)
    (hdout : i ≠ .rdDout) (he : AccessEffect { s with turns := [] } i t) : RunEffect s [] [] t := by
  cases he with
  | command hi hc => exact runEffect_of_command hc (command_of_withinRun hw hi)
  | wrDin v => exact absurd rfl (hdin v)
  | pop => exact absurd rfl hdout
  | wrSymcount | wrRoot | wrCodeLen | wrCodeW | wrNode => cases hw
  | reply | refuse | wrIe => exact .quiet ⟨_, _, _, _, _, rfl⟩

theorem fedBy_eq_nil {a : Access} {i : Instr} (hd : decode a = .ok i) (hdin : ∀ v, i ≠ .wrDin v) (s : State) :
    fedBy (.access a) s = [] := by
  simp only [fedBy, hd]
  split
  next v h => exact absurd (Except.ok.inj h) (hdin v)
  next => rfl

theorem gotBy_eq_nil {a : Access} {i : Instr} (hd : decode a = .ok i) (hdout : i ≠ .rdDout) (s : State) :
    gotBy (.access a) s = [] := by
  simp only [gotBy, hd]
  split
  next h => exact absurd (Except.ok.inj h) hdout
  next => rfl

/-- A write of DIN gives its byte exactly when DIN is ready. -/
theorem runEffect_of_wrDin {a : Access} {v : Word} {s t : State} (hd : decode a = .ok (.wrDin v))
    (hx : exec (.wrDin v) { s with turns := [] } = .next t) :
    RunEffect s (fedBy (.access a) s) (gotBy (.access a) s) t := by
  rw [gotBy_eq_nil hd nofun]
  cases hr : s.dinReady with
  | true =>
    cases (execWrDin_ready v (s := { s with turns := [] }) hr).symm.trans hx
    have hf : fedBy (.access a) s = [dinOperand v] := by simp only [fedBy, hd, hr, if_true]
    rw [hf]
    exact .feed _ hr ⟨_, _, _, _, _, rfl⟩
  | false =>
    obtain ⟨c, hc⟩ := execWrDin_refused v (s := { s with turns := [] }) hr
    cases hc.symm.trans hx
    have hf : fedBy (.access a) s = [] := by simp [fedBy, hd, hr]
    rw [hf]
    exact .quiet ⟨_, _, _, _, _, rfl⟩

/-- A read of DOUT takes its byte exactly when one is there. -/
theorem runEffect_of_rdDout {a : Access} {s t : State} (hd : decode a = .ok .rdDout)
    (hx : exec .rdDout { s with turns := [] } = .next t) :
    RunEffect s (fedBy (.access a) s) (gotBy (.access a) s) t := by
  rw [fedBy_eq_nil hd nofun]
  cases hv : s.doutValid with
  | true =>
    cases (if_pos hv).symm.trans hx
    have hg : gotBy (.access a) s = [s.doutData] := by simp only [gotBy, hd, hv, if_true]
    rw [hg]
    exact .drain hv ⟨_, _, _, _, _, rfl⟩
  | false =>
    cases (if_neg (Bool.eq_false_iff.mp hv)).symm.trans hx
    have hg : gotBy (.access a) s = [] := by simp [gotBy, hd, hv]
    rw [hg]
    exact .quiet ⟨_, _, _, _, _, rfl⟩

theorem runEffect_of_access {a : Access} {i : Instr} {s t : State} (hd : decode a = .ok i) (hw : withinRun i = true)
    (hx : exec i { s with turns := [] } = .next t) : RunEffect s (fedBy (.access a) s) (gotBy (.access a) s) t := by
  by_cases hdin : ∃ v, i = .wrDin v
  · obtain ⟨v, rfl⟩ := hdin
    exact runEffect_of_wrDin hd hx
  have hdin' : ∀ v, i ≠ .wrDin v := fun v hv => hdin ⟨v, hv⟩
  by_cases hdout : i = .rdDout
  · subst hdout
    exact runEffect_of_rdDout hd hx
  rw [fedBy_eq_nil hd hdin', gotBy_eq_nil hd hdout]
  exact runEffect_of_accessEffect hw hdin' hdout (accessEffect_of_exec hx)

/-- A turn within a run does one of its effects. -/
theorem runEffect_of_turn {t : Turn} {s s' : State} (hw : turnWithinRun t = true)
    (h : step (s.atTurn t) = .next s') : RunEffect s (fedBy t s) (gotBy t s) s' := by
  cases t with
  | engine => exact .engine h
  | reset => cases hw
  | access a =>
    cases hd : decode a with
    | error e => simp [turnWithinRun, hd] at hw
    | ok i =>
      rw [step_atTurn_access hd] at h
      exact runEffect_of_access hd (by simpa only [turnWithinRun, hd] using hw) h

/-- A run that goes on begins with a step, and its transcript with what that step moves. -/
theorem runTurns_cons_cases {t : Turn} {ts : List Turn} {s e : State} {tr : Transcript}
    (h : runTurns (t :: ts) s = some (e, tr)) :
    ∃ s' tr', step (s.atTurn t) = .next s' ∧ runTurns ts s' = some (e, tr') ∧
      tr = { fed := fedBy t s ++ tr'.fed, got := gotBy t s ++ tr'.got } := by
  unfold runTurns at h
  split at h
  next s' hs =>
    obtain ⟨⟨e', tr'⟩, hr, hp⟩ := Option.map_eq_some_iff.mp h
    cases hp
    exact ⟨s', tr', hs, hr, rfl⟩
  next => cases h
  next => cases h

/-- What every effect of a turn within a run keeps, of the state and the bytes moved so far, a run keeps. -/
theorem runTurns_keeps {P : State → List Byte → List Byte → Prop}
    (hstep : ∀ {s s' : State} {fed got f g : List Byte}, P s fed got → RunEffect s f g s' → P s' (fed ++ f) (got ++ g))
    {ts : List Turn} {s e : State} {tr : Transcript} {fed got : List Byte} (h : P s fed got)
    (hw : ∀ t ∈ ts, turnWithinRun t = true) (hr : runTurns ts s = some (e, tr)) :
    P e (fed ++ tr.fed) (got ++ tr.got) := by
  induction ts generalizing s tr fed got with
  | nil =>
    cases hr
    simpa using h
  | cons t ts ih =>
    obtain ⟨s', tr', hs, hr', rfl⟩ := runTurns_cons_cases hr
    have h' := hstep h (runEffect_of_turn (hw t List.mem_cons_self) hs)
    simpa using ih h' (fun u hu => hw u (List.mem_cons_of_mem t hu)) hr'

/-- The byte in DIN, if there is one. -/
def State.dinBytes (s : State) : List Byte := if s.dinValid then [s.dinData] else []

/-- The byte in DOUT, if there is one. -/
def State.doutBytes (s : State) : List Byte := if s.doutValid then [s.doutData] else []

theorem State.dinBytes_of_valid {s : State} (h : s.dinValid = true) : s.dinBytes = [s.dinData] := if_pos h

theorem State.dinBytes_of_empty {s : State} (h : s.dinValid = false) : s.dinBytes = [] := if_neg (Bool.eq_false_iff.mp h)

theorem State.doutBytes_of_valid {s : State} (h : s.doutValid = true) : s.doutBytes = [s.doutData] := if_pos h

theorem State.doutBytes_of_empty {s : State} (h : s.doutValid = false) : s.doutBytes = [] :=
  if_neg (Bool.eq_false_iff.mp h)

end Sys2Proof.Machine
end

section
/-! PROOFS. Bit strings and bytes (00_scope.md R10): a register that holds the last bits of a string, the byte it becomes,
and the bytes of a padded string. -/

namespace Sys2Proof.Machine

/-- The low bits of `a` are the bits of `x`, the last in bit 0, and the bits above are 0. -/
def HoldsBits {w : Nat} (a : BitVec w) (x : Bits) : Prop := ∀ i, a.getLsbD i = x.reverse.getD i false

theorem HoldsBits.nil (w : Nat) : HoldsBits (0 : BitVec w) [] := fun i => by simp

theorem HoldsBits.above {w : Nat} {a : BitVec w} {x : Bits} (h : HoldsBits a x) {i : Nat} (hi : x.length ≤ i) :
    a.getLsbD i = false := by
  rw [h i, List.getD_eq_default _ _ (by simpa using hi)]

/-- A shift by one takes in the next bit. -/
theorem HoldsBits.snoc {w : Nat} {a : BitVec w} {x : Bits} (h : HoldsBits a x) (hl : x.length < w) (b : Bool) :
    HoldsBits ((a <<< 1) ||| BitVec.zeroExtend w (BitVec.ofBool b)) (x ++ [b]) := by
  intro i
  rw [BitVec.getLsbD_or, BitVec.getLsbD_shiftLeft, BitVec.getLsbD_setWidth, List.reverse_append]
  cases i with
  | zero => simp [Nat.zero_lt_of_lt hl]
  | succ i =>
    have hx : ([b].reverse ++ x.reverse).getD (i + 1) false = a.getLsbD i := (h i).symm
    rw [hx]
    by_cases hi : i + 1 < w
    · simp [hi]
    · simp [hi, h.above (i := i) (by omega)]

theorem HoldsBits.zeroExtend {v w : Nat} {a : BitVec v} {x : Bits} (h : HoldsBits a x) (hl : x.length ≤ w) :
    HoldsBits (BitVec.zeroExtend w a) x := by
  intro i
  rw [BitVec.getLsbD_setWidth, ← h i]
  by_cases hi : i < w
  · simp [hi]
  · simp [hi, h.above (i := i) (by omega)]

/-- A shift by `k` takes in `k` zero bits. -/
theorem HoldsBits.shiftLeft {w : Nat} {a : BitVec w} {x : Bits} (h : HoldsBits a x) {k : Nat} (hl : x.length + k ≤ w) :
    HoldsBits (a <<< k) (x ++ List.replicate k false) := by
  intro i
  rw [BitVec.getLsbD_shiftLeft, List.reverse_append, List.reverse_replicate]
  by_cases hk : i < k
  · rw [List.getD_append _ _ _ _ (by simpa using hk), List.getD_replicate _ hk]
    simp [hk]
  · rw [List.getD_append_right _ _ _ _ (by simpa using hk), List.length_replicate, ← h (i - k)]
    by_cases hi : i < w
    · simp only [hi, hk, decide_true, decide_false, Bool.not_false, Bool.true_and]
    · simp [h.above (i := i - k) (by omega)]

/-- A byte that holds eight bits is the byte of those bits. -/
theorem HoldsBits.bitsOfByte {b : Byte} {x : Bits} (h : HoldsBits b x) (hl : x.length = 8) : bitsOfByte b = x := by
  rw [← List.reverse_inj]
  refine List.ext_getElem (by simp [Machine.bitsOfByte, hl]) fun i hi hx => ?_
  have hib : i < 8 := by simpa [Machine.bitsOfByte] using hi
  rw [← List.getD_eq_getElem _ false hx, ← h i]
  interval_cases i <;> rfl

theorem byteOfBits_bitsOfByte : ∀ b : Byte,
    byteOfBits (b.getLsbD 7) (b.getLsbD 6) (b.getLsbD 5) (b.getLsbD 4) (b.getLsbD 3) (b.getLsbD 2) (b.getLsbD 1)
      (b.getLsbD 0) = b := by decide

/-- The bytes of the bits of some bytes are those bytes. -/
@[simp] theorem bytesMsb_bitsMsb (bs : List Byte) : bytesMsb (bitsMsb bs) = bs := by
  induction bs with
  | nil => rfl
  | cons b bs ih => exact congrArg₂ List.cons (byteOfBits_bitsOfByte b) ih

@[simp] theorem length_bitsMsb (bs : List Byte) : (bitsMsb bs).length = 8 * bs.length := by
  induction bs with
  | nil => rfl
  | cons b bs ih =>
    have hb : (bitsMsb (b :: bs)).length = (bitsOfByte b).length + (bitsMsb bs).length := List.length_append
    rw [hb, ih, List.length_cons, Nat.mul_succ, Nat.add_comm]
    rfl

theorem bitsMsb_snoc (bs : List Byte) (b : Byte) : bitsMsb (bs ++ [b]) = bitsMsb bs ++ bitsOfByte b := by
  simp [bitsMsb]

theorem pad8_of_whole {x : Bits} (h : x.length % 8 = 0) : pad8 x = x := by simp [pad8, h]

theorem pad8_of_pending {x : Bits} {n : Nat} (h : x.length % 8 = n) (hn : n ≠ 0) :
    pad8 x = x ++ List.replicate (8 - n) false := by
  rw [pad8, h, Nat.mod_eq_of_lt (by omega)]

/-- The number of bytes of a padded string. -/
theorem length_pad8 (x : Bits) : (pad8 x).length = 8 * ((x.length + 7) / 8) := by
  simp only [pad8, List.length_append, List.length_replicate]
  omega

end Sys2Proof.Machine
end

section
/-! PROOFS. The pack run (43_pack_engine.md R185): under every interleaving the bits shifted out are those of the codes of
the symbols taken, so the bytes read are the padded codes of the symbols accepted (O53). -/

namespace Sys2Proof.Machine

/-! ## The codes of the symbols taken -/

theorem mapM_snoc {α β : Type} {f : α → Option β} {l : List α} {bs : List β} {a : α} {b : β} (hl : l.mapM f = some bs)
    (ha : f a = some b) : (l ++ [a]).mapM f = some (bs ++ [b]) := by
  simp [List.mapM_append, hl, ha]

/-- The first `k` bits of the code of `y`, if they are written. -/
def Memory.codePrefix? (m : Memory) (y : Symbol) (k : Nat) : Option Bits :=
  (List.range k).mapM fun i => m.codeBit? y (BitVec.ofNat 8 i)

theorem Memory.code?_of_len {m : Memory} {y : Symbol} {len : Byte} (h : m.codeLen? y = some len) :
    m.code? y = m.codePrefix? y len.toNat := by
  simp only [Memory.code?, h, Memory.codePrefix?]

theorem Memory.codePrefix?_succ {m : Memory} {y : Symbol} {i : BitVec 8} {p : Bits} {b : Bool}
    (hp : m.codePrefix? y i.toNat = some p) (hb : m.codeBit? y i = some b) :
    m.codePrefix? y (i.toNat + 1) = some (p ++ [b]) := by
  rw [Memory.codePrefix?, List.range_succ]
  exact mapM_snoc hp (by simpa using hb)

/-- The bits shifted out are the codes of the symbols taken; while a code is active, the last symbol is CUR_SYM, and of
its code only the bits before CUR_IDX are out. -/
inductive CodesShifted (m : Memory) (y : Symbol) (i : BitVec 8) : (active : Bool) → List Symbol → Bits → Prop
  | whole {ys : List Symbol} {cs : List Bits} (hc : ys.mapM m.code? = some cs) : CodesShifted m y i false ys cs.flatten
  | part {ys : List Symbol} {cs : List Bits} {len : Byte} {p : Bits} (hc : ys.mapM m.code? = some cs)
      (hl : m.codeLen? y = some len) (hi : i.toNat < len.toNat) (hp : m.codePrefix? y i.toNat = some p) :
      CodesShifted m y i true (ys ++ [y]) (cs.flatten ++ p)

/-- P_TAKE starts the code of a symbol that has one. -/
theorem CodesShifted.take {m : Memory} {y y' : Symbol} {i : BitVec 8} {ys : List Symbol} {bits : Bits} {len : Byte}
    (h : CodesShifted m y i false ys bits) (hl : m.codeLen? y' = some len) (h0 : len ≠ 0) :
    CodesShifted m y' 0 true (ys ++ [y']) bits := by
  cases h with
  | whole hc =>
    have hpos : 0 < len.toNat := Nat.pos_of_ne_zero fun hz => h0 (BitVec.eq_of_toNat_eq hz)
    simpa using CodesShifted.part (i := 0) (p := []) hc hl hpos rfl

/-- P_SHIFT puts out the next bit, and the code is whole with its last bit. -/
theorem CodesShifted.shift {m : Memory} {y : Symbol} {i : BitVec 8} {ys : List Symbol} {bits : Bits} {b : Bool}
    {len : Byte} (h : CodesShifted m y i true ys bits) (hb : m.codeBit? y i = some b) (hl : m.codeLen? y = some len) :
    CodesShifted m y (i + 1) (decide (i + 1 ≠ len)) ys (bits ++ [b]) := by
  cases h with
  | part hc hl' hi hp =>
    cases hl.symm.trans hl'
    have hp' := Memory.codePrefix?_succ hp hb
    have hi1 : (i + 1).toNat = i.toNat + 1 := by bv_omega
    rw [List.append_assoc]
    by_cases hlast : i + 1 = len
    · have hy : m.code? y = some _ := (Memory.code?_of_len hl).trans (by rw [← hlast, hi1]; exact hp')
      rw [decide_eq_false (not_not.mpr hlast)]
      simpa using CodesShifted.whole (mapM_snoc hc hy) (y := y) (i := i + 1)
    · rw [decide_eq_true hlast]
      exact .part hc hl (succ_lt hi hlast) (hi1 ▸ hp')

/-! ## What a pack run keeps -/

/-- A pack run in progress, after the bytes `fed` to it and the bytes `got` from it: `ys` are the symbols taken and
`bits` the bits shifted out; their whole bytes have gone through DOUT, and `tail` is in ACC. -/
structure PackingAt (s : State) (fed got : List Byte) (ys : List Symbol) (bits tail : Bits) : Prop where
  mode : s.mode = .pack
  codes : CodesShifted s.mem s.curSym s.curIdx s.codeActive ys bits
  taken : fed = ys ++ s.dinBytes
  inCount : s.inCount = BitVec.ofNat 32 ys.length
  bits : bits = bitsMsb (got ++ s.doutBytes) ++ tail
  accN : s.accN.toNat = tail.length
  acc : HoldsBits s.acc tail
  outCount : s.outCount = BitVec.ofNat 32 (got ++ s.doutBytes).length

/-- A pack run that is DONE: every symbol is packed, and the last byte is padded. -/
structure PackedAt (m : Memory) (s : State) (fed got : List Byte) (cs : List Bits) : Prop where
  mode : s.mode = .done
  codes : fed.mapM m.code? = some cs
  inCount : s.inCount = BitVec.ofNat 32 fed.length
  bits : pad8 cs.flatten = bitsMsb (got ++ s.doutBytes)
  outCount : s.outCount = BitVec.ofNat 32 (got ++ s.doutBytes).length

/-- A pack run with the tables `m`, after the bytes `fed` to it and the bytes `got` from it. -/
inductive PackProgress (m : Memory) (s : State) (fed got : List Byte) : Prop
  | packing {ys : List Symbol} {bits tail : Bits} (hmem : s.mem = m) (h : PackingAt s fed got ys bits tail)
  | packed {cs : List Bits} (h : PackedAt m s fed got cs)
  | faulted (hm : s.mode = .fault)

/-- A START_PACK that is taken begins a pack run. -/
theorem packProgress_of_startPack {s₀ s : State} (hm : s₀.mode = .idle ∨ s₀.mode = .done)
    (h : exec .startPack s₀ = .next s) : PackProgress s.mem s [] [] := by
  cases (if_pos hm).symm.trans h
  exact .packing rfl
    { mode := rfl
      codes := .whole (ys := []) (cs := []) rfl
      taken := rfl
      inCount := rfl
      bits := rfl
      accN := rfl
      acc := .nil 7
      outCount := rfl }

/-! ## The packer's steps -/

theorem PackingAt.pTake {s : State} {fed got : List Byte} {ys : List Symbol} {bits tail : Bits} {len : Byte}
    (h : PackingAt s fed got ys bits tail) (ha : s.codeActive = false) (hd : s.dinValid = true)
    (hl : s.mem.codeLen? s.dinData = some len) (h0 : len ≠ 0) :
    PackingAt { takeDin s with curSym := s.dinData, curIdx := 0, codeActive := true } fed got (ys ++ [s.dinData]) bits
      tail :=
  { h with
    codes := (ha ▸ h.codes).take hl h0
    taken := by rw [h.taken, s.dinBytes_of_valid hd]; exact (List.append_nil _).symm
    inCount := by simp [takeDin, h.inCount, BitVec.ofNat_add] }

/-- With room in ACC the bit joins the tail. -/
theorem PackingAt.shift {s : State} {fed got : List Byte} {ys : List Symbol} {bits tail : Bits} {b : Bool} {len : Byte}
    (h : PackingAt s fed got ys bits tail) (ha : s.codeActive = true) (hn : s.accN ≠ 7)
    (hb : s.mem.codeBit? s.curSym s.curIdx = some b) (hl : s.mem.codeLen? s.curSym = some len) :
    PackingAt { s with
      acc := (s.acc <<< 1) ||| BitVec.zeroExtend 7 (BitVec.ofBool b), accN := s.accN + 1
      curIdx := s.curIdx + 1, codeActive := decide (s.curIdx + 1 ≠ len) } fed got ys (bits ++ [b]) (tail ++ [b]) := by
  have hlt := (accN_lt_seven_iff s.accN).mpr hn
  have hn1 : (s.accN + 1).toNat = s.accN.toNat + 1 := by bv_omega
  exact { h with
    codes := (ha ▸ h.codes).shift hb hl
    bits := by rw [h.bits, List.append_assoc]; rfl
    accN := by rw [List.length_append, ← h.accN]; exact hn1
    acc := h.acc.snoc (h.accN ▸ hlt) b }

/-- A byte that goes out through the empty DOUT adds its bits to those of the bytes that are out. -/
theorem bitsMsb_emit {s : State} {got : List Byte} {v : Byte} {x : Bits} (hv : s.doutValid = false)
    (hx : HoldsBits v x) (hl : x.length = 8) :
    bitsMsb (got ++ (emitOut v s).doutBytes) = bitsMsb (got ++ s.doutBytes) ++ x := by
  rw [s.doutBytes_of_empty hv, State.doutBytes_of_valid (s := emitOut v s) rfl, List.append_nil, bitsMsb_snoc]
  exact congrArg _ (hx.bitsOfByte hl)

theorem outCount_emit {s : State} {got : List Byte} (v : Byte) (hv : s.doutValid = false)
    (hc : s.outCount = BitVec.ofNat 32 (got ++ s.doutBytes).length) :
    (emitOut v s).outCount = BitVec.ofNat 32 (got ++ (emitOut v s).doutBytes).length := by
  rw [s.doutBytes_of_empty hv] at hc
  simp [State.doutBytes_of_valid (s := emitOut v s) rfl, hc, BitVec.ofNat_add]

/-- With seven bits in ACC the bit completes a byte. -/
theorem PackingAt.complete {s : State} {fed got : List Byte} {ys : List Symbol} {bits tail : Bits} {b : Bool}
    {len : Byte} (h : PackingAt s fed got ys bits tail) (ha : s.codeActive = true) (hn : s.accN = 7)
    (hv : s.doutValid = false) (hb : s.mem.codeBit? s.curSym s.curIdx = some b)
    (hl : s.mem.codeLen? s.curSym = some len) :
    PackingAt { emitOut ((BitVec.zeroExtend 8 s.acc <<< 1) ||| BitVec.zeroExtend 8 (BitVec.ofBool b)) s with
      acc := 0, accN := 0
      curIdx := s.curIdx + 1, codeActive := decide (s.curIdx + 1 ≠ len) } fed got ys (bits ++ [b]) [] := by
  have htail : tail.length = 7 := by rw [← h.accN, hn]; rfl
  have hx := (h.acc.zeroExtend (w := 8) (by omega)).snoc (by omega) b
  exact { h with
    codes := (ha ▸ h.codes).shift hb hl
    bits := by
      rw [h.bits, List.append_assoc, List.append_nil]
      exact (bitsMsb_emit hv hx (by simp [htail])).symm
    accN := rfl
    acc := .nil 7
    outCount := outCount_emit _ hv h.outCount }

/-- With no code active and DIN empty the symbols taken are those accepted, and their codes are out whole. -/
theorem PackingAt.codes_whole {s : State} {fed got : List Byte} {ys : List Symbol} {bits tail : Bits}
    (h : PackingAt s fed got ys bits tail) (ha : s.codeActive = false) (hd : s.dinValid = false) :
    ys = fed ∧ ∃ cs, fed.mapM s.mem.code? = some cs ∧ bits = cs.flatten := by
  have hf : ys = fed := by rw [h.taken, s.dinBytes_of_empty hd, List.append_nil]
  have hc := h.codes
  rw [ha, hf] at hc
  cases hc with
  | whole hc => exact ⟨hf, _, hc, rfl⟩

theorem PackingAt.bits_mod {s : State} {fed got : List Byte} {ys : List Symbol} {bits tail : Bits}
    (h : PackingAt s fed got ys bits tail) : bits.length % 8 = s.accN.toNat := by
  have hlt := s.accN.isLt
  rw [h.bits, List.length_append, length_bitsMsb, ← h.accN]
  omega

/-- P_FLUSH with nothing pending. -/
theorem PackingAt.finish {s : State} {fed got : List Byte} {ys : List Symbol} {bits tail : Bits}
    (h : PackingAt s fed got ys bits tail) (ha : s.codeActive = false) (hd : s.dinValid = false) (hn : s.accN = 0) :
    ∃ cs, PackedAt s.mem { s with mode := .done } fed got cs := by
  obtain ⟨rfl, cs, hc, rfl⟩ := h.codes_whole ha hd
  have htail : tail = [] := List.eq_nil_of_length_eq_zero (by rw [← h.accN, hn]; rfl)
  exact ⟨cs,
    { mode := rfl
      codes := hc
      inCount := h.inCount
      bits := by
        rw [pad8_of_whole (by rw [h.bits_mod, hn]; rfl), h.bits, htail, List.append_nil]
        rfl
      outCount := h.outCount }⟩

/-- P_FLUSH with bits pending: the padding fills the last byte. -/
theorem PackingAt.finishPadded {s : State} {fed got : List Byte} {ys : List Symbol} {bits tail : Bits}
    (h : PackingAt s fed got ys bits tail) (ha : s.codeActive = false) (hd : s.dinValid = false) (hn : s.accN ≠ 0)
    (hv : s.doutValid = false) :
    ∃ cs, PackedAt s.mem { emitOut (BitVec.zeroExtend 8 s.acc <<< (8 - s.accN.toNat)) s with
      acc := 0, accN := 0, mode := .done } fed got cs := by
  obtain ⟨rfl, cs, hc, rfl⟩ := h.codes_whole ha hd
  have hlt := s.accN.isLt
  have hlen := h.accN
  have hx := (h.acc.zeroExtend (w := 8) (by omega)).shiftLeft (k := 8 - s.accN.toNat) (by omega)
  exact ⟨cs,
    { mode := rfl
      codes := hc
      inCount := h.inCount
      bits := by
        rw [pad8_of_pending h.bits_mod fun hz => hn (BitVec.eq_of_toNat_eq hz), h.bits, List.append_assoc]
        exact (bitsMsb_emit hv hx (by rw [List.length_append, List.length_replicate]; omega)).symm
      outCount := outCount_emit _ hv h.outCount }⟩

/-! ## The turns of a pack run -/

/-- The engine's turn. -/
theorem PackingAt.engineTurn {s t : State} {fed got : List Byte} {ys : List Symbol} {bits tail : Bits}
    (h : PackingAt s fed got ys bits tail) (ht : engineTurn s = .next t) : PackProgress s.mem t fed got := by
  obtain ⟨he, hx⟩ | ⟨he, hx⟩ | ⟨he, hx⟩ | ⟨he, hx⟩ | ⟨he, hx⟩ | ⟨-, hx⟩ := engineTurn_cases s <;> rw [hx] at ht
  · obtain ⟨-, ha, hd⟩ := (pTakeEnabled_iff s).mp he
    obtain ⟨-, rfl⟩ | ⟨len, hl, h0, rfl⟩ := pTake_cases ht
    · exact .faulted rfl
    · exact .packing rfl (h.pTake ha hd hl h0)
  · obtain ⟨-, ha, hroom⟩ := (pShiftEnabled_iff s).mp he
    obtain ⟨b, len, hb, hl, -⟩ := pShift_cases ht
    cases (pShift_of_written hb hl ha).symm.trans ht
    obtain ⟨hn, hs⟩ | ⟨hn, hs⟩ := shiftInto_cases b s <;> rw [hs]
    · have hv := hroom.resolve_left (by rw [accN_lt_seven_iff]; exact not_not.mpr hn)
      exact .packing rfl (h.complete ha hn hv hb hl)
    · exact .packing rfl (h.shift ha hn hb hl)
  · obtain ⟨-, -, ha, hd, hroom⟩ := (pFlushEnabled_iff s).mp he
    obtain ⟨hn, hp⟩ | ⟨hn, hp⟩ := pFlush_cases s <;> cases hp.symm.trans ht
    · exact (h.finish ha hd hn).elim fun _ => .packed
    · exact (h.finishPadded ha hd hn (hroom.resolve_left hn)).elim fun _ => .packed
  · exact nomatch h.mode.symm.trans ((uLoadEnabled_iff s).mp he).1
  · exact nomatch h.mode.symm.trans ((uBitEnabled_iff s).mp he).1
  · cases ht
    exact .packing rfl h

/-- After the run the engine's turn changes nothing. -/
theorem eq_of_engineTurn_not_run {s t : State} (hm : s.mode = .done ∨ s.mode = .fault)
    (ht : engineTurn s = .next t) : t = s := by
  have hw := waiting_of_not_run (s := s) (fun h => by simp [h] at hm) fun h => by simp [h] at hm
  cases (engineTurn_of_waiting hw).symm.trans ht
  rfl

/-- A pack run does not look at what chatter changes. -/
theorem PackProgress.chatter {m : Memory} {s t : State} {fed got : List Byte} (h : PackProgress m s fed got)
    (hc : Chatter s t) : PackProgress m t fed got := by
  obtain ⟨_, _, _, _, _, rfl⟩ := hc
  cases h with
  | packing hmem h => exact .packing hmem { h with }
  | packed h => exact .packed { h with }
  | faulted hm => exact .faulted hm

theorem PackProgress.engineTurn {m : Memory} {s t : State} {fed got : List Byte} (h : PackProgress m s fed got)
    (ht : engineTurn s = .next t) : PackProgress m t fed got := by
  cases h with
  | packing hmem h => exact hmem ▸ h.engineTurn ht
  | packed h => exact eq_of_engineTurn_not_run (.inl h.mode) ht ▸ .packed h
  | faulted hm => exact eq_of_engineTurn_not_run (.inr hm) ht ▸ .faulted hm

/-- DIN takes a byte only while the run is in progress. -/
theorem PackProgress.feed {m : Memory} {s : State} {fed got : List Byte} (h : PackProgress m s fed got) (b : Byte)
    (hr : s.dinReady = true) : PackProgress m { s with dinData := b, dinValid := true } (fed ++ [b]) got := by
  obtain ⟨hv, hm⟩ := s.dinReady_iff.mp hr
  cases h with
  | packing hmem h =>
    refine .packing hmem { h with taken := ?_ }
    rw [h.taken, s.dinBytes_of_empty hv, List.append_nil]
    rfl
  | packed h => simp [h.mode] at hm
  | faulted hf => simp [hf] at hm

/-- A byte read moves from DOUT to the host. -/
theorem PackProgress.drain {m : Memory} {s : State} {fed got : List Byte} (h : PackProgress m s fed got)
    (hv : s.doutValid = true) :
    PackProgress m { s with doutValid := false, doutData := 0 } fed (got ++ [s.doutData]) := by
  have hout : got ++ [s.doutData] ++ State.doutBytes { s with doutValid := false, doutData := 0 } =
      got ++ s.doutBytes := by
    rw [s.doutBytes_of_valid hv]
    exact List.append_nil _
  cases h with
  | packing hmem h => exact .packing hmem { h with bits := hout ▸ h.bits, outCount := hout ▸ h.outCount }
  | packed h => exact .packed { h with bits := hout ▸ h.bits, outCount := hout ▸ h.outCount }
  | faulted hm => exact .faulted hm

theorem PackProgress.flush {m : Memory} {s : State} {fed got : List Byte} (h : PackProgress m s fed got) :
    PackProgress m { s with flushReq := true } fed got := by
  cases h with
  | packing hmem h => exact .packing hmem { h with }
  | packed h => exact .packed { h with }
  | faulted hm => exact .faulted hm

/-- Every turn within a run keeps the progress of a pack run. -/
theorem PackProgress.turn {m : Memory} {s t : State} {fed got f g : List Byte} (h : PackProgress m s fed got)
    (he : RunEffect s f g t) : PackProgress m t (fed ++ f) (got ++ g) := by
  cases he with
  | quiet hc => simpa using h.chatter hc
  | feed b hr hc => simpa using (h.feed b hr).chatter hc
  | drain hv hc => simpa using (h.drain hv).chatter hc
  | flush _ hc => simpa using h.flush.chatter hc
  | engine ht => simpa using (h.chatter ⟨[], _, _, _, _, rfl⟩).engineTurn ht

/-- Settles O53: a pack run keeps `PackProgress`, and in DONE with DOUT read out it says what the host has read. -/
theorem packRunEmitsThePackedCodes : Obligations.PackRunEmitsThePackedCodes := by
  intro s₀ s e ts tr hm hs hw hr hdone hv
  have hp : PackProgress s.mem e tr.fed tr.got := by
    simpa using runTurns_keeps PackProgress.turn (packProgress_of_startPack hm hs) hw hr
  cases hp with
  | packing _ h => exact nomatch hdone.symm.trans h.mode
  | faulted hf => exact nomatch hdone.symm.trans hf
  | @packed cs h =>
    have hbits := h.bits
    have hcount := h.outCount
    rw [e.doutBytes_of_empty hv, List.append_nil] at hbits hcount
    have hlen : 8 * ((cs.flatten.length + 7) / 8) = 8 * tr.got.length := by
      rw [← length_pad8, hbits, length_bitsMsb]
    refine ⟨cs, h.codes, by rw [hbits, bytesMsb_bitsMsb], ?_, h.inCount⟩
    rw [hcount, Nat.eq_of_mul_eq_mul_left (by decide) hlen]

end Sys2Proof.Machine
end

section
/-! PROOFS. The unpacker's steps (44_unpack_engine.md R201 to R204): U_BIT's answer is given by what the bit does in the
NODE table (O36 to O39). -/

namespace Sys2Proof.Machine

/-! ## What one bit does in a NODE table (44_unpack_engine.md R202) -/

section
variable {node : Nat → Option NodeEntry} {cur : NodeIdx} {b : Bool} {n m : NodeEntry}

theorem bitEffect_of_unwritten (hn : node cur.toNat = none) : bitEffect node cur b = .uninit := by
  simp [bitEffect, hn]

theorem bitEffect_of_leaf (hn : node cur.toNat = some n) (hl : n.leaf = true) :
    bitEffect node cur b = if b then .badCode else .symbol n.sym := by
  simp [bitEffect, hn, hl]

theorem bitEffect_of_no_child (hn : node cur.toNat = some n) (hl : n.leaf = false)
    (hx : 510 < (if b then n.lo else n.hi).toNat) : bitEffect node cur b = .badNode := by
  simp only [bitEffect, hn, hl, hx, if_true, Bool.false_eq_true, if_false]

theorem bitEffect_of_unwritten_child (hn : node cur.toNat = some n) (hl : n.leaf = false)
    (hx : (if b then n.lo else n.hi).toNat ≤ 510) (hm : node (if b then n.lo else n.hi).toNat = none) :
    bitEffect node cur b = .uninit := by
  simp only [bitEffect, hn, hl, hm, Nat.not_lt.mpr hx, Bool.false_eq_true, if_false]

theorem bitEffect_of_child (hn : node cur.toNat = some n) (hl : n.leaf = false)
    (hx : (if b then n.lo else n.hi).toNat ≤ 510) (hm : node (if b then n.lo else n.hi).toNat = some m) :
    bitEffect node cur b = if m.leaf then .symbol m.sym else .move (if b then n.lo else n.hi) := by
  simp only [bitEffect, hn, hl, hm, Nat.not_lt.mpr hx, Bool.false_eq_true, if_false]

end

/-! ## U_BIT (44_unpack_engine.md R202 to R204) -/

/-- What the first bit of SR does at CUR. -/
def State.nextBitEffect (s : State) : BitEffect := bitEffect (fun n => s.mem.node? n) s.cur (s.sr.getLsbD 7)

/-- The answer of U_BIT to what its bit does; an unwritten entry is at offset `off`. -/
def bitAnswer (s : State) (off : Nat) : BitEffect → Result
  | .symbol y => .next (symOut y (consume s))
  | .move n => .next { consume s with cur := n }
  | .badCode => .next (raiseFault .badCode s.cur s)
  | .badNode => .next (raiseFault .badNode s.cur s)
  | .uninit => .fault (.uninit off)

/-- U_BIT answers what its bit does. -/
theorem uBit_eq_bitAnswer (s : State) : ∃ off, uBit s = bitAnswer s off s.nextBitEffect := by
  unfold State.nextBitEffect uBit
  cases hn : s.mem.node? s.cur.toNat with
  | none => exact ⟨_, by rw [bitEffect_of_unwritten hn]; rfl⟩
  | some n =>
    cases hl : n.leaf with
    | true =>
      rw [bitEffect_of_leaf hn hl]
      cases s.sr.getLsbD 7 <;> exact ⟨0, by simp [hl, bitAnswer]⟩
    | false =>
      generalize s.sr.getLsbD 7 = b
      by_cases hx : 510 < (if b then n.lo else n.hi).toNat
      · rw [bitEffect_of_no_child hn hl hx]
        exact ⟨0, by simp only [hl, hx, Bool.false_eq_true, if_false, if_true]; rfl⟩
      have hle := Nat.le_of_not_lt hx
      cases hm : s.mem.node? (if b then n.lo else n.hi).toNat with
      | none =>
        rw [bitEffect_of_unwritten_child hn hl hle hm]
        exact ⟨_, by simp only [hl, hx, hm, Bool.false_eq_true, if_false]; rfl⟩
      | some m =>
        rw [bitEffect_of_child hn hl hle hm]
        cases hml : m.leaf <;> exact ⟨0, by simp only [hl, hx, hm, hml, Bool.false_eq_true, if_false, if_true]; rfl⟩

/-- With a bit in SR and DOUT empty the engine's turn answers what the bit does. -/
theorem engineTurn_of_bit {s : State} {e : BitEffect} (hm : s.mode = .unpack) (hn : 0 < s.srN.toNat)
    (hv : s.doutValid = false) (he : s.nextBitEffect = e) : ∃ off, engineTurn s = bitAnswer s off e := by
  obtain ⟨off, h⟩ := uBit_eq_bitAnswer s
  exact ⟨off, (engineTurn_of_enabled (e := .uBit) ((uBitEnabled_iff s).mpr ⟨hm, hn, hv⟩)).trans (he ▸ h)⟩

/-! ## The obligations of the unpacker's steps -/

/-- Settles O36: with SR empty and DIN full the engine's turn is U_LOAD. -/
theorem uLoadTakesAByte : Obligations.ULoadTakesAByte := fun s hm hn hd =>
  engineTurn_of_enabled (e := .uLoad) ((uLoadEnabled_iff s).mpr ⟨hm, hn, hd⟩)

/-- Settles O37: the bit is a bad code at a Leaf, and has no node to go to or no written entry elsewhere. -/
theorem uBitFaultsPrecisely : Obligations.UBitFaultsPrecisely := by
  intro s hm h0 hv
  refine ⟨fun n hn hl hb => ?_, fun n hn hl hx => ?_, fun hn => ?_, fun n hn hl hx hm' => ?_⟩
  · exact (engineTurn_of_bit hm h0 hv ((bitEffect_of_leaf hn hl).trans (if_pos hb))).elim fun _ h => h
  · exact (engineTurn_of_bit hm h0 hv (bitEffect_of_no_child hn hl (by rw [hx]; decide))).elim fun _ h => h
  · exact engineTurn_of_bit hm h0 hv (bitEffect_of_unwritten hn)
  · exact engineTurn_of_bit hm h0 hv (bitEffect_of_unwritten_child hn hl (toNat_le_510_of_ne hx) hm')

/-- Settles O38: the bit is a move to the child. -/
theorem uBitMovesToAnInternalChild : Obligations.UBitMovesToAnInternalChild := by
  rintro s n m _ hm h0 hv hn hl rfl hx hm' hml
  have he := (bitEffect_of_child hn hl (toNat_le_510_of_ne hx) hm').trans (if_neg (Bool.eq_false_iff.mp hml))
  exact (engineTurn_of_bit hm h0 hv he).elim fun _ h => h

/-- A bit that reaches a Leaf, as a child or as a lone-leaf root on 0, is its symbol. -/
theorem bitEffect_of_reached_leaf {node : Nat → Option NodeEntry} {cur : NodeIdx} {b : Bool} {n m : NodeEntry}
    (hn : node cur.toNat = some n)
    (hr : (n.leaf = true ∧ b = false ∧ m = n) ∨
      (n.leaf = false ∧ (if b then n.lo else n.hi) ≠ 511 ∧ node (if b then n.lo else n.hi).toNat = some m ∧
        m.leaf = true)) :
    bitEffect node cur b = .symbol m.sym := by
  obtain ⟨hl, rfl, rfl⟩ | ⟨hl, hx, hm, hml⟩ := hr
  · exact bitEffect_of_leaf hn hl
  · rw [bitEffect_of_child hn hl (toNat_le_510_of_ne hx) hm, if_pos hml]

/-- Settles O39: the bit is the symbol of the Leaf, and the count of symbols left says whether it is the last. -/
theorem uBitEmitsAtALeaf : Obligations.UBitEmitsAtALeaf := by
  intro s n m hm h0 hv hn hr
  obtain ⟨off, h⟩ := engineTurn_of_bit hm h0 hv (bitEffect_of_reached_leaf hn hr)
  rw [h, bitAnswer]
  obtain ⟨hc, hs⟩ | ⟨hc, hs⟩ := symOut_cases m.sym (consume s)
  · have h1 : s.symCount = 1 := by simp at hc; bv_omega
    refine ⟨fun hne => absurd h1 hne, fun _ => ?_⟩
    rw [hs, hc]
    rfl
  · have h1 : s.symCount ≠ 1 := fun he => hc (by simp [he])
    exact ⟨fun _ => congrArg _ hs, fun he => absurd he h1⟩

end Sys2Proof.Machine
end

section
/-! PROOFS. The unpack run (44_unpack_engine.md R202 to R209): under every interleaving, what the walk of the tree gives
on the bits fed is the symbols put out and then what the walk from CUR gives on the bits held (O54). -/

namespace Sys2Proof.Machine

/-! ## The walk of the NODE table -/

/-- The walk of the NODE table of a memory. -/
def Memory.walk (m : Memory) (root : NodeIdx) (k : Nat) (cur : NodeIdx) (x : Bits) : WalkEnd :=
  treeWalk (fun n => m.node? n) root k cur x

theorem Memory.walk_zero (m : Memory) (root cur : NodeIdx) (x : Bits) : m.walk root 0 cur x = .symbols [] x := by
  rw [Memory.walk, treeWalk]

theorem treeWalk_of_symbol {node : Nat → Option NodeEntry} {root cur : NodeIdx} {b : Bool} {y : Symbol}
    (he : bitEffect node cur b = .symbol y) (k : Nat) (x : Bits) :
    treeWalk node root (k + 1) cur (b :: x) = (treeWalk node root k root x).cons y := by
  rw [treeWalk, he]

theorem treeWalk_of_move {node : Nat → Option NodeEntry} {root cur n : NodeIdx} {b : Bool}
    (he : bitEffect node cur b = .move n) (k : Nat) (x : Bits) :
    treeWalk node root (k + 1) cur (b :: x) = treeWalk node root (k + 1) n x := by
  rw [treeWalk, he]

/-- The symbols `out` in front of a walk. -/
def WalkEnd.prepend (out : List Symbol) (w : WalkEnd) : WalkEnd := out.foldr WalkEnd.cons w

theorem WalkEnd.prepend_snoc (out : List Symbol) (y : Symbol) (w : WalkEnd) :
    WalkEnd.prepend (out ++ [y]) w = WalkEnd.prepend out (w.cons y) :=
  List.foldr_append

theorem WalkEnd.prepend_symbols (out : List Symbol) (rest : Bits) :
    WalkEnd.prepend out (.symbols [] rest) = .symbols out rest := by
  induction out with
  | nil => rfl
  | cons y out ih => exact congrArg (WalkEnd.cons y) ih

/-! ## The bits the block holds -/

/-- A byte fed to an empty DIN is held last. -/
theorem pendingBits_feed {s : State} (hd : s.dinValid = false) (b : Byte) :
    State.pendingBits { s with dinData := b, dinValid := true } = s.pendingBits ++ bitsOfByte b := by
  simp [State.pendingBits, hd]

/-- U_LOAD moves the bits of DIN to the empty SR. -/
theorem pendingBits_load {s : State} (hn : s.srN = 0) (hd : s.dinValid = true) :
    State.pendingBits { takeDin s with sr := s.dinData, srN := 8 } = s.pendingBits := by
  simp [State.pendingBits, takeDin, hn, hd, bitsOfByte]

theorem length_pendingBits {s : State} (h8 : s.srN.toNat ≤ 8) :
    s.pendingBits.length = s.srN.toNat + 8 * s.dinBytes.length := by
  have hsr : ((bitsOfByte s.sr).take s.srN.toNat).length = s.srN.toNat :=
    List.length_take_of_le h8
  rw [State.pendingBits, List.length_append, hsr]
  cases hd : s.dinValid with
  | true => rw [s.dinBytes_of_valid hd]; rfl
  | false => rw [s.dinBytes_of_empty hd]; rfl

/-- A byte read moves from DOUT to the host. -/
theorem doutBytes_drain {s : State} (hv : s.doutValid = true) (got : List Byte) :
    got ++ [s.doutData] ++ State.doutBytes { s with doutValid := false, doutData := 0 } = got ++ s.doutBytes := by
  rw [s.doutBytes_of_valid hv]
  exact List.append_nil _

/-! ## What an unpack run keeps -/

/-- An unpack run of `k` symbols in progress, after the bytes `fed` to it and the bytes `got` from it, `n` bytes taken
into SR: whatever bits may follow, the whole walk is the symbols put out and then the walk from CUR over the bits held.
-/
structure UnpackingAt (k : Word) (s : State) (fed got : List Byte) (n : Nat) : Prop where
  mode : s.mode = .unpack
  srN : s.srN.toNat ≤ 8
  count : s.symCount ≠ 0
  walk : ∀ x, s.mem.walk s.root k.toNat s.root (bitsMsb fed ++ x) =
    WalkEnd.prepend (got ++ s.doutBytes) (s.mem.walk s.root s.symCount.toNat s.cur (s.pendingBits ++ x))
  taken : fed.length = n + s.dinBytes.length
  inCount : s.inCount = BitVec.ofNat 32 n
  outCount : s.outCount + s.symCount = k

/-- An unpack run of `k` symbols that is DONE: the walk gives the symbols put out, and leaves the bits `rest`. -/
structure UnpackedAt (m : Memory) (root : NodeIdx) (k : Word) (s : State) (fed got : List Byte) (rest : Bits) :
    Prop where
  mode : s.mode = .done
  walk : m.walk root k.toNat root (bitsMsb fed) = .symbols (got ++ s.doutBytes) rest
  symCount : s.symCount = 0
  inCount : s.inCount = BitVec.ofNat 32 ((8 * fed.length - rest.length + 7) / 8)
  outCount : s.outCount = k

/-- An unpack run with the tables `m`, after the bytes `fed` to it and the bytes `got` from it. -/
inductive UnpackProgress (m : Memory) (root : NodeIdx) (k : Word) (s : State) (fed got : List Byte) : Prop
  | unpacking {n : Nat} (hmem : s.mem = m) (hroot : s.root = root) (h : UnpackingAt k s fed got n)
  | unpacked {rest : Bits} (h : UnpackedAt m root k s fed got rest)
  | faulted (hm : s.mode = .fault)

/-- A START_UNPACK of at least one symbol that is taken begins an unpack run, or faults. -/
theorem unpackProgress_of_startUnpack {s₀ s : State} (hm : s₀.mode = .idle ∨ s₀.mode = .done) (h0 : s₀.symCount ≠ 0)
    (h : exec .startUnpack s₀ = .next s) : UnpackProgress s.mem s.root s.symCount s [] [] := by
  have hs := ((if_pos hm).trans (if_neg h0)).symm.trans h
  by_cases hr : 510 < s₀.root.toNat
  · cases (if_pos hr).symm.trans hs
    exact .faulted rfl
  · cases (if_neg hr).symm.trans hs
    exact .unpacking (n := 0) rfl rfl
      { mode := rfl
        srN := Nat.zero_le 8
        count := h0
        walk := fun _ => rfl
        taken := rfl
        inCount := rfl
        outCount := BitVec.zero_add _ }

/-! ## The unpacker's steps and the turns of an unpack run -/

section
variable {m : Memory} {root cur : NodeIdx} {k : Word} {s t : State} {fed got : List Byte} {n : Nat} {y : Symbol}

theorem UnpackingAt.load (h : UnpackingAt k s fed got n) (hn : s.srN = 0) (hd : s.dinValid = true) :
    UnpackingAt k { takeDin s with sr := s.dinData, srN := 8 } fed got (n + 1) :=
  { h with
    srN := Nat.le_refl 8
    walk := by rw [pendingBits_load hn hd]; exact h.walk
    taken := by rw [h.taken, s.dinBytes_of_valid hd]; rfl
    inCount := by simp [takeDin, h.inCount, BitVec.ofNat_add] }

/-- The walk from CUR begins with the first bit of SR. -/
theorem UnpackingAt.walk_consume (h : UnpackingAt k s fed got n) (hn : 0 < s.srN.toNat) (x : Bits) :
    s.mem.walk s.root k.toNat s.root (bitsMsb fed ++ x) = WalkEnd.prepend (got ++ s.doutBytes)
      (s.mem.walk s.root ((s.symCount - 1).toNat + 1) s.cur (s.sr.getLsbD 7 :: ((consume s).pendingBits ++ x))) := by
  rw [h.walk, (pendingBits_consume hn h.srN).1, symCount_succ h.count]
  rfl

/-- U_BIT leaves at most the bits that were there. -/
theorem UnpackingAt.srN_consume (h : UnpackingAt k s fed got n) (hn : 0 < s.srN.toNat) :
    (consume s).srN.toNat ≤ 8 :=
  (pendingBits_consume hn h.srN).2.le.trans ((Nat.sub_le ..).trans h.srN)

/-- A move goes on with the walk of the bits left. -/
theorem UnpackingAt.walk_move (h : UnpackingAt k s fed got n) (hn : 0 < s.srN.toNat) (he : s.nextBitEffect = .move cur)
    (x : Bits) :
    s.mem.walk s.root k.toNat s.root (bitsMsb fed ++ x) = WalkEnd.prepend (got ++ s.doutBytes)
      (s.mem.walk s.root s.symCount.toNat cur ((consume s).pendingBits ++ x)) := by
  rw [h.walk_consume hn, Memory.walk, treeWalk_of_move he, ← symCount_succ h.count]
  rfl

theorem UnpackingAt.move (h : UnpackingAt k s fed got n) (hn : 0 < s.srN.toNat) (he : s.nextBitEffect = .move cur) :
    UnpackingAt k { consume s with cur := cur } fed got n :=
  { h with
    srN := h.srN_consume hn
    walk := h.walk_move hn he }

/-- A symbol put out goes from the front of the walk to the symbols that are out. -/
theorem UnpackingAt.walk_emit (h : UnpackingAt k s fed got n) (hn : 0 < s.srN.toNat) (hv : s.doutValid = false)
    (he : s.nextBitEffect = .symbol y) (x : Bits) :
    s.mem.walk s.root k.toNat s.root (bitsMsb fed ++ x) = WalkEnd.prepend (got ++ [y])
      (s.mem.walk s.root (s.symCount - 1).toNat s.root ((consume s).pendingBits ++ x)) := by
  rw [h.walk_consume hn, Memory.walk, treeWalk_of_symbol he, s.doutBytes_of_empty hv, List.append_nil,
    WalkEnd.prepend_snoc]
  rfl

theorem UnpackingAt.outCount_emit (h : UnpackingAt k s fed got n) : s.outCount + 1 + (s.symCount - 1) = k := by
  rw [← h.outCount]
  bv_omega

/-- A symbol that is not the last. -/
theorem UnpackingAt.emit (h : UnpackingAt k s fed got n) (hn : 0 < s.srN.toNat) (hv : s.doutValid = false)
    (he : s.nextBitEffect = .symbol y) (hc : s.symCount - 1 ≠ 0) :
    UnpackingAt k { emitOut y (consume s) with symCount := s.symCount - 1, cur := s.root } fed got n :=
  { h with
    srN := h.srN_consume hn
    count := hc
    walk := h.walk_emit hn hv he
    outCount := h.outCount_emit }

/-- The last symbol: the bits held are left over, and at most seven of them are of a byte that was taken. -/
theorem UnpackingAt.finish (h : UnpackingAt k s fed got n) (hn : 0 < s.srN.toNat) (hv : s.doutValid = false)
    (he : s.nextBitEffect = .symbol y) (hc : s.symCount - 1 = 0) :
    UnpackedAt s.mem s.root k
      (finishUnpack { emitOut y (consume s) with symCount := s.symCount - 1, cur := s.root }) fed got
      (consume s).pendingBits where
  mode := rfl
  walk := by
    have hw := h.walk_emit hn hv he []
    rw [List.append_nil, List.append_nil, hc] at hw
    exact hw.trans ((congrArg _ (Memory.walk_zero ..)).trans (WalkEnd.prepend_symbols ..))
  symCount := hc
  inCount := by
    have h8 := h.srN
    have hs := (pendingBits_consume hn h8).2
    have hl := length_pendingBits (s := consume s) (by omega)
    have hd : (consume s).dinBytes = s.dinBytes := rfl
    refine h.inCount.trans (congrArg _ ?_)
    rw [hl, hs, hd, h.taken]
    omega
  outCount := by
    have ho := h.outCount_emit
    rw [hc] at ho
    exact (BitVec.add_zero _).symm.trans ho

/-- U_BIT. -/
theorem UnpackingAt.bit (h : UnpackingAt k s fed got n) (hn : 0 < s.srN.toNat) (hv : s.doutValid = false)
    (ht : uBit s = .next t) : UnpackProgress s.mem s.root k t fed got := by
  obtain ⟨off, hb⟩ := uBit_eq_bitAnswer s
  have ht := hb.symm.trans ht
  cases he : s.nextBitEffect with
  | symbol y =>
    rw [he] at ht
    cases ht
    obtain ⟨hc, hs⟩ | ⟨hc, hs⟩ := symOut_cases y (consume s) <;> rw [hs]
    · exact .unpacked (h.finish hn hv he hc)
    · exact .unpacking rfl rfl (h.emit hn hv he hc)
  | move cur =>
    rw [he] at ht
    cases ht
    exact .unpacking rfl rfl (h.move hn he)
  | badCode =>
    rw [he] at ht
    cases ht
    exact .faulted rfl
  | badNode =>
    rw [he] at ht
    cases ht
    exact .faulted rfl
  | uninit => rw [he] at ht; cases ht

/-- The engine's turn. -/
theorem UnpackingAt.engineTurn (h : UnpackingAt k s fed got n) (ht : engineTurn s = .next t) :
    UnpackProgress s.mem s.root k t fed got := by
  obtain ⟨he, hx⟩ | ⟨he, hx⟩ | ⟨he, hx⟩ | ⟨he, hx⟩ | ⟨he, hx⟩ | ⟨-, hx⟩ := engineTurn_cases s <;> rw [hx] at ht
  · exact nomatch h.mode.symm.trans ((pTakeEnabled_iff s).mp he).1
  · exact nomatch h.mode.symm.trans ((pShiftEnabled_iff s).mp he).1
  · exact nomatch h.mode.symm.trans ((pFlushEnabled_iff s).mp he).1
  · obtain ⟨-, hn, hd⟩ := (uLoadEnabled_iff s).mp he
    cases ht
    exact .unpacking rfl rfl (h.load hn hd)
  · obtain ⟨-, hn, hv⟩ := (uBitEnabled_iff s).mp he
    exact h.bit hn hv ht
  · cases ht
    exact .unpacking rfl rfl h

/-- An unpack run does not look at what chatter changes. -/
theorem UnpackProgress.chatter (h : UnpackProgress m root k s fed got) (hc : Chatter s t) :
    UnpackProgress m root k t fed got := by
  obtain ⟨_, _, _, _, _, rfl⟩ := hc
  cases h with
  | unpacking hmem hroot h => exact .unpacking hmem hroot { h with }
  | unpacked h => exact .unpacked { h with }
  | faulted hm => exact .faulted hm

theorem UnpackProgress.engineTurn (h : UnpackProgress m root k s fed got) (ht : engineTurn s = .next t) :
    UnpackProgress m root k t fed got := by
  cases h with
  | unpacking hmem hroot h => exact hmem ▸ hroot ▸ h.engineTurn ht
  | unpacked h => exact eq_of_engineTurn_not_run (.inl h.mode) ht ▸ .unpacked h
  | faulted hm => exact eq_of_engineTurn_not_run (.inr hm) ht ▸ .faulted hm

/-- DIN takes a byte only while the run is in progress. -/
theorem UnpackProgress.feed (h : UnpackProgress m root k s fed got) (b : Byte) (hr : s.dinReady = true) :
    UnpackProgress m root k { s with dinData := b, dinValid := true } (fed ++ [b]) got := by
  obtain ⟨hd, hm⟩ := s.dinReady_iff.mp hr
  cases h with
  | unpacking hmem hroot h =>
    refine .unpacking hmem hroot { h with walk := fun x => ?_, taken := ?_ }
    · rw [bitsMsb_snoc, pendingBits_feed hd, List.append_assoc, List.append_assoc]
      exact h.walk _
    · rw [List.length_append, h.taken, s.dinBytes_of_empty hd]
      rfl
  | unpacked h => simp [h.mode] at hm
  | faulted hf => simp [hf] at hm

theorem UnpackProgress.drain (h : UnpackProgress m root k s fed got) (hv : s.doutValid = true) :
    UnpackProgress m root k { s with doutValid := false, doutData := 0 } fed (got ++ [s.doutData]) := by
  cases h with
  | unpacking hmem hroot h => exact .unpacking hmem hroot { h with walk := doutBytes_drain hv got ▸ h.walk }
  | unpacked h => exact .unpacked { h with walk := doutBytes_drain hv got ▸ h.walk }
  | faulted hm => exact .faulted hm

theorem UnpackProgress.flush (h : UnpackProgress m root k s fed got) :
    UnpackProgress m root k { s with flushReq := true } fed got := by
  cases h with
  | unpacking hmem hroot h => exact .unpacking hmem hroot { h with }
  | unpacked h => exact .unpacked { h with }
  | faulted hm => exact .faulted hm

/-- Every turn within a run keeps the progress of an unpack run. -/
theorem UnpackProgress.turn {f g : List Byte} (h : UnpackProgress m root k s fed got) (he : RunEffect s f g t) :
    UnpackProgress m root k t (fed ++ f) (got ++ g) := by
  cases he with
  | quiet hc => simpa using h.chatter hc
  | feed b hr hc => simpa using (h.feed b hr).chatter hc
  | drain hv hc => simpa using (h.drain hv).chatter hc
  | flush _ hc => simpa using h.flush.chatter hc
  | engine ht => simpa using (h.chatter ⟨[], _, _, _, _, rfl⟩).engineTurn ht

end

/-- Settles O54: an unpack run keeps `UnpackProgress`, and in DONE with DOUT read out it says what the host has read. -/
theorem unpackRunIsTheTreeWalk : Obligations.UnpackRunIsTheTreeWalk := by
  intro s₀ s e ts tr hm h0 hs hw hr hdone hv
  have hp : UnpackProgress s.mem s.root s.symCount e tr.fed tr.got := by
    simpa using runTurns_keeps UnpackProgress.turn (unpackProgress_of_startUnpack hm h0 hs) hw hr
  cases hp with
  | unpacking _ _ h => exact nomatch hdone.symm.trans h.mode
  | faulted hf => exact nomatch hdone.symm.trans hf
  | @unpacked rest h =>
    have hwalk := h.walk
    rw [e.doutBytes_of_empty hv, List.append_nil] at hwalk
    exact ⟨rest, hwalk, h.symCount, h.outCount, h.inCount⟩

end Sys2Proof.Machine
end

section
/-! PROOFS. On the image of a built tree the walk and the source's candidate match agree (44_unpack_engine.md R205): the
candidate is the path from the root to CUR, and the codes that begin with it are those of the leaves under CUR (O58). -/

namespace Sys2Proof.Machine

/-! ## The image of a built tree (42_tables.md R159) -/

/-- The NODE entry of a node. -/
def TreeNode.entry (n : TreeNode) : NodeEntry := NodeEntry.ofWord n.word

theorem Tree.imageTable_eq (t : Tree) (i : Nat) : imageTable t.image i = t.nodes[i]?.map TreeNode.entry := by
  rw [imageTable, Tree.image, List.getElem?_map, Option.map_map]
  rfl

@[simp] theorem TreeNode.entry_leaf (y : Symbol) (fr : Nat) :
    (TreeNode.leaf y fr).entry = { leaf := true, hi := 0, lo := BitVec.zeroExtend 9 y } :=
  NodeEntry.ofWord_nodeWordLeaf y

@[simp] theorem TreeNode.entry_internal (fr l r : Nat) :
    (TreeNode.internal fr l r).entry = { leaf := false, hi := BitVec.ofNat 9 l, lo := BitVec.ofNat 9 r } :=
  NodeEntry.ofWord_nodeWordInternal ..

@[simp] theorem TreeNode.sym_entry_leaf (y : Symbol) (fr : Nat) : (TreeNode.leaf y fr).entry.sym = y := by
  rw [TreeNode.entry_leaf, NodeEntry.sym]
  ext i hi
  simp [hi]
  omega

/-- A table of different symbols has at most 256 of them. -/
theorem FreqTable.length_le_of_nodup {f : FreqTable} (h : (f.map Prod.fst).Nodup) : f.length ≤ 256 := by
  have hn : ((f.map Prod.fst).map BitVec.toFin).Nodup := h.map fun a b hab => BitVec.eq_of_toFin_eq hab
  simpa using hn.length_le_card

/-- A tree whose nodes all have a NODE entry, each child an entry before its parent's. -/
structure Tree.Loadable (t : Tree) : Prop where
  fits : t.nodes.length ≤ 511
  childrenBefore : ChildrenBefore t.nodes

theorem buildTree_loadable {f : FreqTable} (hf : f ≠ []) (h : (f.map Prod.fst).Nodup) : (buildTree f).Loadable := by
  obtain ⟨hn, -, hc⟩ := builtTreeShape f hf
  have hl := FreqTable.length_le_of_nodup h
  exact ⟨by omega, hc⟩

section
variable {t : Tree} {i fr l r : Nat} {b : Bool} {n : TreeNode} {y : Symbol}

theorem Tree.Loadable.lt (ht : t.Loadable) (hi : t.nodes[i]? = some n) : i < 511 :=
  Nat.lt_of_lt_of_le (List.getElem?_eq_some_iff.1 hi).1 ht.fits

theorem Tree.Loadable.entry (ht : t.Loadable) (hi : t.nodes[i]? = some n) :
    imageTable t.image (BitVec.ofNat 9 i).toNat = some n.entry := by
  have hlt := ht.lt hi
  rw [BitVec.toNat_ofNat, Nat.mod_eq_of_lt (by omega), t.imageTable_eq, hi]
  rfl

/-- Both children of an Internal node are nodes. -/
theorem Tree.Loadable.child (ht : t.Loadable) (hi : t.nodes[i]? = some (.internal fr l r)) (b : Bool) :
    ∃ n, t.nodes[if b then r else l]? = some n := by
  have hlt := (List.getElem?_eq_some_iff.1 hi).1
  obtain ⟨hl, hr, -⟩ := ht.childrenBefore i fr l r hi
  exact ⟨_, List.getElem?_eq_getElem (by split <;> omega)⟩

/-- A bit at an Internal node goes to the child, and gives its symbol when that is a leaf. -/
theorem Tree.Loadable.bitEffect_internal (ht : t.Loadable) (hi : t.nodes[i]? = some (.internal fr l r))
    (hn : t.nodes[if b then r else l]? = some n) :
    bitEffect (imageTable t.image) (BitVec.ofNat 9 i) b =
      if n.entry.leaf then .symbol n.entry.sym else .move (BitVec.ofNat 9 (if b then r else l)) := by
  have he := ht.entry hi
  rw [TreeNode.entry_internal] at he
  have hx : (if b then BitVec.ofNat 9 r else BitVec.ofNat 9 l) = BitVec.ofNat 9 (if b then r else l) :=
    (apply_ite _ _ _ _).symm
  have hlt := ht.lt hn
  have hle : (BitVec.ofNat 9 (if b then r else l)).toNat ≤ 510 := by
    rw [BitVec.toNat_ofNat, Nat.mod_eq_of_lt (by omega)]
    omega
  have hc := bitEffect_of_child (b := b) he rfl (by rw [hx]; exact hle) (by rw [hx]; exact ht.entry hn)
  rw [hc, hx]

end

/-! ## The codes under a node -/

/-- The codes that begin with the path `p` are those of the leaves under node `i`. -/
def CodesUnder (codes : List (Symbol × Bits)) (nodes : List TreeNode) (i : Nat) (p : Bits) : Prop :=
  ∃ fuel, i < fuel ∧ ∀ c, c ∈ walkCodes nodes fuel i p ↔ c ∈ codes ∧ p <+: c.2

/-- The source's match has no two codes to choose from. -/
theorem symbolFor_eq_some {codes : List (Symbol × Bits)} {p : Bits} {y : Symbol}
    (h : ∀ c ∈ codes, c.2 = p → c.1 = y) (hy : (y, p) ∈ codes) : symbolFor codes p = some y := by
  rw [symbolFor]
  cases hf : codes.find? fun c => c.2 = p with
  | none => simpa using List.find?_eq_none.1 hf _ hy
  | some c => exact congrArg some (h c (List.mem_of_find?_eq_some hf) (by simpa using List.find?_some hf))

theorem symbolFor_eq_none {codes : List (Symbol × Bits)} {p : Bits} (h : ∀ c ∈ codes, c.2 ≠ p) :
    symbolFor codes p = none := by
  rw [symbolFor, List.find?_eq_none.2 fun c hc => by simpa using h c hc]
  rfl

section
variable {codes : List (Symbol × Bits)} {nodes : List TreeNode} {i fr l r : Nat} {p : Bits} {y : Symbol}

theorem CodesUnder.symbolFor_leaf (h : CodesUnder codes nodes i p) (hi : nodes[i]? = some (.leaf y fr)) :
    symbolFor codes p = some y := by
  obtain ⟨_ | fuel, hlt, hc⟩ := h
  · omega
  simp only [walkCodes, hi, List.mem_singleton] at hc
  exact symbolFor_eq_some (fun c hm hp => congrArg Prod.fst ((hc c).2 ⟨hm, hp ▸ List.prefix_rfl⟩))
    ((hc (y, p)).1 rfl).1

/-- The codes under an Internal node, by the child they go through. -/
theorem CodesUnder.internal (h : CodesUnder codes nodes i p) (hi : nodes[i]? = some (.internal fr l r)) :
    ∃ fuel, i ≤ fuel ∧ ∀ c, (c ∈ codes ∧ p <+: c.2 ↔
      c ∈ walkCodes nodes fuel l (p ++ [false]) ∨ c ∈ walkCodes nodes fuel r (p ++ [true])) := by
  obtain ⟨_ | fuel, hlt, hc⟩ := h
  · omega
  simp only [walkCodes, hi, List.mem_append] at hc
  exact ⟨fuel, Nat.le_of_lt_succ hlt, fun c => (hc c).symm⟩

theorem CodesUnder.symbolFor_internal (h : CodesUnder codes nodes i p) (hi : nodes[i]? = some (.internal fr l r)) :
    symbolFor codes p = none := by
  obtain ⟨fuel, -, hc⟩ := h.internal hi
  refine symbolFor_eq_none fun c hm hp => ?_
  obtain h' | h' := (hc c).1 ⟨hm, hp ▸ List.prefix_rfl⟩ <;>
    simpa [hp] using (path_prefix_of_mem_walkCodes h').length_le

theorem CodesUnder.child (h : CodesUnder codes nodes i p) (hc : ChildrenBefore nodes)
    (hi : nodes[i]? = some (.internal fr l r)) (b : Bool) :
    CodesUnder codes nodes (if b then r else l) (p ++ [b]) := by
  obtain ⟨hl, hr, -⟩ := hc i fr l r hi
  obtain ⟨fuel, hle, hm⟩ := h.internal hi
  -- A code has one bit after `p`, so it is not under the other child.
  have hother : ∀ {c : Symbol × Bits} {j : Nat}, c ∈ walkCodes nodes fuel j (p ++ [!b]) → ¬ p ++ [b] <+: c.2 := by
    intro c j hw hp
    simpa using List.prefix_of_prefix_length_le hp (path_prefix_of_mem_walkCodes hw) (by simp)
  refine ⟨fuel, by split <;> omega, fun c => ⟨fun hw => ?_, fun ⟨hcode, hp⟩ => ?_⟩⟩
  · have hp := path_prefix_of_mem_walkCodes hw
    cases b with
    | false => exact ⟨((hm c).2 (.inl hw)).1, hp⟩
    | true => exact ⟨((hm c).2 (.inr hw)).1, hp⟩
  · have hw := (hm c).1 ⟨hcode, (List.prefix_append p _).trans hp⟩
    cases b with
    | false => exact hw.resolve_right fun h => hother h hp
    | true => exact hw.resolve_left fun h => hother h hp

end

/-! ## The two decoders (44_unpack_engine.md R205) -/

theorem WalkEnd.toOption_cons (y : Symbol) (w : WalkEnd) :
    (w.cons y).toOption = w.toOption.map fun p => (y :: p.1, p.2) := by
  cases w <;> rfl

theorem candidateDecode_of_symbol {codes : List (Symbol × Bits)} {cand : Bits} {b : Bool} {y : Symbol}
    (h : symbolFor codes (cand ++ [b]) = some y) (k : Nat) (x : Bits) :
    candidateDecode codes (k + 1) cand (b :: x) = (candidateDecode codes k [] x).map fun p => (y :: p.1, p.2) := by
  rw [candidateDecode, h]

theorem candidateDecode_of_none {codes : List (Symbol × Bits)} {cand : Bits} {b : Bool}
    (h : symbolFor codes (cand ++ [b]) = none) (k : Nat) (x : Bits) :
    candidateDecode codes (k + 1) cand (b :: x) = candidateDecode codes (k + 1) (cand ++ [b]) x := by
  rw [candidateDecode, h]

/-- From an Internal node whose path is the candidate. -/
theorem Tree.Loadable.walk_eq_match {t : Tree} (ht : t.Loadable) {codes : List (Symbol × Bits)} {fr l r : Nat}
    (hroot : t.nodes[t.root]? = some (.internal fr l r)) (hcodes : CodesUnder codes t.nodes t.root []) (x : Bits)
    {k i fr' l' r' : Nat} {p : Bits} (hi : t.nodes[i]? = some (.internal fr' l' r'))
    (hp : CodesUnder codes t.nodes i p) :
    (treeWalk (imageTable t.image) (BitVec.ofNat 9 t.root) k (BitVec.ofNat 9 i) x).toOption =
      candidateDecode codes k p x := by
  induction x generalizing k i p fr' l' r' with
  | nil => cases k <;> rfl
  | cons b x ih =>
    cases k with
    | zero => rfl
    | succ k =>
      have hchild := hp.child ht.childrenBefore hi b
      obtain ⟨n, hn⟩ := ht.child hi b
      have he := ht.bitEffect_internal hi hn
      cases n with
      | leaf y fy =>
        rw [TreeNode.sym_entry_leaf, TreeNode.entry_leaf] at he
        rw [treeWalk_of_symbol he, WalkEnd.toOption_cons, candidateDecode_of_symbol (hchild.symbolFor_leaf hn),
          ih hroot hcodes]
      | internal fn ln rn =>
        rw [TreeNode.entry_internal] at he
        rw [treeWalk_of_move he, candidateDecode_of_none (hchild.symbolFor_internal hn), ih hn hchild]

/-- No candidate that begins with a 1 bit matches the code of a lone leaf. -/
theorem candidateDecode_lone_dead (y : Symbol) (k : Nat) (cand x : Bits) :
    candidateDecode [(y, [false])] (k + 1) (true :: cand) x = none := by
  induction x generalizing cand with
  | nil => rfl
  | cons b x ih => exact (candidateDecode_of_none (by simp [symbolFor]) k x).trans (ih _)

/-- At a lone leaf a 0 bit is the symbol (42_tables.md R162) and a 1 bit ends both. -/
theorem Tree.Loadable.lone_walk_eq_match {t : Tree} (ht : t.Loadable) {y : Symbol} {fr : Nat}
    (hroot : t.nodes[t.root]? = some (.leaf y fr)) (k : Nat) (x : Bits) :
    (treeWalk (imageTable t.image) (BitVec.ofNat 9 t.root) k (BitVec.ofNat 9 t.root) x).toOption =
      candidateDecode [(y, [false])] k [] x := by
  have he (b : Bool) := bitEffect_of_leaf (b := b) (ht.entry hroot) (by rw [TreeNode.entry_leaf])
  induction x generalizing k with
  | nil => cases k <;> rfl
  | cons b x ih =>
    cases k with
    | zero => rfl
    | succ k =>
      cases b with
      | false =>
        have hs := he false
        rw [TreeNode.sym_entry_leaf] at hs
        rw [treeWalk_of_symbol hs, WalkEnd.toOption_cons, candidateDecode_of_symbol (y := y) (by simp [symbolFor]), ih]
      | true =>
        rw [treeWalk, he true, candidateDecode_of_none (by simp [symbolFor])]
        exact (candidateDecode_lone_dead y k [] x).symm

/-- Settles O58: the root is a lone leaf, or it is Internal and every code is under it. -/
theorem treeWalkIsTheReverseTableMatch : Obligations.TreeWalkIsTheReverseTableMatch := by
  intro f k x hf hnd
  have ht := buildTree_loadable hf hnd
  have hlt : (buildTree f).root < (buildTree f).nodes.length :=
    (buildTree_partlyBuilt hf).bounded _ List.mem_cons_self
  have hc : codesOf f = deriveCodes (buildTree f) := rfl
  rw [deriveCodes] at hc
  match hr : (buildTree f).nodes[(buildTree f).root]? with
  | none => simp at hr; omega
  | some (.leaf y fr) =>
    rw [hr] at hc
    rw [hc]
    exact ht.lone_walk_eq_match hr k x
  | some (.internal fr l r) =>
    rw [hr] at hc
    have hu : CodesUnder (codesOf f) (buildTree f).nodes (buildTree f).root [] := ⟨_, hlt, by simp [hc]⟩
    exact ht.walk_eq_match hr hu x hr hu

end Sys2Proof.Machine
end

section
/-! PROOFS. The container of an input decompresses to the input (45_host_protocol.md R231): the header reads back as it
was written, the table of an input passes the checks, the bytes of the payload hold its bits, and the match takes the
codes off the payload one symbol at a time (O60). -/

namespace Sys2Proof.Machine

/-! ## The header reads back (45_host_protocol.md R224, R228) -/

/-- The four bytes are those of the word, byte 3 first. -/
theorem readU32_u32be {n : Nat} (h : n < 2 ^ 32) (rest : List Byte) : readU32 (u32be n ++ rest) = some (n, rest) := by
  have hw : (wordByte (.ofNat 32 n) 3 ++ wordByte (.ofNat 32 n) 2 ++ wordByte (.ofNat 32 n) 1 ++
      wordByte (.ofNat 32 n) 0).toNat = n := by
    rw [word_eq_bytes, BitVec.toNat_ofNat, Nat.mod_eq_of_lt h]
  exact congrArg (fun m => some (m, rest)) hw

/-- The pairs of a header: a symbol and its count, five bytes each. -/
def pairBytes (f : FreqTable) : List Byte := f.flatMap fun p => p.1 :: u32be p.2

theorem pairBytes_cons (p : Symbol × Nat) (f : FreqTable) :
    pairBytes (p :: f) = p.1 :: (u32be p.2 ++ pairBytes f) := rfl

theorem headerBytes_append (n : Nat) (f : FreqTable) (rest : List Byte) :
    headerBytes n f ++ rest = u32be n ++ (u32be f.length ++ (pairBytes f ++ rest)) := by
  simp only [headerBytes, pairBytes, List.append_assoc]

theorem length_pairBytes (f : FreqTable) : (pairBytes f).length = 5 * f.length := by
  induction f with
  | nil => rfl
  | cons p f ih =>
    have hu : (u32be p.2).length = 4 := rfl
    rw [pairBytes_cons, List.length_cons, List.length_append, List.length_cons, hu, ih]
    omega

theorem readPairs_pairBytes {f : FreqTable} (hf : ∀ p ∈ f, p.2 < 2 ^ 32) (rest : List Byte) :
    readPairs f.length (pairBytes f ++ rest) = some (f, rest) := by
  induction f with
  | nil => rfl
  | cons p f ih =>
    obtain ⟨hp, hf⟩ := List.forall_mem_cons.1 hf
    simp only [pairBytes_cons, List.length_cons, List.cons_append, List.append_assoc, readPairs,
      readU32_u32be hp, ih hf, Option.map_some]

theorem FreqTable.valid_iff {n : Nat} {f : FreqTable} :
    f.valid n = true ↔
      (f.map Prod.fst).Nodup ∧ (∀ p ∈ f, p.2 < 2 ^ 32) ∧ (f.map Prod.snd).sum = n ∧ (f = [] ↔ n = 0) := by
  simp only [FreqTable.valid, Bool.and_eq_true, decide_eq_true_eq, List.all_eq_true, and_assoc]

/-- The header of a table that passes the checks is read as it was written. -/
theorem parseHeader_headerBytes {n : Nat} {f : FreqTable} (hn : n < 2 ^ 32) (h0 : n ≠ 0) (hf : f.valid n = true)
    (rest : List Byte) : parseHeader (headerBytes n f ++ rest) = .ok (n, f, rest) := by
  obtain ⟨hnodup, hcounts, -, hempty⟩ := FreqTable.valid_iff.1 hf
  have hle := FreqTable.length_le_of_nodup hnodup
  have hpos : f.length ≠ 0 := fun h => h0 (hempty.1 (List.length_eq_zero_iff.1 h))
  have hchecks : ¬ (256 < f.length ∨ f.length = 0 ∨ (pairBytes f ++ rest).length < 5 * f.length) := by
    rw [List.length_append, length_pairBytes]
    omega
  simp only [headerBytes_append, parseHeader, readU32_u32be hn, readU32_u32be (show f.length < 2 ^ 32 by omega),
    readPairs_pairBytes hcounts, h0, hchecks, hf, if_true, if_false]

/-! ## The table of an input (42_tables.md R151, R152) -/

theorem mem_allSymbols (y : Symbol) : y ∈ allSymbols :=
  List.mem_map.2 ⟨y.toNat, List.mem_range.2 y.isLt, by simp⟩

theorem nodup_allSymbols : allSymbols.Nodup := by
  refine List.nodup_range.map_on fun i hi j hj h => ?_
  have hij := congrArg BitVec.toNat h
  rwa [BitVec.toNat_ofNat, BitVec.toNat_ofNat, Nat.mod_eq_of_lt (List.mem_range.1 hi),
    Nat.mod_eq_of_lt (List.mem_range.1 hj)] at hij

/-- The table lists the symbols of the input once each, with their counts. -/
theorem frequencyTable_perm (input : List Byte) :
    (frequencyTable input).Perm (input.dedup.map fun y => (y, input.count y)) := by
  have hf : frequencyTable input =
      (allSymbols.filter fun y => 0 < input.count y).map fun y => (y, input.count y) := by
    rw [← List.filterMap_eq_map, List.filterMap_filter]
    simp only [frequencyTable, decide_eq_true_eq, Function.comp_apply]
  rw [hf]
  refine List.Perm.map _ ((List.perm_ext_iff_of_nodup (nodup_allSymbols.filter _) input.nodup_dedup).2 fun y => ?_)
  simp [mem_allSymbols, List.count_pos_iff]

theorem frequencyTable_symbols_perm (input : List Byte) :
    ((frequencyTable input).map Prod.fst).Perm input.dedup := by
  simpa [Function.comp_def] using (frequencyTable_perm input).map Prod.fst

theorem frequencyTable_nodup (input : List Byte) : ((frequencyTable input).map Prod.fst).Nodup :=
  (frequencyTable_symbols_perm input).nodup_iff.2 input.nodup_dedup

theorem frequencyTable_eq_nil {input : List Byte} : frequencyTable input = [] ↔ input = [] := by
  rw [← List.length_eq_zero_iff, (frequencyTable_perm input).length_eq, List.length_map, List.length_eq_zero_iff,
    List.dedup_eq_nil]

theorem sum_frequencyTable (input : List Byte) : ((frequencyTable input).map Prod.snd).sum = input.length := by
  rw [((frequencyTable_perm input).map Prod.snd).sum_eq, List.map_map]
  exact input.sum_map_count_dedup_eq_length

theorem frequencyTable_valid {input : List Byte} (h : input.length < 2 ^ 32) :
    (frequencyTable input).valid input.length = true := by
  refine FreqTable.valid_iff.2 ⟨frequencyTable_nodup input, fun p hp => ?_, sum_frequencyTable input, ?_⟩
  · obtain ⟨y, -, rfl⟩ := List.mem_map.1 ((frequencyTable_perm input).mem_iff.1 hp)
    exact List.count_le_length.trans_lt h
  · rw [frequencyTable_eq_nil, List.length_eq_zero_iff]

/-! ## The payload's bits (00_scope.md R10) -/

theorem bitsOfByte_byteOfBits : ∀ b7 b6 b5 b4 b3 b2 b1 b0 : Bool,
    bitsOfByte (byteOfBits b7 b6 b5 b4 b3 b2 b1 b0) = [b7, b6, b5, b4, b3, b2, b1, b0] := by decide

/-- The bits of the bytes of whole groups of bits are those bits. -/
theorem bitsMsb_bytesMsb {x : Bits} (h : x.length % 8 = 0) : bitsMsb (bytesMsb x) = x := by
  fun_induction bytesMsb x with
  | case1 b7 b6 b5 b4 b3 b2 b1 b0 x ih =>
    have hx : x.length % 8 = 0 := by
      simp only [List.length_cons] at h
      omega
    exact congrArg₂ (· ++ ·) (bitsOfByte_byteOfBits ..) (ih hx)
  | case2 x hx =>
    match x with
    | [] => rfl
    | [_] | [_, _] | [_, _, _] | [_, _, _, _] | [_, _, _, _, _] | [_, _, _, _, _, _] | [_, _, _, _, _, _, _] =>
      simp at h
    | _ :: _ :: _ :: _ :: _ :: _ :: _ :: _ :: _ => exact (hx _ _ _ _ _ _ _ _ _ rfl).elim

/-- The bits of a payload are the codes of the input, then the padding. -/
theorem bitsMsb_packedPayload (codes : List (Symbol × Bits)) (input : List Byte) :
    ∃ pad : Bits, bitsMsb (packedPayload codes input) = (input.flatMap fun y => (codeFor codes y).getD []) ++ pad :=
  ⟨_, bitsMsb_bytesMsb (by rw [length_pad8]; omega)⟩

/-! ## The match takes off the codes (42_tables.md R165) -/

/-- The code of a symbol that has one is one of the table's. -/
theorem codeFor_mem {codes : List (Symbol × Bits)} {y : Symbol} (h : y ∈ codes.map Prod.fst) :
    (y, (codeFor codes y).getD []) ∈ codes := by
  rw [codeFor]
  cases hc : codes.lookup y with
  | none =>
    obtain ⟨c, hmem, rfl⟩ := List.mem_map.1 h
    simpa using List.lookup_eq_none_iff.1 hc c hmem
  | some c =>
    obtain ⟨l, r, hl, -⟩ := List.lookup_eq_some_iff.1 hc
    simp [hl]

section
variable {codes : List (Symbol × Bits)}
  (hapart : ∀ c ∈ codes, ∀ d ∈ codes, c.2 <+: d.2 → c = d)
include hapart

/-- A candidate that a code begins with grows to that code, since no code ends before it. -/
theorem candidateDecode_code {y : Symbol} {cand s : Bits} (hs : s ≠ []) (hy : (y, cand ++ s) ∈ codes) (k : Nat)
    (x : Bits) :
    candidateDecode codes (k + 1) cand (s ++ x) = (candidateDecode codes k [] x).map fun p => (y :: p.1, p.2) := by
  induction s generalizing cand with
  | nil => exact (hs rfl).elim
  | cons b s ih =>
    cases s with
    | nil =>
      refine candidateDecode_of_symbol (symbolFor_eq_some (fun c hc h => ?_) hy) k x
      exact congrArg Prod.fst (hapart c hc _ hy (h ▸ List.prefix_rfl))
    | cons b' s =>
      have hy' : (y, cand ++ [b] ++ b' :: s) ∈ codes := by simpa using hy
      have hnone : symbolFor codes (cand ++ [b]) = none := symbolFor_eq_none fun c hc h => by
        have hcy := hapart c hc _ hy' (h ▸ List.prefix_append _ _)
        simp [hcy] at h
      exact (candidateDecode_of_none hnone k _).trans (ih (by simp) hy')

/-- The match gives back the symbols whose codes stand in front. -/
theorem candidateDecode_codes (hne : ∀ c ∈ codes, c.2 ≠ []) {input : List Byte}
    (hin : ∀ y ∈ input, y ∈ codes.map Prod.fst) (x : Bits) :
    candidateDecode codes input.length [] ((input.flatMap fun y => (codeFor codes y).getD []) ++ x) =
      some (input, x) := by
  induction input with
  | nil => cases x <;> rfl
  | cons y input ih =>
    obtain ⟨hy, hin⟩ := List.forall_mem_cons.1 hin
    have hmem := codeFor_mem hy
    rw [List.flatMap_cons, List.append_assoc, List.length_cons, candidateDecode_code hapart (hne _ hmem) hmem, ih hin]
    rfl

end

/-! ## The round trip (45_host_protocol.md R231) -/

theorem WalkEnd.toOption_eq_some {w : WalkEnd} {out : List Symbol} {rest : Bits} (h : w.toOption = some (out, rest)) :
    w = .symbols out rest := by
  cases w <;> cases h
  rfl

/-- The payload of an input unpacks to the input: the tree's walk is the match of its codes, and none of them
begins another. -/
theorem unpackPayload_packedPayload {input : List Byte} (h : input ≠ []) :
    unpackPayload (frequencyTable input) input.length (packedPayload (codesOf (frequencyTable input)) input) =
      .ok input := by
  have hf : frequencyTable input ≠ [] := mt frequencyTable_eq_nil.1 h
  have hnodup := frequencyTable_nodup input
  obtain ⟨hsymbols, hne, hapart⟩ := codesArePrefixFree _ hf hnodup
  have hin : ∀ y ∈ input, y ∈ (codesOf (frequencyTable input)).map Prod.fst := fun y hy =>
    (hsymbols.trans (frequencyTable_symbols_perm input)).mem_iff.2 (List.mem_dedup.2 hy)
  obtain ⟨pad, hbits⟩ := bitsMsb_packedPayload (codesOf (frequencyTable input)) input
  have hwalk := treeWalkIsTheReverseTableMatch (frequencyTable input) input.length
    (bitsMsb (packedPayload (codesOf (frequencyTable input)) input)) hf hnodup
  rw [hbits, candidateDecode_codes hapart hne hin, ← hbits] at hwalk
  simp only [unpackPayload, WalkEnd.toOption_eq_some hwalk]

/-- Settles O60: an empty input is the header alone; of another, the header gives back its table and the payload its
bytes. -/
theorem containerRoundTrip : Obligations.ContainerRoundTrip := by
  intro input hlen
  by_cases h : input = []
  · subst h
    rfl
  · have h0 : input.length ≠ 0 := mt List.length_eq_zero_iff.1 h
    simp only [compressContainer, h, if_false, decompressContainer,
      parseHeader_headerBytes hlen h0 (frequencyTable_valid hlen), h0, unpackPayload_packedPayload h]

end Sys2Proof.Machine
end

section
/-! PROOFS. Faults and access errors (60_exceptions.md): a fault writes only its record, FAULT is left only by CLEAR or
reset, and a refused access only records its error (O43, O44, O45). -/

namespace Sys2Proof.Machine

/-! ## What a turn of the engine does to STATE and the records (R242) -/

/-- A turn of the engine faults and writes only the fault record, or it keeps AERR and moves STATE at most to DONE. -/
inductive EngineRecords (s : State) : State → Prop
  | fault (c : FaultCause) (info : BitVec 9) : EngineRecords s (raiseFault c info s)
  | run {t : State} (hm : t.mode = s.mode ∨ t.mode = .done) (ha : t.aerr = s.aerr) : EngineRecords s t

@[simp] theorem shiftInto_aerr (b : Bool) (s : State) : (shiftInto b s).aerr = s.aerr := by
  unfold shiftInto; split <;> rfl

theorem engineRecords_symOut (v : Symbol) (s : State) : EngineRecords s (symOut v (consume s)) := by
  obtain ⟨-, h⟩ | ⟨-, h⟩ := symOut_cases v (consume s) <;> rw [h]
  · exact .run (.inr rfl) rfl
  · exact .run (.inl rfl) rfl

theorem engineRecords_of_uBit {s t : State} (h : uBit s = .next t) : EngineRecords s t := by
  obtain ⟨_, -, -, -, rfl⟩ | ⟨_, -, -, -, rfl⟩ | ⟨_, -, -, -, rfl⟩ | ⟨_, _, -, -, -, -, -, rfl⟩ |
    ⟨_, _, -, -, -, -, -, rfl⟩ := uBit_cases h
  · exact .fault .badCode s.cur
  · exact engineRecords_symOut _ s
  · exact .fault .badNode s.cur
  · exact engineRecords_symOut _ s
  · exact .run (.inl rfl) rfl

theorem engineRecords_of_engineTurn {s t : State} (h : engineTurn s = .next t) : EngineRecords s t := by
  obtain ⟨-, hx⟩ | ⟨-, hx⟩ | ⟨-, hx⟩ | ⟨-, hx⟩ | ⟨-, hx⟩ | ⟨-, hx⟩ := engineTurn_cases s <;> rw [hx] at h
  · obtain ⟨-, rfl⟩ | ⟨_, -, -, rfl⟩ := pTake_cases h
    · exact .fault .noCode _
    · exact .run (.inl rfl) rfl
  · obtain ⟨b, _, -, -, rfl⟩ := pShift_cases h
    exact .run (.inl (shiftInto_mode b s)) (shiftInto_aerr b s)
  · obtain ⟨-, hp⟩ | ⟨-, hp⟩ := pFlush_cases s <;> cases hp.symm.trans h <;> exact .run (.inr rfl) rfl
  · cases h
    exact .run (.inl rfl) rfl
  · exact engineRecords_of_uBit h
  · cases h
    exact .run (.inl rfl) rfl

/-- A turn that enters FAULT raises the fault on the state it found. -/
theorem EngineRecords.raiseFault_of_fault {s t : State} (h : EngineRecords s t) (hs : s.mode ≠ .fault)
    (ht : t.mode = .fault) : ∃ c info, t = raiseFault c info s := by
  cases h with
  | fault c info => exact ⟨c, info, rfl⟩
  | run hm =>
    obtain hm | hm := hm
    · exact absurd (hm.symm.trans ht) hs
    · cases hm.symm.trans ht

theorem EngineRecords.aerr_eq {s t : State} (h : EngineRecords s t) : t.aerr = s.aerr := by
  cases h with
  | fault => rfl
  | run _ ha => exact ha

/-- A command that enters FAULT raises the fault on the cleared datapath. -/
theorem CommandEffect.raiseFault_of_fault {s t : State} {c : Command} (he : CommandEffect s c t)
    (hs : s.mode ≠ .fault) (ht : t.mode = .fault) : ∃ f info, t = raiseFault f info (clearDatapath s) := by
  cases he with
  | startUnpackFault => exact ⟨_, _, rfl⟩
  | clear | startPack | startUnpackNone | startUnpack => cases ht
  | nop | startRefused | flush | flushRefused | clrAerr | reserved => exact absurd ht hs

/-- Settles O43: the engine faults on the state it found, START_UNPACK on that state with its datapath cleared. -/
theorem faultsArePrecise : Obligations.FaultsArePrecise := by
  refine fun s t hs ht => ⟨fun h => ?_, fun h => ?_⟩
  · obtain ⟨c, info, rfl⟩ := (engineRecords_of_engineTurn h).raiseFault_of_fault hs ht
    rfl
  · obtain ⟨u, hu, he⟩ := perform_effect .startUnpack s
    cases h.symm.trans hu
    obtain ⟨c, info, rfl⟩ := he.raiseFault_of_fault hs ht
    rfl

/-! ## Leaving FAULT (R245, R259) -/

/-- In FAULT no engine step is enabled. -/
theorem waiting_of_fault {s : State} (hs : s.mode = .fault) (e : EngineStep) : e.enabled s = false :=
  waiting_of_not_run (by simp [hs]) (by simp [hs]) e

/-- The one command that leaves FAULT is CLEAR, which ends in IDLE with no fault recorded. -/
theorem CommandEffect.clear_of_leaves_fault {s t : State} {c : Command} (he : CommandEffect s c t)
    (hs : s.mode = .fault) (ht : t.mode ≠ .fault) :
    c = .clear ∧ t.mode = .idle ∧ t.faultCause = .none ∧ t.faultInfo = 0 := by
  cases he with
  | clear => exact ⟨rfl, rfl, rfl, rfl⟩
  | startPack hm | startUnpackNone hm | startUnpackFault hm | startUnpack hm =>
    exact absurd hm (not_idle_or_done (.inr (.inr hs)))
  | nop | startRefused | flush | flushRefused | clrAerr | reserved => exact absurd hs ht

/-- Settles O44: the engine waits in FAULT, and of the accesses only CLEAR changes STATE there. -/
theorem faultIsLeftOnlyByClear : Obligations.FaultIsLeftOnlyByClear := by
  intro s hs
  have hrefuse : ¬ (s.mode = .idle ∨ s.mode = .done) := not_idle_or_done (.inr (.inr hs))
  refine ⟨fun t h ht => ?_, waiting_of_fault hs, engineTurn_of_waiting (waiting_of_fault hs),
    exec_of_commandEffect (.startRefused (.inl rfl) hrefuse), exec_of_commandEffect (.startRefused (.inr rfl) hrefuse)⟩
  cases stepEffect_of_step h with
  | engine ts _ he =>
    cases (engineTurn_of_waiting (s := { s with turns := ts }) (waiting_of_fault hs)).symm.trans he
    exact absurd hs ht
  | reset ts hts he =>
    subst he
    exact ⟨rfl, rfl, rfl, ts, .inl hts⟩
  | access a ts i hts hd he =>
    obtain ⟨c, hi, hc⟩ := he.command_of_mode_ne fun hm => ht (hm.trans hs)
    obtain ⟨rfl, hmode, hcause, hinfo⟩ := hc.clear_of_leaves_fault hs ht
    exact ⟨hmode, hcause, hinfo, ts, .inr ⟨a, hts, access_of_command hd hi⟩⟩

/-! ## Access errors (R247) -/

/-- A command that raises an error with the record clear is refused whatever is recorded: no guard reads the record. -/
theorem CommandEffect.refused {s t : State} {c : Command} (he : CommandEffect (clearAccessError s) c t)
    (ht : t.aerr = true) : CommandEffect s c (raiseAccessError t.aerrCause s) := by
  cases he with
  | startRefused hc hm => exact .startRefused hc hm
  | flushRefused hm => exact .flushRefused hm
  | reserved w => exact .reserved w
  | _ => cases ht

/-- A configuration write is refused whatever is recorded, when its store does not write the record. -/
theorem configWrite_refused {store : State → State} {s : State}
    (ht : (configWrite store (clearAccessError s)).aerr = true) (hstore : ∀ u, (store u).aerr = u.aerr) :
    configWrite store s = raiseAccessError (configWrite store (clearAccessError s)).aerrCause s := by
  obtain ⟨hb, hx⟩ | ⟨-, hx⟩ := configWrite_cases store (clearAccessError s) <;> rw [hx] at ht ⊢
  · exact if_pos hb
  · cases (hstore _).symm.trans ht

/-- A write of DIN is refused by STATE and DIN, whatever is recorded. -/
theorem execWrDin_refused_of_clear {v : Word} {s t : State} (h : execWrDin v (clearAccessError s) = .next t)
    (ht : t.aerr = true) : execWrDin v s = .next (raiseAccessError t.aerrCause s) := by
  cases ha : s.accepting with
  | false =>
    cases (execWrDin_of_not_accepting v (s := clearAccessError s) ha).symm.trans h
    exact execWrDin_of_not_accepting v ha
  | true =>
    cases hv : s.dinValid with
    | true =>
      cases (execWrDin_of_full v (s := clearAccessError s) ha hv).symm.trans h
      exact execWrDin_of_full v ha hv
    | false =>
      have hr : s.dinReady = true := by simp [State.dinReady, ha, hv]
      cases (execWrDin_ready v (s := clearAccessError s) hr).symm.trans h
      cases ht

/-- A read of DOUT does not write the record. -/
theorem execRdDout_aerr {s t : State} (h : execRdDout s = .next t) : t.aerr = s.aerr := by
  unfold execRdDout at h
  split at h <;> cases h <;> rfl

/-- An access that raises an error with the record clear is refused whatever is recorded: a read raises nothing, and a
write of a read-only or unmapped offset is always refused. -/
theorem exec_refused_of_clear {i : Instr} {s t : State} (h : exec i (clearAccessError s) = .next t)
    (ht : t.aerr = true) : exec i s = .next (raiseAccessError t.aerrCause s) := by
  cases hi : commandOf i with
  | some c =>
    obtain ⟨u, hu, he⟩ := perform_effect c (clearAccessError s)
    cases h.symm.trans ((exec_of_commandOf hi _).trans hu)
    calc exec i s = perform c s := exec_of_commandOf hi s
      _ = exec c.toInstr s := (exec_toInstr c s).symm
      _ = .next (raiseAccessError t.aerrCause s) := exec_of_commandEffect (he.refused ht)
  | none =>
    cases i with
    | nop | clear | startPack | startUnpack | flush | clrAerr | reserved | wrCtrl => cases hi
    | rdDout => cases (execRdDout_aerr h).symm.trans ht
    | wrDin v => exact execWrDin_refused_of_clear h ht
    | wrSymcount | wrRoot | wrCodeLen | wrCodeW | wrNode =>
      cases h
      exact congrArg _ (configWrite_refused ht fun _ => rfl)
    | wrId | wrStatus | wrDout | wrInCount | wrOutCount | wrFaultInfo | wrDbgPack | wrDbgUnpack | wrParam =>
      cases h
      rfl
    | unmapped off use =>
      cases use with
      | read => cases h; cases ht
      | write v => cases h; rfl
    | _ => cases h; cases ht

/-- A command that clears AERR is CLEAR or CLR_AERR. -/
theorem CommandEffect.clears_aerr {s t : State} {c : Command} (he : CommandEffect s c t) (hs : s.aerr = true)
    (ht : t.aerr = false) : c = .clear ∨ c = .clrAerr := by
  cases he with
  | clear => exact .inl rfl
  | clrAerr => exact .inr rfl
  | startRefused | flushRefused | reserved => cases ht
  | _ => cases hs.symm.trans ht

/-- Of the accesses only a command clears AERR. -/
theorem AccessEffect.command_of_clears_aerr {s t : State} {i : Instr} (he : AccessEffect s i t) (hs : s.aerr = true)
    (ht : t.aerr = false) : ∃ c, commandOf i = some c ∧ CommandEffect s c t := by
  cases he with
  | command hi hc => exact ⟨_, hi, hc⟩
  | refuse => cases ht
  | _ => cases hs.symm.trans ht

/-- Settles O45: a refusal does not read the record, and AERR is traced through the effect of the turn that clears it. -/
theorem accessErrorsKeepTheFirstCause : Obligations.AccessErrorsKeepTheFirstCause := by
  refine ⟨fun i s t h ht => exec_refused_of_clear h ht, fun s t h hs ht => ?_⟩
  cases stepEffect_of_step h with
  | engine ts _ he => cases (hs.symm.trans (engineRecords_of_engineTurn he).aerr_eq.symm).trans ht
  | reset ts hts => exact ⟨ts, .inl hts⟩
  | access a ts i hts hd he =>
    obtain ⟨c, hi, hc⟩ := he.command_of_clears_aerr hs ht
    refine ⟨ts, .inr ⟨a, hts, ?_⟩⟩
    have ha := access_of_command hd hi
    obtain rfl | rfl := hc.clears_aerr hs ht
    · exact ha.elim .inl fun hw => .inr (.inr (.inl hw))
    · exact ha.elim (fun hw => .inr (.inl hw)) fun hw => .inr (.inr (.inr hw))

end Sys2Proof.Machine
end

section
/-! PROOFS. Reset and the engine left alone (70_reset_and_hazards.md R270, R281): a reset turn gives the reset state, and
every enabled engine step uses up work, so the engine alone comes to a wait or to UNINIT (O42, O50). -/

namespace Sys2Proof.Machine

/-! ## Reset (R270) -/

/-- Settles O50: the reset turn keeps the model's own fields and counts the reset. -/
theorem resetTurnResetsTheBlock : Obligations.ResetTurnResetsTheBlock := fun s _ ht =>
  ⟨s.epoch + 1, Nat.succ_ne_self _, step_of_reset ht⟩

/-! ## The work of a state, by what the engine has to do -/

theorem engineWork_pack {s : State} (hm : s.mode = .pack) :
    engineWork s = (if s.codeActive then ((s.mem.codeLen? s.curSym).getD 0).toNat - s.curIdx.toNat else 0)
      + (if s.dinValid then 257 else 0) + 1 := by
  simp only [engineWork, hm]

theorem engineWork_unpack {s : State} (hm : s.mode = .unpack) :
    engineWork s = s.srN.toNat + if s.dinValid then 9 else 0 := by
  simp only [engineWork, hm]

theorem engineWork_done {s : State} (hm : s.mode = .done) : engineWork s = 0 := by simp only [engineWork, hm]

theorem engineWork_fault {s : State} (hm : s.mode = .fault) : engineWork s = 0 := by simp only [engineWork, hm]

/-- Where a step is enabled there is work. -/
theorem engineWork_pos_of_enabled {s : State} {e : EngineStep} (h : e.enabled s = true) : 0 < engineWork s := by
  cases e with
  | pTake => rw [engineWork_pack ((pTakeEnabled_iff s).mp h).1]; exact Nat.succ_pos _
  | pShift => rw [engineWork_pack ((pShiftEnabled_iff s).mp h).1]; exact Nat.succ_pos _
  | pFlush => rw [engineWork_pack ((pFlushEnabled_iff s).mp h).1]; exact Nat.succ_pos _
  | uLoad =>
    obtain ⟨hm, -, hd⟩ := (uLoadEnabled_iff s).mp h
    simp [engineWork_unpack hm, hd]
  | uBit =>
    obtain ⟨hm, hn, -⟩ := (uBitEnabled_iff s).mp h
    rw [engineWork_unpack hm]
    exact Nat.add_pos_left hn _

/-! ## Every step uses up work (R281) -/

@[simp] theorem shiftInto_dinValid (b : Bool) (s : State) : (shiftInto b s).dinValid = s.dinValid := by
  unfold shiftInto; split <;> rfl

/-- A symbol taken from DIN costs 257, more than the bits of any code. -/
theorem engineWork_pTake_lt {s t : State} (he : pTakeEnabled s = true) (ht : pTake s = .next t) :
    engineWork t < engineWork s := by
  obtain ⟨hm, ha, hd⟩ := (pTakeEnabled_iff s).mp he
  obtain ⟨-, rfl⟩ | ⟨len, hl, -, rfl⟩ := pTake_cases ht
  · exact engineWork_pos_of_enabled (e := .pTake) he
  · have hlen : len.toNat < 256 := len.isLt
    rw [engineWork_pack hm, engineWork_pack (s := { takeDin s with curSym := _, curIdx := _, codeActive := _ }) hm]
    simp [hl, ha, hd]
    omega

/-- The invariant bounds the index by the code's length, so one bit less of the code is left. -/
theorem engineWork_pShift_lt {s t : State} (h : s.Inv) (he : pShiftEnabled s = true) (ht : pShift s = .next t) :
    engineWork t < engineWork s := by
  obtain ⟨hm, ha, -⟩ := (pShiftEnabled_iff s).mp he
  obtain ⟨len, hl, hlt⟩ := (activeCodeOk_iff s).mp (h.codeMode ha).2
  obtain ⟨b, len', hb, hl', -⟩ := pShift_cases ht
  cases hl.symm.trans hl'
  cases (pShift_of_written hb hl ha).symm.trans ht
  have hi : (s.curIdx + 1).toNat = s.curIdx.toNat + 1 := by bv_omega
  rw [engineWork_pack hm, engineWork_pack
    (s := { shiftInto b s with curIdx := s.curIdx + 1, codeActive := decide (s.curIdx + 1 ≠ len) })
    ((shiftInto_mode b s).trans hm)]
  simp only [shiftInto_mem, shiftInto_curSym, shiftInto_dinValid, hl, ha, hi, Option.getD_some, if_true]
  refine Nat.succ_lt_succ (Nat.add_lt_add_right ?_ _)
  split <;> omega

/-- The end of the run leaves no work. -/
theorem engineWork_pFlush_lt {s t : State} (he : pFlushEnabled s = true) (ht : pFlush s = .next t) :
    engineWork t < engineWork s := by
  have hdone : t.mode = .done := by cases ht; rfl
  rw [engineWork_done hdone]
  exact engineWork_pos_of_enabled (e := .pFlush) he

/-- A byte taken from DIN costs 9, more than its 8 bits. -/
theorem engineWork_uLoad_lt {s t : State} (he : uLoadEnabled s = true) (ht : uLoad s = .next t) :
    engineWork t < engineWork s := by
  obtain ⟨hm, -, hd⟩ := (uLoadEnabled_iff s).mp he
  cases ht
  rw [engineWork_unpack hm, engineWork_unpack (s := { takeDin s with sr := _, srN := _ }) hm]
  simp [hd]

/-- A bit consumed is one bit less of SR. -/
theorem engineWork_consume_lt {s : State} (hm : s.mode = .unpack) (hn : 0 < s.srN.toNat) :
    engineWork (consume s) < engineWork s := by
  have hlt : (s.srN - 1).toNat < s.srN.toNat := by bv_omega
  rw [engineWork_unpack hm, engineWork_unpack (s := consume s) hm]
  exact Nat.add_lt_add_right hlt _

/-- A symbol out adds no work: the run goes on with the bits it has, or it ends. -/
theorem engineWork_symOut_le (v : Symbol) {s : State} (hm : s.mode = .unpack) :
    engineWork (symOut v s) ≤ engineWork s := by
  obtain ⟨-, h⟩ | ⟨-, h⟩ := symOut_cases v s <;> rw [h]
  · exact Nat.zero_le _
  · rw [engineWork_unpack hm, engineWork_unpack (s := { emitOut v s with symCount := _, cur := _ }) hm]
    exact Nat.le_refl _

/-- A bit is consumed or the run ends in a fault. -/
theorem engineWork_uBit_lt {s t : State} (he : uBitEnabled s = true) (ht : uBit s = .next t) :
    engineWork t < engineWork s := by
  obtain ⟨hm, hn, -⟩ := (uBitEnabled_iff s).mp he
  have hbit := engineWork_consume_lt hm hn
  obtain ⟨off, ha⟩ := uBit_eq_bitAnswer s
  rw [ha] at ht
  cases hb : s.nextBitEffect <;> rw [hb] at ht <;> cases ht
  case symbol y => exact (engineWork_symOut_le y (s := consume s) hm).trans_lt hbit
  case move n =>
    rw [engineWork_unpack (s := { consume s with cur := n }) hm]
    rwa [engineWork_unpack (s := consume s) hm] at hbit
  case badCode => exact engineWork_pos_of_enabled (e := .uBit) he
  case badNode => exact engineWork_pos_of_enabled (e := .uBit) he

/-- An enabled step that answers a next state lowers the work. -/
theorem engineWork_lt_of_enabled {s t : State} {e : EngineStep} (h : s.Inv) (he : e.enabled s = true)
    (ht : engineTurn s = .next t) : engineWork t < engineWork s := by
  rw [engineTurn_of_enabled he] at ht
  cases e with
  | pTake => exact engineWork_pTake_lt he ht
  | pShift => exact engineWork_pShift_lt h he ht
  | pFlush => exact engineWork_pFlush_lt he ht
  | uLoad => exact engineWork_uLoad_lt he ht
  | uBit => exact engineWork_uBit_lt he ht

/-! ## What the engine's turn can answer (10_state.md R47) -/

theorem pTake_next_or_uninit (s : State) : (∃ t, pTake s = .next t) ∨ ∃ off, pTake s = .fault (.uninit off) := by
  cases hl : s.mem.codeLen? s.dinData with
  | none => exact .inr ⟨_, by simp only [pTake, hl]; rfl⟩
  | some len => by_cases h0 : len = 0 <;> exact .inl ⟨_, by simp only [pTake, hl, h0, if_true, if_false]; rfl⟩

theorem pShift_next_or_uninit (s : State) : (∃ t, pShift s = .next t) ∨ ∃ off, pShift s = .fault (.uninit off) := by
  cases hb : s.mem.codeBit? s.curSym s.curIdx with
  | none => exact .inr (pShift_of_unwritten (.inl hb))
  | some b =>
    cases hl : s.mem.codeLen? s.curSym with
    | none => exact .inr (pShift_of_unwritten (.inr hl))
    | some len => exact .inl ⟨_, by simp only [pShift, hb, hl]; rfl⟩

theorem uBit_next_or_uninit (s : State) : (∃ t, uBit s = .next t) ∨ ∃ off, uBit s = .fault (.uninit off) := by
  obtain ⟨off, h⟩ := uBit_eq_bitAnswer s
  rw [h]
  cases s.nextBitEffect with
  | uninit => exact .inr ⟨off, rfl⟩
  | _ => exact .inl ⟨_, rfl⟩

/-- The engine's turn answers a next state or UNINIT, and refuses nothing. -/
theorem engineTurn_next_or_uninit (s : State) :
    (∃ t, engineTurn s = .next t) ∨ ∃ off, engineTurn s = .fault (.uninit off) := by
  obtain ⟨-, h⟩ | ⟨-, h⟩ | ⟨-, h⟩ | ⟨-, h⟩ | ⟨-, h⟩ | ⟨-, h⟩ := engineTurn_cases s <;> rw [h]
  · exact pTake_next_or_uninit s
  · exact pShift_next_or_uninit s
  · exact .inl ⟨_, rfl⟩
  · exact .inl ⟨_, rfl⟩
  · exact uBit_next_or_uninit s
  · exact .inl ⟨_, rfl⟩

/-! ## The engine left alone (R281) -/

theorem engineAlone_succ_of_next {n : Nat} {s t : State} (h : engineTurn s = .next t) :
    engineAlone (n + 1) s = engineAlone n t := by simp only [engineAlone, h]

theorem engineAlone_succ_of_fault {n : Nat} {s : State} {f : Fault} (h : engineTurn s = .fault f) :
    engineAlone (n + 1) s = .fault f := by simp only [engineAlone, h]

theorem engineAlone_of_waiting {s : State} (h : ∀ e : EngineStep, e.enabled s = false) (n : Nat) :
    engineAlone n s = .next s := by
  induction n with
  | zero => rfl
  | succ n ih => exact (engineAlone_succ_of_next (engineTurn_of_waiting h)).trans ih

/-- As many engine turns as there is work, or more, come to a wait or to UNINIT. -/
theorem engineAlone_waits_or_uninit {n : Nat} {s : State} (h : s.Inv) (hn : engineWork s ≤ n) :
    (∃ t, engineAlone n s = .next t ∧ ∀ e : EngineStep, e.enabled t = false) ∨
      ∃ off, engineAlone n s = .fault (.uninit off) := by
  induction n generalizing s with
  | zero =>
    exact .inl ⟨s, rfl, fun e => Bool.eq_false_iff.mpr fun he => (engineWork_pos_of_enabled he).not_ge hn⟩
  | succ n ih =>
    by_cases hw : ∀ e : EngineStep, e.enabled s = false
    · exact .inl ⟨s, engineAlone_of_waiting hw _, hw⟩
    obtain ⟨e, he⟩ := not_forall.mp hw
    obtain ⟨t, ht⟩ | ⟨off, hf⟩ := engineTurn_next_or_uninit s
    · have hlt := engineWork_lt_of_enabled h (Bool.eq_true_of_not_eq_false he) ht
      rw [engineAlone_succ_of_next ht]
      exact ih (h.engineTurn ht) (Nat.le_of_lt_succ (hlt.trans_le hn))
    · exact .inr ⟨off, engineAlone_succ_of_fault hf⟩

/-- Settles O42: each step lowers the work, and by induction on a bound of it the turns alone come to an end. -/
theorem engineStepsUseUpWork : Obligations.EngineStepsUseUpWork := fun _ h =>
  ⟨fun _ _ => engineWork_lt_of_enabled h, engineAlone_waits_or_uninit h (Nat.le_refl _)⟩

end Sys2Proof.Machine
end
